-- ==== Sys2Proof/Word.lean ====
section
/-! DEFINITION. The word types of the machine (00_scope.md R6, R8). Bit 17 of a `Word` is the spec's doc bit 0 (R7). -/

namespace Sys2Proof

/-- A word and every 18-bit register (00_scope.md R6 `WORD_W`). -/
abbrev Word := BitVec 18

/-- The 12-bit program counter and instruction addresses (00_scope.md R6 `PC_W`). -/
abbrev PcWord := BitVec 12

/-- A character code of the input buffer, 0..65535 (10_state.md R35). -/
abbrev CharCode := BitVec 16

end Sys2Proof
end

