-- ==== Sys2Proof/Config.lean ====
section
/-! DEFINITION. The parameters of 00_scope.md R6 and the one free value of the model. -/

namespace Sys2Proof.Config

/-- Main-memory words (00_scope.md R6 `MEM_WORDS`). -/
abbrev memWords : Nat := 2048
/-- L1 lines (R6 `CACHE_LINES`). -/
abbrev cacheLines : Nat := 16
/-- Words per line (R6 `LINE_WORDS`). -/
abbrev lineWords : Nat := 8
/-- Write-buffer capacity (R6 `WB_CAP`). -/
abbrev wbCap : Nat := 4
/-- Width of the ADDR field (R6 `ADDR_W`; 90_conflicts.md C1; DESIGN CHOICE, log entry 13). -/
abbrev addrW : Nat := 5
/-- The trampoline word (R6 `TRAMP_ADDR`). -/
abbrev trampAddr : Nat := 8
/-- The smallest label address routed through the trampoline (R6 `TRAMP_LIMIT`; log entry 13). -/
abbrev trampLimit : Nat := 2 ^ addrW
/-- The word that holds the trap-table base (R6 `TRAP_TABLE_PTR`). -/
abbrev trapTablePtr : Nat := 0
/-- The word that holds the fault-handler entry (R6 `FAULT_VECTOR_PTR`). -/
abbrev faultVectorPtr : Nat := 1
/-- The word that receives PC on TRAP (R6 `TRAP_SAVE_PC`). -/
abbrev trapSavePc : Nat := 2
/-- The word that receives PC on a machine fault (R6 `FAULT_SAVE_PC`). -/
abbrev faultSavePc : Nat := 4
/-- The word that receives the MSR image on a machine fault (R6 `FAULT_SAVE_MSR`). -/
abbrev faultSaveMsr : Nat := 5
/-- Load base of the boot program, and where HLT of a user program returns (R6 `BOOT_BASE`). -/
abbrev bootBase : Nat := 24
/-- Load base of other programs (R6 `PROG_BASE`). -/
abbrev progBase : Nat := 100
/-- Where the paragraph program's host prefetches its text (70_reset_and_hazards.md R341). -/
abbrev prefetchBase : Nat := 1000
/-- The word that ends a prefetched text, EOT (70_reset_and_hazards.md R341). -/
abbrev eot : Nat := 4
/-- DEVID of the keyboard (R6 `DEV_KEYBOARD`). -/
abbrev devKeyboard : Nat := 0
/-- DEVID of the console (R6 `DEV_CONSOLE`). -/
abbrev devConsole : Nat := 1

/-- FREE VALUE (20_memory.md R67, 93 U10; log entry 7): which clean line is evicted, as a number that
`Cache.add` reduces to an index into the clean slots. Applied to the plain counter `MemSys.draws`; it has no
body, so nothing can be proved of it and every claim holds for every choice. -/
opaque evictDraw : Nat → Nat

end Sys2Proof.Config
end

