-- ==== Sys2Proof/Syntax.lean ====
section
/-! DEFINITION. The instructions (30_encoding.md R123), the eight formats, and the decode field registers. -/

namespace Sys2Proof

/-- The 29 mnemonics (00_scope.md R2). -/
inductive Op where
  | ldr | str | lda | ldx | stx | jz | jne | jcc | jmp | jsr | rfs | sob | jge
  | amr | smr | air | sir | mlt | dvd | trr | and | orr | not | src | rrc
  | inp | out | trap | hlt
  deriving DecidableEq, Repr

/-- The eight instruction formats (30_encoding.md R113 to R120). -/
inductive Format where
  | ls | lx | imm | trap | xy | monoX | shift | io
  deriving DecidableEq, Repr

/-- The decode field registers, with the widths of 10_state.md R20 and R33. They are registers of the
machine (`State.dec`), and also what the decoder extracts from a word (30_encoding.md R122). -/
structure DecodeFields where
  opcode : BitVec 6
  r : BitVec 2
  ix : BitVec 2
  i : BitVec 1
  addr : BitVec 5
  rx : BitVec 2
  ry : BitVec 2
  al : BitVec 1
  lr : BitVec 1
  count : BitVec 4
  devid : BitVec 5
  trapcode : BitVec 4
  deriving DecidableEq, Repr

/-- One constructor per row of spec/opcode_table.json. Every field of the row's format is an argument, also
where the instruction ignores it (JMP's R, HLT's fields): decode writes it to its register, and the ADDR field
of an ignored operand still takes part in the trampoline check (41_execution_cycle.md R186). -/
inductive Instr where
  /-- LDR, load register from memory (42_load_store.md R210). -/
  | ldr (r ix : BitVec 2) (i : Bool) (addr : BitVec 5)
  /-- STR, store register to memory (R211). -/
  | str (r ix : BitVec 2) (i : Bool) (addr : BitVec 5)
  /-- LDA, load address (R212). -/
  | lda (r ix : BitVec 2) (i : Bool) (addr : BitVec 5)
  /-- LDX, load index register (R213). -/
  | ldx (ix : BitVec 2) (i : Bool) (addr : BitVec 5)
  /-- STX, store index register (R214). -/
  | stx (ix : BitVec 2) (i : Bool) (addr : BitVec 5)
  /-- JZ, jump if zero (43_transfer.md R230). -/
  | jz (r ix : BitVec 2) (i : Bool) (addr : BitVec 5)
  /-- JNE, jump if not zero (R231). -/
  | jne (r ix : BitVec 2) (i : Bool) (addr : BitVec 5)
  /-- JCC, jump if the CC flag named by the R field is set (R232). -/
  | jcc (cc ix : BitVec 2) (i : Bool) (addr : BitVec 5)
  /-- JMP, jump; the R field is ignored (R233). -/
  | jmp (r ix : BitVec 2) (i : Bool) (addr : BitVec 5)
  /-- JSR, jump to subroutine; the R field is ignored (R234). -/
  | jsr (r ix : BitVec 2) (i : Bool) (addr : BitVec 5)
  /-- RFS, return from subroutine; R, IX and I are ignored (R235). -/
  | rfs (r ix : BitVec 2) (i : Bool) (addr : BitVec 5)
  /-- SOB, subtract one and branch (R236). -/
  | sob (r ix : BitVec 2) (i : Bool) (addr : BitVec 5)
  /-- JGE, jump if greater than or equal to zero (R237). -/
  | jge (r ix : BitVec 2) (i : Bool) (addr : BitVec 5)
  /-- AMR, add memory to register (44_arith_logic.md R250). -/
  | amr (r ix : BitVec 2) (i : Bool) (addr : BitVec 5)
  /-- SMR, subtract memory from register (R251). -/
  | smr (r ix : BitVec 2) (i : Bool) (addr : BitVec 5)
  /-- AIR, add immediate to register (R252). -/
  | air (r : BitVec 2) (addr : BitVec 5)
  /-- SIR, subtract immediate from register (R253). -/
  | sir (r : BitVec 2) (addr : BitVec 5)
  /-- MLT, multiply (R254). -/
  | mlt (rx ry : BitVec 2)
  /-- DVD, divide (R255). -/
  | dvd (rx ry : BitVec 2)
  /-- TRR, test equality (R256). -/
  | trr (rx ry : BitVec 2)
  /-- AND (R257). -/
  | and (rx ry : BitVec 2)
  /-- ORR, or (R258). -/
  | orr (rx ry : BitVec 2)
  /-- NOT (R259). -/
  | not (rx : BitVec 2)
  /-- SRC, shift by count; `al` = 1 is logical, `lr` = 1 is left (R260). -/
  | src (r : BitVec 2) (al lr : Bool) (count : BitVec 4)
  /-- RRC, rotate by count; `al` is ignored (R261). -/
  | rrc (r : BitVec 2) (al lr : Bool) (count : BitVec 4)
  /-- IN, input character (45_io_trap_halt.md R280). -/
  | inp (r : BitVec 2) (devid : BitVec 5)
  /-- OUT, output character (R281). -/
  | out (r : BitVec 2) (devid : BitVec 5)
  /-- TRAP, software trap (R282). -/
  | trap (trapcode : BitVec 4)
  /-- HLT, halt; all fields are ignored (R283). -/
  | hlt (r ix : BitVec 2) (i : Bool) (addr : BitVec 5)
  deriving DecidableEq, Repr

end Sys2Proof
end

