-- ==== Sys2Proof/WellFormed.lean ====
section
/-! DEFINITION. The reserved operand values of 30_encoding.md R127: which instruction terms have a meaning. -/

namespace Sys2Proof

/-- MLT and DVD name an even register pair: "rx must be 0 or 2" (30_encoding.md R127 `MulDivOddRx`). -/
def evenPair (rx : BitVec 2) : Bool := rx == 0 || rx == 2

/-- LDX and STX name X1..X3: "there is no X0" (30_encoding.md R127 `IndexZeroLX`). -/
def namesIndex (ix : BitVec 2) : Bool := ix != 0

/-- The operand checks of 30_encoding.md R127; every other instruction has a meaning at every operand. -/
def Instr.wellFormed : Instr → Bool
  | .ldx ix _ _ => namesIndex ix
  | .stx ix _ _ => namesIndex ix
  | .mlt rx _ => evenPair rx
  | .dvd rx _ => evenPair rx
  | .ldr _ _ _ _ => true
  | .str _ _ _ _ => true
  | .lda _ _ _ _ => true
  | .jz _ _ _ _ => true
  | .jne _ _ _ _ => true
  | .jcc _ _ _ _ => true
  | .jmp _ _ _ _ => true
  | .jsr _ _ _ _ => true
  | .rfs _ _ _ _ => true
  | .sob _ _ _ _ => true
  | .jge _ _ _ _ => true
  | .amr _ _ _ _ => true
  | .smr _ _ _ _ => true
  | .air _ _ => true
  | .sir _ _ => true
  | .trr _ _ => true
  | .and _ _ => true
  | .orr _ _ => true
  | .not _ => true
  | .src _ _ _ _ => true
  | .rrc _ _ _ _ => true
  | .inp _ _ => true
  | .out _ _ => true
  | .trap _ => true
  | .hlt _ _ _ _ => true

end Sys2Proof
end

