-- ==== Sys2Proof/Decode.lean ====
section
/-! DEFINITION. The decoder of 30_encoding.md R122, and after it the encoder of R136, both from the tables of
R113 to R120 (formats), R123 (format of each opcode) and R124 (opcode values). -/

namespace Sys2Proof

/-- Why decode refuses a word (30_encoding.md R127). -/
inductive DecodeError where
  | illegalOpcode
  | mulDivOddRx
  | indexZeroLX
  deriving DecidableEq, Repr

/-- `OPCODE_OF` (30_encoding.md R124). The numbers are the spec's default table, which it takes from general
knowledge of the course machine: PRESUMED (log entry 12). -/
def opcodeOf : Op → BitVec 6
  | .hlt => 0
  | .ldr => 1
  | .str => 2
  | .lda => 3
  | .amr => 4
  | .smr => 5
  | .air => 6
  | .sir => 7
  | .jz => 8
  | .jne => 9
  | .jcc => 10
  | .jmp => 11
  | .jsr => 12
  | .rfs => 13
  | .sob => 14
  | .jge => 15
  | .mlt => 16
  | .dvd => 17
  | .trr => 18
  | .and => 19
  | .orr => 20
  | .not => 21
  | .trap => 24
  | .src => 25
  | .rrc => 26
  | .ldx => 33
  | .stx => 34
  | .inp => 49
  | .out => 50

/-- The opcode table as a list, in the order of 30_encoding.md R124. -/
def allOps : List Op :=
  [.hlt, .ldr, .str, .lda, .amr, .smr, .air, .sir, .jz, .jne, .jcc, .jmp, .jsr, .rfs, .sob, .jge] ++
  [.mlt, .dvd, .trr, .and, .orr, .not, .trap, .src, .rrc, .ldx, .stx, .inp, .out]

/-- The mnemonic of an opcode value, none for the 35 values R124 does not list. -/
def opOfOpcode (c : BitVec 6) : Option Op := allOps.find? (fun o => opcodeOf o == c)

/-- `FORMAT_OF` (30_encoding.md R123). -/
def formatOf : Op → Format
  | .ldr => .ls
  | .str => .ls
  | .lda => .ls
  | .amr => .ls
  | .smr => .ls
  | .jz => .ls
  | .jne => .ls
  | .jcc => .ls
  | .jmp => .ls
  | .jsr => .ls
  | .rfs => .ls
  | .sob => .ls
  | .jge => .ls
  | .hlt => .ls
  | .ldx => .lx
  | .stx => .lx
  | .air => .imm
  | .sir => .imm
  | .trap => .trap
  | .mlt => .xy
  | .dvd => .xy
  | .trr => .xy
  | .and => .xy
  | .orr => .xy
  | .not => .monoX
  | .src => .shift
  | .rrc => .shift
  | .inp => .io
  | .out => .io

/-- Every field register 0 (10_state.md R42; 30_encoding.md R122 writes 0 to the absent fields). -/
def DecodeFields.zero : DecodeFields :=
  { opcode := 0, r := 0, ix := 0, i := 0, addr := 0, rx := 0, ry := 0, al := 0, lr := 0, count := 0,
    devid := 0, trapcode := 0 }

/-- `IR[17:12]` (30_encoding.md R111). -/
def opcodeField (w : Word) : BitVec 6 := w.extractLsb' 12 6

/-- The fields of one format, at the bit positions of 30_encoding.md R113 to R120; the absent ones 0 (R122). -/
def extractFields (fmt : Format) (w : Word) : DecodeFields :=
  match fmt with
  | .ls => { DecodeFields.zero with opcode := opcodeField w, r := w.extractLsb' 10 2, ix := w.extractLsb' 8 2,
                                    i := w.extractLsb' 7 1, addr := w.extractLsb' 2 5 }
  | .lx => { DecodeFields.zero with opcode := opcodeField w, ix := w.extractLsb' 10 2, i := w.extractLsb' 9 1,
                                    addr := w.extractLsb' 4 5 }
  | .imm => { DecodeFields.zero with opcode := opcodeField w, r := w.extractLsb' 10 2, addr := w.extractLsb' 5 5 }
  | .trap => { DecodeFields.zero with opcode := opcodeField w, trapcode := w.extractLsb' 8 4 }
  | .xy => { DecodeFields.zero with opcode := opcodeField w, rx := w.extractLsb' 10 2, ry := w.extractLsb' 8 2 }
  | .monoX => { DecodeFields.zero with opcode := opcodeField w, rx := w.extractLsb' 10 2 }
  | .shift => { DecodeFields.zero with opcode := opcodeField w, r := w.extractLsb' 10 2, al := w.extractLsb' 9 1,
                                       lr := w.extractLsb' 8 1, count := w.extractLsb' 4 4 }
  | .io => { DecodeFields.zero with opcode := opcodeField w, r := w.extractLsb' 10 2, devid := w.extractLsb' 5 5 }

/-- The instruction that a mnemonic and its decoded fields make; the checks of R127 are `checkReserved`. -/
def instrOf (o : Op) (f : DecodeFields) : Instr :=
  match o with
  | .ldr => .ldr f.r f.ix (f.i == 1) f.addr
  | .str => .str f.r f.ix (f.i == 1) f.addr
  | .lda => .lda f.r f.ix (f.i == 1) f.addr
  | .ldx => .ldx f.ix (f.i == 1) f.addr
  | .stx => .stx f.ix (f.i == 1) f.addr
  | .jz => .jz f.r f.ix (f.i == 1) f.addr
  | .jne => .jne f.r f.ix (f.i == 1) f.addr
  | .jcc => .jcc f.r f.ix (f.i == 1) f.addr
  | .jmp => .jmp f.r f.ix (f.i == 1) f.addr
  | .jsr => .jsr f.r f.ix (f.i == 1) f.addr
  | .rfs => .rfs f.r f.ix (f.i == 1) f.addr
  | .sob => .sob f.r f.ix (f.i == 1) f.addr
  | .jge => .jge f.r f.ix (f.i == 1) f.addr
  | .amr => .amr f.r f.ix (f.i == 1) f.addr
  | .smr => .smr f.r f.ix (f.i == 1) f.addr
  | .air => .air f.r f.addr
  | .sir => .sir f.r f.addr
  | .mlt => .mlt f.rx f.ry
  | .dvd => .dvd f.rx f.ry
  | .trr => .trr f.rx f.ry
  | .and => .and f.rx f.ry
  | .orr => .orr f.rx f.ry
  | .not => .not f.rx
  | .src => .src f.r (f.al == 1) (f.lr == 1) f.count
  | .rrc => .rrc f.r (f.al == 1) (f.lr == 1) f.count
  | .inp => .inp f.r f.devid
  | .out => .out f.r f.devid
  | .trap => .trap f.trapcode
  | .hlt => .hlt f.r f.ix (f.i == 1) f.addr

/-- The name under which 30_encoding.md R127 refuses an operand value, none for a well-formed instruction. -/
def reservedError : Instr → Option DecodeError
  | .ldx ix _ _ => if namesIndex ix then none else some .indexZeroLX
  | .stx ix _ _ => if namesIndex ix then none else some .indexZeroLX
  | .mlt rx _ => if evenPair rx then none else some .mulDivOddRx
  | .dvd rx _ => if evenPair rx then none else some .mulDivOddRx
  | .ldr _ _ _ _ => none
  | .str _ _ _ _ => none
  | .lda _ _ _ _ => none
  | .jz _ _ _ _ => none
  | .jne _ _ _ _ => none
  | .jcc _ _ _ _ => none
  | .jmp _ _ _ _ => none
  | .jsr _ _ _ _ => none
  | .rfs _ _ _ _ => none
  | .sob _ _ _ _ => none
  | .jge _ _ _ _ => none
  | .amr _ _ _ _ => none
  | .smr _ _ _ _ => none
  | .air _ _ => none
  | .sir _ _ => none
  | .trr _ _ => none
  | .and _ _ => none
  | .orr _ _ => none
  | .not _ => none
  | .src _ _ _ _ => none
  | .rrc _ _ _ _ => none
  | .inp _ _ => none
  | .out _ _ => none
  | .trap _ => none
  | .hlt _ _ _ _ => none

/-- "check the reserved operand values of rule R127", the last line of R122. -/
def checkReserved (i : Instr) : Except DecodeError Instr :=
  match reservedError i with
  | none => .ok i
  | some e => .error e

/-- `Decode(IR)` (30_encoding.md R122): total on every word, refusing by name. -/
def decode (w : Word) : Except DecodeError Instr :=
  match opOfOpcode (opcodeField w) with
  | none => .error .illegalOpcode
  | some o => checkReserved (instrOf o (extractFields (formatOf o) w))

/-- The instruction that the decode field registers hold: what the engine runs at k >= 4, when only the
registers are left of the decode step (41_execution_cycle.md R187). -/
def instrOfFields (f : DecodeFields) : Except DecodeError Instr :=
  match opOfOpcode f.opcode with
  | none => .error .illegalOpcode
  | some o => checkReserved (instrOf o f)

/-! ### The encoder -/

/-- The mnemonic of an instruction. -/
def Instr.op : Instr → Op
  | .ldr _ _ _ _ => .ldr
  | .str _ _ _ _ => .str
  | .lda _ _ _ _ => .lda
  | .ldx _ _ _ => .ldx
  | .stx _ _ _ => .stx
  | .jz _ _ _ _ => .jz
  | .jne _ _ _ _ => .jne
  | .jcc _ _ _ _ => .jcc
  | .jmp _ _ _ _ => .jmp
  | .jsr _ _ _ _ => .jsr
  | .rfs _ _ _ _ => .rfs
  | .sob _ _ _ _ => .sob
  | .jge _ _ _ _ => .jge
  | .amr _ _ _ _ => .amr
  | .smr _ _ _ _ => .smr
  | .air _ _ => .air
  | .sir _ _ => .sir
  | .mlt _ _ => .mlt
  | .dvd _ _ => .dvd
  | .trr _ _ => .trr
  | .and _ _ => .and
  | .orr _ _ => .orr
  | .not _ => .not
  | .src _ _ _ _ => .src
  | .rrc _ _ _ _ => .rrc
  | .inp _ _ => .inp
  | .out _ _ => .out
  | .trap _ => .trap
  | .hlt _ _ _ _ => .hlt

/-- The field registers of an LS instruction (30_encoding.md R113). -/
def fieldsLS (o : Op) (r ix : BitVec 2) (i : Bool) (addr : BitVec 5) : DecodeFields :=
  { DecodeFields.zero with opcode := opcodeOf o, r := r, ix := ix, i := BitVec.ofBool i, addr := addr }

/-- The field registers of an LX instruction (30_encoding.md R114). -/
def fieldsLX (o : Op) (ix : BitVec 2) (i : Bool) (addr : BitVec 5) : DecodeFields :=
  { DecodeFields.zero with opcode := opcodeOf o, ix := ix, i := BitVec.ofBool i, addr := addr }

/-- The field registers of an Imm instruction (30_encoding.md R115). -/
def fieldsImm (o : Op) (r : BitVec 2) (addr : BitVec 5) : DecodeFields :=
  { DecodeFields.zero with opcode := opcodeOf o, r := r, addr := addr }

/-- The field registers of TRAP (30_encoding.md R116). -/
def fieldsTrap (o : Op) (c : BitVec 4) : DecodeFields :=
  { DecodeFields.zero with opcode := opcodeOf o, trapcode := c }

/-- The field registers of an XY instruction (30_encoding.md R117). -/
def fieldsXY (o : Op) (rx ry : BitVec 2) : DecodeFields :=
  { DecodeFields.zero with opcode := opcodeOf o, rx := rx, ry := ry }

/-- The field registers of NOT (30_encoding.md R118). -/
def fieldsMonoX (o : Op) (rx : BitVec 2) : DecodeFields :=
  { DecodeFields.zero with opcode := opcodeOf o, rx := rx }

/-- The field registers of a Shift instruction (30_encoding.md R119). -/
def fieldsShift (o : Op) (r : BitVec 2) (al lr : Bool) (count : BitVec 4) : DecodeFields :=
  { DecodeFields.zero with opcode := opcodeOf o, r := r, al := BitVec.ofBool al, lr := BitVec.ofBool lr,
                           count := count }

/-- The field registers of an IO instruction (30_encoding.md R120). -/
def fieldsIO (o : Op) (r : BitVec 2) (devid : BitVec 5) : DecodeFields :=
  { DecodeFields.zero with opcode := opcodeOf o, r := r, devid := devid }

/-- What decode leaves in the field registers for an instruction: its format's fields, the rest 0
(30_encoding.md R122). -/
def fieldsOf : Instr → DecodeFields
  | .ldr r ix i addr => fieldsLS .ldr r ix i addr
  | .str r ix i addr => fieldsLS .str r ix i addr
  | .lda r ix i addr => fieldsLS .lda r ix i addr
  | .ldx ix i addr => fieldsLX .ldx ix i addr
  | .stx ix i addr => fieldsLX .stx ix i addr
  | .jz r ix i addr => fieldsLS .jz r ix i addr
  | .jne r ix i addr => fieldsLS .jne r ix i addr
  | .jcc cc ix i addr => fieldsLS .jcc cc ix i addr
  | .jmp r ix i addr => fieldsLS .jmp r ix i addr
  | .jsr r ix i addr => fieldsLS .jsr r ix i addr
  | .rfs r ix i addr => fieldsLS .rfs r ix i addr
  | .sob r ix i addr => fieldsLS .sob r ix i addr
  | .jge r ix i addr => fieldsLS .jge r ix i addr
  | .amr r ix i addr => fieldsLS .amr r ix i addr
  | .smr r ix i addr => fieldsLS .smr r ix i addr
  | .air r addr => fieldsImm .air r addr
  | .sir r addr => fieldsImm .sir r addr
  | .mlt rx ry => fieldsXY .mlt rx ry
  | .dvd rx ry => fieldsXY .dvd rx ry
  | .trr rx ry => fieldsXY .trr rx ry
  | .and rx ry => fieldsXY .and rx ry
  | .orr rx ry => fieldsXY .orr rx ry
  | .not rx => fieldsMonoX .not rx
  | .src r al lr count => fieldsShift .src r al lr count
  | .rrc r al lr count => fieldsShift .rrc r al lr count
  | .inp r devid => fieldsIO .inp r devid
  | .out r devid => fieldsIO .out r devid
  | .trap c => fieldsTrap .trap c
  | .hlt r ix i addr => fieldsLS .hlt r ix i addr

/-- The word with the fields of a format at their positions (R113 to R120) and every unused bit 0
(30_encoding.md R136). -/
def encodeFields (fmt : Format) (f : DecodeFields) : Word :=
  match fmt with
  | .ls => f.opcode ++ f.r ++ f.ix ++ f.i ++ f.addr ++ 0#2
  | .lx => f.opcode ++ f.ix ++ f.i ++ f.addr ++ 0#4
  | .imm => f.opcode ++ f.r ++ f.addr ++ 0#5
  | .trap => f.opcode ++ f.trapcode ++ 0#8
  | .xy => f.opcode ++ f.rx ++ f.ry ++ 0#8
  | .monoX => f.opcode ++ f.rx ++ 0#10
  | .shift => f.opcode ++ f.r ++ f.al ++ f.lr ++ f.count ++ 0#4
  | .io => f.opcode ++ f.r ++ f.devid ++ 0#5

/-- The word of an instruction (30_encoding.md R136). -/
def encode (i : Instr) : Word := encodeFields (formatOf i.op) (fieldsOf i)

/-- The instruction the decoder reads from the low `nbits` bits of `w`, numbered as spec/opcode_table.json
numbers them (one 18-bit word, bit 0 the least significant). Bits from `nbits` up are 0, and so are bits the
word does not have: an instruction has 18 of them (log entry 21). -/
def decodeTableWord (nbits w : Nat) : Option Instr :=
  (decode (BitVec.ofNat 18 (w % 2 ^ nbits))).toOption

end Sys2Proof
end

