-- ==== Sys2Proof/Machine/State.lean ====
section
/-! DEFINITION. The state of the machine (10_state.md), as plain data, its reset value, and the reasons a step stops. -/

namespace Sys2Proof.Machine

/-- Main memory (10_state.md R37) in its one canonical form: cells (address, word), addresses strictly rising,
no cell equal to what an unlisted address reads as, which is 0 (10_state.md R42; log entry 3). -/
abbrev Memory := List (Nat × Word)

/-- A line of the L1 cache (10_state.md R38): the base address of its 8-word block, its words, and the number
of its writes that main memory has not received; `writes > 0` is dirty. -/
structure Line where
  tag : Nat
  words : List Word
  writes : Nat
  deriving DecidableEq, Repr

/-- A write-buffer element (10_state.md R39). -/
structure Elem where
  address : Nat
  word : Word
  lineTag : Nat
  deriving DecidableEq, Repr

/-- The memory side of the machine: what the memory controller's steps can change, and nothing else. -/
structure MemSys where
  /-- `Mem` (10_state.md R37). -/
  mem : Memory
  /-- The occupied slots 0 .. next_slot - 1 of the L1 cache (10_state.md R38; log entry 14). -/
  l1 : List Line
  /-- `WB`, oldest element first (10_state.md R39). -/
  wb : List Elem
  /-- The element the controller has dequeued and not yet retired (10_state.md R39). -/
  inflight : Option Elem
  /-- Model's own: the counter the free eviction choice is applied to (log entry 7). -/
  draws : Nat
  /-- Model's own: how many controller moves come before each of the next engine micro-steps (log entry 6). -/
  ctrlTurns : List Nat
  deriving DecidableEq, Repr

/-- `phase` (10_state.md R34): the normal FSM, or fault-entry step j (60_exceptions.md R301). -/
inductive Phase where
  | run
  | faultEntry (j : Fin 3)
  deriving DecidableEq, Repr

/-- `exec_mode` (10_state.md R41): `macroStep` is the mode the spec calls macro. -/
inductive ExecMode where
  | micro
  | macroStep
  | continue
  deriving DecidableEq, Repr

/-- `program_kind` (10_state.md R41). -/
inductive ProgramKind where
  | boot
  | user
  deriving DecidableEq, Repr

/-- The two machine faults (60_exceptions.md R300). -/
inductive FaultKind where
  | addressFault
  | illegalTrap
  deriving DecidableEq, Repr

/-- One record of the ghost `fault_log` (60_exceptions.md R302). -/
structure FaultRecord where
  kind : FaultKind
  pc : PcWord
  mar : Word
  deriving DecidableEq, Repr

/-- What the loader surfaces to the driver (30_encoding.md R133); the number is the source line, from 0. -/
inductive ParseError where
  /-- DESIGN CHOICE: R133 gives an unknown mnemonic a logged error and does not call it a ParseError, nor does 60_exceptions.md
  R300; the model keeps it in the same list (log entry 16). -/
  | unknownMnemonic (line : Nat)
  | malformed (line : Nat)
  | duplicateLabel (line : Nat)
  | unresolvedLabel (line : Nat)
  deriving DecidableEq, Repr

/-- The kinds of `interrupt(kind)`: IO is the only one the source names (60_exceptions.md R308). -/
inductive InterruptKind where
  | io
  | other (n : Nat)
  deriving DecidableEq, Repr

/-- The host's actions on the core (60_exceptions.md R316). -/
inductive HostAct where
  /-- `load_rom(source)`, the source as its lines, with the character codes of a text the host prefetches to
  memory at 1000, if any (70_reset_and_hazards.md R341). -/
  | loadRom (source : List String) (prefetch : Option (List Nat))
  | execute (mode : ExecMode)
  /-- `execute(direct)`, a mode the source names and never defines. -/
  | executeDirect
  | interrupt (kind : InterruptKind)
  /-- `feed_input(str)`, the string as its character codes. -/
  | feedInput (str : List Nat)
  /-- The host's reaction to HLT (60_exceptions.md R318). -/
  | hltReaction
  | shutdown
  deriving DecidableEq, Repr

/-- Whose turn a step of the model is (20_memory.md R75, 41_execution_cycle.md R196; log entry 8): the three agents of
00_scope.md R5 in any order. -/
inductive Turn where
  /-- The host acts. -/
  | act (a : HostAct)
  /-- The memory controller takes one step alone, TAKE or RETIRE, if one is enabled. -/
  | controller
  /-- The engine takes one micro-step, whatever the mode: the next turn comes before its next micro-step. -/
  | micro
  /-- The engine goes on as its mode says: one micro-step in mode micro, else the rest of the instruction. -/
  | engine
  deriving DecidableEq, Repr

/-- The refusals of the model. But for those of `exec` on a term that no word decodes to, a refusal marks the state,
and the engine's next turn is refused by this name (41_execution_cycle.md R194; log entry 11). -/
inductive Refusal where
  /-- Raised by an arm of `exec` whose instruction has no meaning yet. SAFE. -/
  | notModelled (mnemonic : String)
  /-- Raised by decode: the opcode is none of the 29 (30_encoding.md R127). SAFE. -/
  | illegalOpcode
  /-- Raised by decode and by the meanings of MLT and DVD with RX = 1 or 3 (30_encoding.md R127). SAFE. -/
  | mulDivOddRx
  /-- Raised by decode and by the meanings of LDX and STX with IX = 0 (30_encoding.md R127). SAFE. -/
  | indexZeroLX
  /-- Raised by a turn of the engine in a state marked refused that records no name (41_execution_cycle.md R194).
  SAFE. -/
  | alreadyRefused
  /-- Raised by a turn of the engine after `shutdown()` once everything is drained: the engine takes no step and the
  controller has exited (20_memory.md R77, 93 U28; log entry 18). SAFE. -/
  | afterShutdown
  /-- Raised by a step whose k points past the tail of the decoded instruction: no rule gives such a state a
  step, and no run reaches one (log entry 20). SAFE. -/
  | noMicroOp
  /-- Raised by the host's `execute(direct)` (60_exceptions.md R316). SAFE. -/
  | executeDirect
  /-- Raised by the host's `execute` while `refused` or `terminated` (60_exceptions.md R316). SAFE. -/
  | executeNotAllowed
  /-- Raised by the host's `interrupt` of a kind other than IO (60_exceptions.md R308). SAFE. -/
  | interruptKind
  /-- Raised by `feed_input`, or by a prefetched text, with a character code above 65535
  (92_eei_decisions.md D24). SAFE. -/
  | charCodeTooLarge
  /-- Raised by a `load_rom` in the middle of an instruction (60_exceptions.md R316). SAFE. -/
  | loadMidInstruction
  /-- Raised by a `load_rom` that would store a word above 2047: a ParseError, and the engine is not started
  (70_reset_and_hazards.md R341). SAFE. -/
  | loadPastMemory
  /-- Raised by the HLT reaction while the engine is not halted: the host has no such move
  (60_exceptions.md R316). SAFE. -/
  | notHalted
  deriving DecidableEq, Repr

/-- The state of the machine: INVENTORY.md, State, lists every field with its rule. -/
structure State where
  r0 : Word
  r1 : Word
  r2 : Word
  r3 : Word
  x1 : Word
  x2 : Word
  x3 : Word
  pc : PcWord
  cc : BitVec 4
  msr : Word
  mfr : BitVec 4
  ir : Word
  mar : Word
  mdr : Word
  ea : Word
  op1 : Word
  op2 : Word
  op3 : Word
  op4 : Word
  result : Word
  result2 : Word
  /-- The twelve decode field registers (10_state.md R33). -/
  dec : DecodeFields
  /-- The step counter (10_state.md R34). -/
  k : Nat
  phase : Phase
  jumpTaken : Bool
  waitForInterrupt : Bool
  halted : Bool
  cycleCount : Nat
  /-- The input buffer and the character pointer (10_state.md R35). -/
  inbuf : List CharCode
  ptr : Nat
  /-- The bytes OUT has emitted, oldest first (10_state.md R35). -/
  terminal : List (BitVec 8)
  /-- Memory, cache, write buffer and in-flight slot (10_state.md R37 to R39). -/
  ms : MemSys
  /-- Set by the host's `shutdown()` (10_state.md R39). -/
  terminated : Bool
  /-- `LabelRefs` (10_state.md R36), sorted by instruction address (log entry 24). -/
  labelRefs : List (PcWord × PcWord)
  execMode : ExecMode
  programKind : ProgramKind
  /-- Set when the model refuses (10_state.md R41, 41_execution_cycle.md R194). -/
  refused : Bool
  /-- Whether the engine is inside an `execute` (60_exceptions.md R316, R317; log entry 5). -/
  executing : Bool
  /-- Model's own: the name of the refusal that set `refused` (log entry 11). -/
  refusal : Option Refusal
  /-- Model's own: whose turn each of the next steps is; where the list has ended, the engine's (log entry 8). -/
  turns : List Turn
  /-- Ghost state (60_exceptions.md R302): the machine faults raised so far, oldest first; no step reads it. -/
  faultLog : List FaultRecord
  /-- Model's own: the ParseErrors the last load surfaced to the driver (30_encoding.md R133). -/
  parseErrors : List ParseError
  deriving DecidableEq, Repr

/-- Why a micro-step is not taken now (41_execution_cycle.md R192). -/
inductive Hold where
  | bufferFull
  | cacheStall
  | inputStall
  deriving DecidableEq, Repr

/-- The faults of the MODEL. The machine faults of the spec are no stop: they enter the fault handler, a next
state (60_exceptions.md R301). -/
inductive Fault where
  /-- Raised by an engine micro-step whose hold stays after the memory controller has drained everything: the
  engine is stuck (93 U23). No state that meets `State.Inv` reaches it (20_memory.md R76). SAFE: the model
  stops where the machine would wait for ever (log entry 10). -/
  | engineStuck (h : Hold)
  deriving DecidableEq, Repr

/-- The memory side at engine construction (10_state.md R42). -/
def MemSys.reset : MemSys :=
  { mem := [], l1 := [], wb := [], inflight := none, draws := 0, ctrlTurns := [] }

/-- Engine construction (10_state.md R42, 70_reset_and_hazards.md R340). PC, program_kind and the empty LabelRefs are
DESIGN CHOICE: R42 gives for each what a load sets, and at construction there was no load (log entry 1). That no
`execute` is under way is DEDUCED (log entry 5); the model's own fields are those of log entries 6 to 8, 11, 15 and
17; the other values are R42's. -/
def State.reset : State :=
  { r0 := 0, r1 := 0, r2 := 0, r3 := 0, x1 := 0, x2 := 0, x3 := 0
    pc := 24, cc := 0, msr := 0, mfr := 0
    ir := 0, mar := 0, mdr := 0, ea := 0
    op1 := 0, op2 := 0, op3 := 0, op4 := 0, result := 0, result2 := 0
    dec := DecodeFields.zero
    k := 0, phase := .run, jumpTaken := false, waitForInterrupt := false, halted := false, cycleCount := 0
    inbuf := [], ptr := 0, terminal := []
    ms := MemSys.reset, terminated := false, labelRefs := []
    execMode := .micro, programKind := .boot, refused := false, executing := false, refusal := none
    turns := [], faultLog := [], parseErrors := [] }

end Sys2Proof.Machine
end

