-- ==== Sys2Proof/Machine/Operands.lean ====
section
/-! DEFINITION. Operand access: the register file, the index registers, immediates, the effective address. -/

namespace Sys2Proof.Machine

/-! ### General and index registers -/

/-- One of four words by a register field value (10_state.md R22). -/
def pickR (n : BitVec 2) (v0 v1 v2 v3 : Word) : Word :=
  match n.toNat with
  | 0 => v0
  | 1 => v1
  | 2 => v2
  | _ => v3

/-- `R[n]` (10_state.md R22). -/
def State.getR (s : State) (n : BitVec 2) : Word := pickR n s.r0 s.r1 s.r2 s.r3

/-- `R[n] <- v` (10_state.md R22). -/
def State.setR (s : State) (n : BitVec 2) (v : Word) : State :=
  { s with
    r0 := if n = 0 then v else s.r0
    r1 := if n = 1 then v else s.r1
    r2 := if n = 2 then v else s.r2
    r3 := if n = 3 then v else s.r3 }

/-- One of three words by an IX field value of 1..3; 0 names none (10_state.md R23). -/
def pickX (n : BitVec 2) (v1 v2 v3 : Word) : Option Word :=
  match n.toNat with
  | 0 => none
  | 1 => some v1
  | 2 => some v2
  | _ => some v3

/-- `X[n]` for n in 1..3; there is no X0 (10_state.md R23). -/
def State.getX (s : State) (n : BitVec 2) : Option Word := pickX n s.x1 s.x2 s.x3

/-- `X[n] <- v` for n in 1..3. The value 0 names no register and never arrives here: decode refuses LDX with
IX = 0 (30_encoding.md R127). -/
def State.setX (s : State) (n : BitVec 2) (v : Word) : State :=
  { s with
    x1 := if n = 1 then v else s.x1
    x2 := if n = 2 then v else s.x2
    x3 := if n = 3 then v else s.x3 }

/-! ### Width conversions (00_scope.md R9) -/

/-- A PC value in an 18-bit register. -/
def pcToWord (p : PcWord) : Word := p.setWidth 18

/-- An 18-bit value written to PC keeps its low 12 bits (10_state.md R24). -/
def wordToPc (v : Word) : PcWord := v.setWidth 12

/-- The 5-bit ADDR field used as a value, zero-extended (30_encoding.md R125). -/
def addrToWord (a : BitVec 5) : Word := a.setWidth 18

/-- The address of the next instruction, modulo 2^12 (10_state.md R24). -/
def pcNext (p : PcWord) : PcWord := p + 1

/-! ### Effective address (41_execution_cycle.md R188, R189) -/

/-- Whether the opcode is LDX or STX, whose IX names the register loaded or stored and does not index. -/
def opcodeIsLX (c : BitVec 6) : Bool := c == opcodeOf .ldx || c == opcodeOf .stx

/-- ADDR, plus the index if there is one, modulo 2^18 (41_execution_cycle.md R189). -/
def indexed (x : Option Word) (addr : BitVec 5) : Word :=
  match x with
  | none => addrToWord addr
  | some x => x + addrToWord addr

/-- The base of `EA(I)`: ADDR, plus X[IX] modulo 2^18 when IX is 1..3 and the instruction indexes
(41_execution_cycle.md R189). -/
def State.eaBase (s : State) (lx : Bool) (ix : BitVec 2) (addr : BitVec 5) : Word :=
  if lx then addrToWord addr else indexed (s.getX ix) addr

/-! ### The named registers (10_state.md R20) -/

/-- The fixed enumeration of the registers of 10_state.md R20. -/
inductive RegName where
  | r0 | r1 | r2 | r3 | x1 | x2 | x3 | ir | mar | mdr | msr | ea | op1 | op2 | op3 | op4 | result | result2
  | pc | cc | mfr
  | fOpcode | fR | fIx | fI | fAddr | fRx | fRy | fAl | fLr | fCount | fDevid | fTrapcode
  deriving DecidableEq, Repr

/-- The declared width of a register (10_state.md R20). -/
def RegName.width : RegName → Nat
  | .pc => 12
  | .cc => 4
  | .mfr => 4
  | .fOpcode => 6
  | .fR => 2
  | .fIx => 2
  | .fI => 1
  | .fAddr => 5
  | .fRx => 2
  | .fRy => 2
  | .fAl => 1
  | .fLr => 1
  | .fCount => 4
  | .fDevid => 5
  | .fTrapcode => 4
  | _ => 18

/-- The value of a named register, at its declared width. -/
def State.reg (s : State) : (n : RegName) → BitVec n.width
  | .r0 => s.r0
  | .r1 => s.r1
  | .r2 => s.r2
  | .r3 => s.r3
  | .x1 => s.x1
  | .x2 => s.x2
  | .x3 => s.x3
  | .ir => s.ir
  | .mar => s.mar
  | .mdr => s.mdr
  | .msr => s.msr
  | .ea => s.ea
  | .op1 => s.op1
  | .op2 => s.op2
  | .op3 => s.op3
  | .op4 => s.op4
  | .result => s.result
  | .result2 => s.result2
  | .pc => s.pc
  | .cc => s.cc
  | .mfr => s.mfr
  | .fOpcode => s.dec.opcode
  | .fR => s.dec.r
  | .fIx => s.dec.ix
  | .fI => s.dec.i
  | .fAddr => s.dec.addr
  | .fRx => s.dec.rx
  | .fRy => s.dec.ry
  | .fAl => s.dec.al
  | .fLr => s.dec.lr
  | .fCount => s.dec.count
  | .fDevid => s.dec.devid
  | .fTrapcode => s.dec.trapcode

end Sys2Proof.Machine
end

