-- ==== Sys2Proof/Machine/Flags.lean ====
section
/-! DEFINITION. The condition code (10_state.md R28) and the flag each ALU operation sets (40_alu.md R151 to R156). -/

namespace Sys2Proof.Machine

/-- `CC[j]`, the flag at doc bit j, which is `CC[3 - j]` in the weight numbering (10_state.md R28). -/
def ccFlag (cc : BitVec 4) (j : BitVec 2) : Bool := cc.getLsbD (3 - j.toNat)

/-- CC with the flag at doc bit j set and the others clear: CC = 8 OVERFLOW + 4 UNDERFLOW + 2 DIVZERO + 1 EQUALORNOT. -/
def ccOnly (j : BitVec 2) : BitVec 4 := 1#4 <<< (3 - j.toNat)

/-- The positions of the four flags (10_state.md R28). -/
def flagOverflow : BitVec 2 := 0
def flagUnderflow : BitVec 2 := 1
def flagDivzero : BitVec 2 := 2
def flagEqualornot : BitVec 2 := 3

/-- `CC <- 0`, then the flag at position j iff the condition holds (40_alu.md R151). -/
def ccWhen (j : BitVec 2) (b : Bool) : BitVec 4 := if b then ccOnly j else 0

/-- At most one flag is set (40_alu.md R163). -/
def ccAtMostOne (cc : BitVec 4) : Bool :=
  cc == 0 || cc == ccOnly 0 || cc == ccOnly 1 || cc == ccOnly 2 || cc == ccOnly 3

/-- CC after ADD: OVERFLOW iff the unsigned sum reaches 2^18 (40_alu.md R152). -/
def addFlags (a b : Word) : BitVec 4 :=
  if b.toNat = 0 then 0 else ccWhen flagOverflow (decide (2 ^ 18 ≤ a.toNat + b.toNat))

/-- The difference modulo 2^18, as 40_alu.md R153 writes it. -/
def subWrap (a b : Word) : Word := BitVec.ofNat 18 (a.toNat + 2 ^ 18 - b.toNat)

/-- CC after SUB: UNDERFLOW iff the result is above the original OP1, unsigned (40_alu.md R153). -/
def subFlags (a b : Word) : BitVec 4 :=
  if b.toNat = 0 then 0 else ccWhen flagUnderflow (decide (a.toNat < (subWrap a b).toNat))

/-- CC after MLT: OVERFLOW if the product exceeds 36 bits, which it never does (40_alu.md R154; 90_conflicts.md C7). -/
def mltFlags (a b : Word) : BitVec 4 := ccWhen flagOverflow (decide (2 ^ 36 ≤ a.toNat * b.toNat))

/-- CC after DVD: DIVZERO iff the divisor is 0 (40_alu.md R155). -/
def dvdFlags (b : Word) : BitVec 4 := ccWhen flagDivzero (decide (b.toNat = 0))

/-- CC after TRR: EQUALORNOT iff the two words are equal (40_alu.md R156). -/
def trrFlags (a b : Word) : BitVec 4 := ccWhen flagEqualornot (decide (a = b))

end Sys2Proof.Machine
end

