-- ==== Sys2Proof/Machine/Alu.lean ====
section
/-! DEFINITION. The ALU (40_alu.md): the result of each operation as a function of its operands, and each operation
as a write of RESULT, RESULT2 and CC from OP1..OP4 (R150). -/

namespace Sys2Proof.Machine

/-- RESULT of ADD (40_alu.md R152). -/
def addResult (a b : Word) : Word := if b.toNat = 0 then a else BitVec.ofNat 18 (a.toNat + b.toNat)

/-- RESULT of SUB (40_alu.md R153). -/
def subResult (a b : Word) : Word := if b.toNat = 0 then a else subWrap a b

/-- RESULT and RESULT2 of MLT: the high and the low 18 bits of the unsigned product (40_alu.md R154). -/
def mltHigh (a b : Word) : Word := BitVec.ofNat 18 (a.toNat * b.toNat / 2 ^ 18)
def mltLow (a b : Word) : Word := BitVec.ofNat 18 (a.toNat * b.toNat % 2 ^ 18)

/-- RESULT and RESULT2 of DVD for a divisor that is not 0, unsigned (40_alu.md R155). -/
def dvdQuotient (a b : Word) : Word := BitVec.ofNat 18 (a.toNat / b.toNat)
def dvdRemainder (a b : Word) : Word := BitVec.ofNat 18 (a.toNat % b.toNat)

/-- RESULT of NOT: (2^18 - 1) - u(OP1) (40_alu.md R159). -/
def notResult (a : Word) : Word := BitVec.ofNat 18 (2 ^ 18 - 1 - a.toNat)

/-- RESULT of SRC, for a value, a count and the modes left and logical (40_alu.md R160). The arithmetic right
shift is the floor of the signed value divided by 2^n. -/
def srcResult (v : Word) (n : Nat) (left logical : Bool) : Word :=
  if left then BitVec.ofNat 18 (v.toNat * 2 ^ n)
  else if logical then BitVec.ofNat 18 (v.toNat / 2 ^ n)
  else BitVec.ofInt 18 (v.toInt.fdiv (2 ^ n))

/-- RESULT of RRC, a rotate within 18 bits (40_alu.md R161). -/
def rrcResult (v : Word) (n : Nat) (left : Bool) : Word :=
  if left then BitVec.ofNat 18 (v.toNat * 2 ^ n % 2 ^ 18 + v.toNat / 2 ^ (18 - n))
  else BitVec.ofNat 18 (v.toNat / 2 ^ n + v.toNat * 2 ^ (18 - n) % 2 ^ 18)

/-- RESULT of GTE: 1 iff OP1 is at least OP2, signed (40_alu.md R162). -/
def gteResult (a b : Word) : Word := if b.toInt ≤ a.toInt then 1 else 0

/-- ALU.ADD (40_alu.md R152). -/
def aluAdd (s : State) : State := { s with result := addResult s.op1 s.op2, cc := addFlags s.op1 s.op2 }

/-- ALU.SUB (40_alu.md R153). -/
def aluSub (s : State) : State := { s with result := subResult s.op1 s.op2, cc := subFlags s.op1 s.op2 }

/-- ALU.MLT (40_alu.md R154). -/
def aluMlt (s : State) : State :=
  { s with result := mltHigh s.op1 s.op2, result2 := mltLow s.op1 s.op2, cc := mltFlags s.op1 s.op2 }

/-- ALU.DVD: on a zero divisor nothing but CC changes (40_alu.md R155). -/
def aluDvd (s : State) : State :=
  { s with
    result := if s.op2.toNat = 0 then s.result else dvdQuotient s.op1 s.op2
    result2 := if s.op2.toNat = 0 then s.result2 else dvdRemainder s.op1 s.op2
    cc := dvdFlags s.op2 }

/-- ALU.TRR: no result latch is written (40_alu.md R156). -/
def aluTrr (s : State) : State := { s with cc := trrFlags s.op1 s.op2 }

/-- ALU.AND (40_alu.md R157). -/
def aluAnd (s : State) : State := { s with result := s.op1 &&& s.op2 }

/-- ALU.ORR (40_alu.md R158). -/
def aluOrr (s : State) : State := { s with result := s.op1 ||| s.op2 }

/-- ALU.NOT (40_alu.md R159). -/
def aluNot (s : State) : State := { s with result := notResult s.op1 }

/-- ALU.SRC: OP1 the value, OP2 the count, OP3 left, OP4 logical (40_alu.md R160). -/
def aluSrc (s : State) : State :=
  { s with result := srcResult s.op1 s.op2.toNat (decide (s.op3.toNat = 1)) (decide (s.op4.toNat = 1)) }

/-- ALU.RRC: OP1 the value, OP2 the count, OP3 left, OP4 ignored (40_alu.md R161). -/
def aluRrc (s : State) : State := { s with result := rrcResult s.op1 s.op2.toNat (decide (s.op3.toNat = 1)) }

/-- ALU.GTE: a unit operation that no instruction reaches (40_alu.md R162). -/
def aluGte (s : State) : State := { s with result := gteResult s.op1 s.op2 }

end Sys2Proof.Machine
end

