-- ==== Sys2Proof/Machine/Memory.lean ====
section
/-! DEFINITION. The memory side (20_memory.md): main memory, the L1 cache, the write buffer, the memory controller,
the engine's reads and writes, and the two views of memory. -/

namespace Sys2Proof.Machine

/-! ### Main memory (R60 to R62) -/

/-- `Mem[a]`; an unlisted address reads 0 (10_state.md R42; log entry 3). -/
def Memory.read : Memory → Nat → Word
  | [], _ => 0
  | (b, w) :: rest, a => if b = a then w else Memory.read rest a

/-- `Mem[a] <- w`, keeping the cells sorted and listing no cell that holds 0 (log entry 3). -/
def Memory.write : Memory → Nat → Word → Memory
  | [], a, w => if w = 0 then [] else [(a, w)]
  | (b, v) :: rest, a, w =>
    if a < b then (if w = 0 then (b, v) :: rest else (a, w) :: (b, v) :: rest)
    else if a = b then (if w = 0 then rest else (a, w) :: rest)
    else (b, v) :: Memory.write rest a w

/-- The canonical form, from address `lo` on: addresses strictly rising and below 2048, no cell that holds 0. -/
def Memory.wfFrom : Nat → Memory → Bool
  | _, [] => true
  | lo, (a, w) :: rest =>
    decide (lo ≤ a) && decide (a < Config.memWords) && decide (w ≠ 0) && Memory.wfFrom (a + 1) rest

/-- The canonical form of a memory. -/
def Memory.wf (m : Memory) : Bool := Memory.wfFrom 0 m

/-- `a & ~7`, the base of the block of an address (20_memory.md R62). -/
def blockBase (a : Nat) : Nat := a / Config.lineWords * Config.lineWords

/-- `Memory.block(a)`: the 8 words of the block of `a` (20_memory.md R62). -/
def Memory.block (m : Memory) (a : Nat) : List Word :=
  (List.range Config.lineWords).map (fun j => m.read (blockBase a + j))

/-- `InRange(a)`: u(a) <= 2047 (20_memory.md R61). -/
def inRange (a : Word) : Bool := decide (a.toNat < Config.memWords)

/-! ### L1 cache (R64 to R68, R71) -/

/-- The hit test of 20_memory.md R64. -/
def Line.covers (L : Line) (a : Nat) : Bool := decide (L.tag ≤ a) && decide (a < L.tag + Config.lineWords)

/-- `Lookup(a)`: the first line of the scan that holds the address (20_memory.md R64). -/
def lookup (ls : List Line) (a : Nat) : Option Line := ls.find? (fun L => L.covers a)

/-- `Cache.read(a)` (20_memory.md R65). -/
def MemSys.cacheRead (m : MemSys) (a : Nat) : Option Word :=
  match lookup m.l1 a with
  | none => none
  | some L => some (L.words.getD (a - L.tag) 0)

/-- Change the first line that meets a test: the line that a scan returns. -/
def updateFirst (p : Line → Bool) (f : Line → Line) : List Line → List Line
  | [] => []
  | L :: rest => if p L then f L :: rest else L :: updateFirst p f rest

/-- The line after `Cache.write(w, a)` hits it (20_memory.md R66). -/
def Line.store (L : Line) (a : Nat) (w : Word) : Line :=
  { L with words := L.words.set (a - L.tag) w, writes := L.writes + 1 }

/-- `Cache.write(w, a)`: none on a miss, with nothing changed (20_memory.md R66). -/
def MemSys.cacheWrite (m : MemSys) (w : Word) (a : Nat) : Option MemSys :=
  match lookup m.l1 a with
  | none => none
  | some L => some { m with l1 := updateFirst (fun K => K.covers a) (fun K => K.store a w) m.l1,
                            wb := m.wb ++ [{ address := a, word := w, lineTag := L.tag }] }

/-- The slot at index i, empty from next_slot on (10_state.md R38). -/
def MemSys.slot (m : MemSys) (i : Nat) : Option Line := m.l1[i]?

/-- `next_slot`: the number of occupied slots (10_state.md R38; log entry 14). -/
def MemSys.nextSlot (m : MemSys) : Nat := m.l1.length

/-- Whether the slot holds a line with `writes = 0`. -/
def slotClean (ls : List Line) (i : Nat) : Bool :=
  match ls[i]? with
  | none => false
  | some L => decide (L.writes = 0)

/-- The slots that hold a line with `writes = 0`: what the eviction may draw from (20_memory.md R67). -/
def cleanSlots (ls : List Line) : List Nat := (List.range ls.length).filter (slotClean ls)

/-- The slot a draw picks from a non-empty list of clean slots: any of them, as the free value says. -/
def pickSlot (draw : Nat) (first : Nat) (slots : List Nat) : Nat := slots.getD (draw % slots.length) first

/-- `Cache.add(line)`: none when no slot holds a clean line (20_memory.md R67). The slot of an eviction is the
free value `Config.evictDraw` (log entry 7). -/
def MemSys.cacheAdd (m : MemSys) (L : Line) : Option MemSys :=
  if m.l1.length < Config.cacheLines then some { m with l1 := m.l1 ++ [L] }
  else
    match cleanSlots m.l1 with
    | [] => none
    | c :: cs => some { m with l1 := m.l1.set (pickSlot (Config.evictDraw m.draws) c (c :: cs)) L,
                               draws := m.draws + 1 }

/-- `Fill(a)` (20_memory.md R68); none when the add holds. -/
def MemSys.fill (m : MemSys) (a : Nat) : Option MemSys :=
  m.cacheAdd { tag := blockBase a, words := m.mem.block a, writes := 0 }

/-- `update_writes(a, -1)` on the line with tag `a & ~7` (20_memory.md R71). -/
def updateWrites (ls : List Line) (a : Nat) : List Line :=
  updateFirst (fun L => decide (L.tag = blockBase a)) (fun L => { L with writes := L.writes - 1 }) ls

/-! ### The memory controller (R72, R73) -/

/-- TAKE, enabled iff `inflight` is empty and `WB` is not (20_memory.md R72). -/
def MemSys.take (m : MemSys) : Option MemSys :=
  match m.inflight, m.wb with
  | none, e :: rest => some { m with inflight := some e, wb := rest }
  | _, _ => none

/-- RETIRE, enabled iff an element is in flight (20_memory.md R73). -/
def MemSys.retire (m : MemSys) : Option MemSys :=
  match m.inflight with
  | none => none
  | some e => some { m with mem := m.mem.write e.address e.word, l1 := updateWrites m.l1 e.address,
                            inflight := none }

/-- One move of the controller: RETIRE, TAKE, or nothing when neither is enabled. -/
def MemSys.ctrlMove (m : MemSys) : MemSys :=
  match m.retire with
  | some m' => m'
  | none =>
    match m.take with
    | some m' => m'
    | none => m

/-- Several moves of the controller. -/
def MemSys.ctrlMoves : Nat → MemSys → MemSys
  | 0, m => m
  | n + 1, m => MemSys.ctrlMoves n m.ctrlMove

/-- How many moves empty the buffer and the in-flight slot. -/
def MemSys.pendingMoves (m : MemSys) : Nat :=
  2 * m.wb.length + (match m.inflight with | none => 0 | some _ => 1)

/-- Whether WB and inflight are empty. -/
def MemSys.drained (m : MemSys) : Bool := m.wb.isEmpty && m.inflight.isNone

/-- The full drain: the controller moves until WB and inflight are empty. -/
def MemSys.drain (m : MemSys) : MemSys := MemSys.ctrlMoves m.pendingMoves m

/-- The controller's moves before one micro-step of the engine (20_memory.md R75): as many as the head of
`ctrlTurns` says, and one where the list has ended (DESIGN CHOICE, log entry 6: any number may come). -/
def MemSys.startTurn (m : MemSys) : MemSys :=
  match m.ctrlTurns with
  | [] => m.ctrlMove
  | n :: rest => MemSys.ctrlMoves n { m with ctrlTurns := rest }

/-! ### The engine's accesses (R69, R70) -/

/-- What one read of the engine gives. -/
inductive ReadResult where
  | got (v : Word) (m : MemSys)
  | hold (h : Hold)
  | raise

/-- What one write of the engine gives. -/
inductive WriteResult where
  | done (m : MemSys)
  | hold (h : Hold)
  | raise

/-- `MemRead(a, 1)` (20_memory.md R69). -/
def MemSys.memRead (m : MemSys) (a : Word) : ReadResult :=
  if inRange a then
    match m.cacheRead a.toNat with
    | some v => .got v m
    | none =>
      match m.fill a.toNat with
      | none => .hold .cacheStall
      | some m' => .got ((m'.cacheRead a.toNat).getD 0) m'
  else .raise

/-- The write of a word once its line is present, or is filled first (20_memory.md R70, last lines). -/
def MemSys.writeAllocate (m : MemSys) (a : Nat) (w : Word) : Option MemSys :=
  match m.cacheWrite w a with
  | some m' => some m'
  | none =>
    match m.fill a with
    | none => none
    | some m' => m'.cacheWrite w a

/-- `MemWrite(a, 1, w)`: the range check, then the buffer, then the cache (20_memory.md R70, 60_exceptions.md R304). -/
def MemSys.memWrite (m : MemSys) (a : Word) (w : Word) : WriteResult :=
  if inRange a then
    if Config.wbCap ≤ m.wb.length then .hold .bufferFull
    else
      match m.writeAllocate a.toNat w with
      | none => .hold .cacheStall
      | some m' => .done m'
  else .raise

/-! ### The two views (R78, R79) -/

/-- The writes main memory has not received, oldest first: the element in flight, then the buffer. -/
def MemSys.pending (m : MemSys) : List Elem := m.inflight.toList ++ m.wb

/-- The last pending write to an address wins over what main memory holds. -/
def overlay (es : List Elem) (a : Nat) (w : Word) : Word :=
  es.foldl (fun v e => if e.address = a then e.word else v) w

/-- The program's view of a word: the last word written to it, retired or not (20_memory.md R78). -/
def MemSys.view (m : MemSys) (a : Nat) : Word := overlay m.pending a (m.mem.read a)

/-- The host's view of a word: what main memory holds (20_memory.md R79). -/
def MemSys.hostView (m : MemSys) (a : Nat) : Word := m.mem.read a

end Sys2Proof.Machine
end

