-- ==== Sys2Proof/Machine/Ops.lean ====
section
/-! DEFINITION. The shared operations of the execution engine (41_execution_cycle.md, 60_exceptions.md): a micro-op, one
micro-step with the controller's moves around it, a sequence of micro-steps, taking a machine fault, decode with the
trampoline, completion, and the micro-ops that the tails are made of. -/

namespace Sys2Proof.Machine

/-- The outcome of a step of this machine. -/
abbrev Out := Host.Outcome State Fault Refusal

/-- What one micro-op does: it is taken; it is taken and completes the instruction; it holds; or it raises a
machine fault, with none of its own writes made. -/
inductive MicroResult where
  | ok (s : State)
  | complete (s : State)
  | hold (h : Hold) (s : State)
  | raise (kind : FaultKind) (s : State)

/-- A micro-op: one transition of the FSM, but for the cycle it counts. -/
abbrev Micro := State → MicroResult

/-! ### Inside an execute, and refusals -/

/-- Whether nothing stops the engine: it is neither halted nor waiting (41_execution_cycle.md R195), refused (R194) or
shut down (20_memory.md R77). -/
def State.canRun (s : State) : Bool := !s.halted && !s.waitForInterrupt && !s.refused && !s.terminated

/-- The engine is inside an `execute` from here on, unless it has no step: then the `execute` is over at once
(60_exceptions.md R317). -/
def State.resume (s : State) : State := { s with executing := s.canRun }

/-- The model refuses: the state is marked, with the name, and the `execute` is over (10_state.md R41,
41_execution_cycle.md R194; log entry 11). -/
def State.refuse (s : State) (r : Refusal) : State :=
  { s with refused := true, refusal := some r, executing := false }

/-! ### One micro-step -/

/-- The same state with another memory side: what a move of the controller or a memory access changes. -/
def State.withMs (s : State) (m : MemSys) : State := { s with ms := m }

/-- The step counter advances by one (41_execution_cycle.md R187). -/
def State.nextK (s : State) : State := { s with k := s.k + 1 }

/-- `cycle_count` counts one transition (41_execution_cycle.md R181). -/
def State.tick (s : State) : State := { s with cycleCount := s.cycleCount + 1 }

/-- Raising a machine fault: the phase becomes FaultEntry(0) (60_exceptions.md R301), and the ghost log records
the kind, PC and MAR (R302). -/
def State.raiseFault (s : State) (kind : FaultKind) : State :=
  { s with phase := .faultEntry 0, faultLog := s.faultLog ++ [{ kind := kind, pc := s.pc, mar := s.mar }] }

/-- A micro-op that the write buffer or the cache holds is retried after a move of the controller, until it is
taken or nothing is left to drain (41_execution_cycle.md R192). An input hold is left to the host. -/
def retryHeld : Nat → Micro → Micro
  | 0, op, s => op s
  | n + 1, op, s =>
    match op s with
    | .hold .bufferFull _ => retryHeld n op (s.withMs s.ms.ctrlMove)
    | .hold .cacheStall _ => retryHeld n op (s.withMs s.ms.ctrlMove)
    | .hold .inputStall s' => .hold .inputStall s'
    | .ok s' => .ok s'
    | .complete s' => .complete s'
    | .raise kind s' => .raise kind s'

/-- The cycle a taken or a raising micro-step counts; a held one counts none (41_execution_cycle.md R181, R193). -/
def account : MicroResult → MicroResult
  | .ok s => .ok s.tick
  | .complete s => .complete s.tick
  | .hold h s => .hold h s
  | .raise kind s => .raise kind (s.raiseFault kind).tick

/-- One micro-step of the engine: the controller's moves that come before it (20_memory.md R75), then the micro-op. -/
def microTurn (op : Micro) (s : State) : MicroResult :=
  account (retryHeld s.ms.startTurn.pendingMoves op (s.withMs s.ms.startTurn))

/-- Micro-steps one after another, then `fin`; a machine fault goes to `onFault`. An input hold ends the step with
the machine waiting (45_io_trap_halt.md R280). -/
def runSeq (fin onFault : State → Out) : List Micro → State → Out
  | [], s => fin s
  | op :: ops, s =>
    match microTurn op s with
    | .ok s' => runSeq fin onFault ops s'
    | .complete s' => .next s'
    | .hold .inputStall s' => .next s'
    | .hold .bufferFull _ => .fault (.engineStuck .bufferFull)
    | .hold .cacheStall _ => .fault (.engineStuck .cacheStall)
    | .raise _ s' => onFault s'

/-! ### Micro-ops over registers and memory -/

/-- A micro-op that only transfers between registers. -/
def regOp (f : State → State) : Micro := fun s => .ok (f s)

/-- A micro-op that reads one word of memory (20_memory.md R69). -/
def readOp (addr : State → Word) (put : Word → State → State) : Micro := fun s =>
  match s.ms.memRead (addr s) with
  | .got v m => .ok (put v (s.withMs m))
  | .hold h => .hold h s
  | .raise => .raise .addressFault s

/-- A micro-op that writes one word of memory (20_memory.md R70), then does `after`. -/
def writeOp (addr value : State → Word) (after : State → State) : Micro := fun s =>
  match s.ms.memWrite (addr s) (value s) with
  | .done m => .ok (after (s.withMs m))
  | .hold h => .hold h s
  | .raise => .raise .addressFault s

/-! ### Taking a machine fault -/

/-- The step of fault entry that comes next (60_exceptions.md R301). -/
def State.atFaultEntry (j : Fin 3) (s : State) : State := { s with phase := .faultEntry j }

/-- The last step of fault entry: PC from the vector word, and the machine runs on (60_exceptions.md R301). -/
def State.vectored (v : Word) (s : State) : State :=
  { s with pc := wordToPc v, jumpTaken := false, k := 0, phase := .run, execMode := .continue }

/-- The three fault-entry micro-ops (60_exceptions.md R301): PC to mem[4], the PC image to mem[5], PC from the
word at mem[1]. -/
def faultEntryOps : List Micro :=
  [ writeOp (fun _ => BitVec.ofNat 18 Config.faultSavePc) (fun s => pcToWord s.pc) (.atFaultEntry 1),
    writeOp (fun _ => BitVec.ofNat 18 Config.faultSaveMsr) (fun s => pcToWord s.pc) (.atFaultEntry 2),
    readOp (fun _ => BitVec.ofNat 18 Config.faultVectorPtr) .vectored ]

/-- Fault entry from its step j on (60_exceptions.md R301). Its addresses are in range, so it raises nothing. -/
def runFaultEntry (j : Nat) (s : State) : Out := runSeq .next .next (faultEntryOps.drop j) s

/-! ### Completion and jumps -/

/-- Completion: k <- 0, and PC advances unless a jump was taken (41_execution_cycle.md R190). -/
def State.completed (s : State) : State :=
  { s with k := 0, jumpTaken := false, pc := if s.jumpTaken then s.pc else pcNext s.pc }

/-- `PC <- v` in a tail: the low 12 bits, and jump_taken is set (41_execution_cycle.md R191). -/
def State.jump (s : State) (v : Word) : State := { s with pc := wordToPc v, jumpTaken := true }

/-- `if b: PC <- v`: a jump that is not taken writes neither PC nor jump_taken (41_execution_cycle.md R191). -/
def State.jumpIf (s : State) (b : Bool) (v : Word) : State :=
  { s with pc := if b then wordToPc v else s.pc, jumpTaken := b || s.jumpTaken }

/-- A tail micro-op that is not the last: k advances (41_execution_cycle.md R187). -/
def thenAdvance (op : Micro) : Micro := fun s =>
  match op s with
  | .ok s' => .ok s'.nextK
  | .complete s' => .complete s'.completed
  | .hold h s' => .hold h s'
  | .raise kind s' => .raise kind s'

/-- The last micro-op of a tail: it also completes the instruction (41_execution_cycle.md R187, R190). -/
def thenComplete (op : Micro) : Micro := fun s =>
  match op s with
  | .ok s' => .ok s'.completed
  | .complete s' => .complete s'.completed
  | .hold h s' => .hold h s'
  | .raise kind s' => .raise kind s'

/-- The micro-steps k = 4, 5, ... of a tail (41_execution_cycle.md R187). -/
def stepsOf : List Micro → List Micro
  | [] => []
  | [op] => [thenComplete op]
  | op :: ops => thenAdvance op :: stepsOf ops

/-! ### Fetch and decode -/

/-- k = 0, 1, 2 (41_execution_cycle.md R182 to R184). -/
def fetchOps : List Micro :=
  [ regOp (fun s => { s with mar := pcToWord s.pc, k := 1 }),
    readOp (fun s => s.mar) (fun v s => { s with mdr := v, k := 2 }),
    regOp (fun s => { s with ir := s.mdr, k := 3 }) ]

/-- `LabelRefs(PC)` (10_state.md R36). -/
def lookupRef : List (PcWord × PcWord) → PcWord → Option PcWord
  | [], _ => none
  | (p, t) :: rest, a => if p = a then some t else lookupRef rest a

/-- The field registers after decode; the next step is k = 4 (41_execution_cycle.md R185). -/
def State.decoded (f : DecodeFields) (s : State) : State := { s with dec := f, k := 4 }

/-- k = 3: decode writes every field register, then the trampoline write of mem[8] if ADDR is 8 and the address of
the instruction has a label reference (41_execution_cycle.md R185, R186). One micro-step: if the write holds,
nothing changes. -/
def decodeStep (f : DecodeFields) : Micro := fun s =>
  if f.addr.toNat = Config.trampAddr then
    match lookupRef s.labelRefs s.pc with
    | some t => writeOp (fun _ => BitVec.ofNat 18 Config.trampAddr) (fun _ => pcToWord t) (.decoded f) s
    | none => .ok (s.decoded f)
  else .ok (s.decoded f)

/-- A decode refusal as the model's refusal (30_encoding.md R127). -/
def decodeRefusal : DecodeError → Refusal
  | .illegalOpcode => .illegalOpcode
  | .mulDivOddRx => .mulDivOddRx
  | .indexZeroLX => .indexZeroLX

/-- An instruction from k = 3 on: its reserved operand values are refused before any effect (30_encoding.md R122,
R127); otherwise decode, its tail, and, if a step of them raises one, the machine fault. -/
def runInstr (i : Instr) (tail : List Micro) (s : State) : Out :=
  match reservedError i with
  | some e => .refused (decodeRefusal e)
  | none => runSeq .next (runFaultEntry 0) (decodeStep (fieldsOf i) :: stepsOf tail) s

/-! ### The micro-ops of the tails -/

/-- `EA <- base` (41_execution_cycle.md R188, R189). -/
def eaFromBase : Micro := regOp fun s => { s with ea := s.eaBase (opcodeIsLX s.dec.opcode) s.dec.ix s.dec.addr }

/-- `MAR <- EA`. -/
def marFromEa : Micro := regOp fun s => { s with mar := s.ea }

/-- `MDR <- MemRead(MAR, 1)`. -/
def mdrFromMem : Micro := readOp (fun s => s.mar) (fun v s => { s with mdr := v })

/-- `MemWrite(MAR, 1, MDR)`. -/
def memFromMdr : Micro := writeOp (fun s => s.mar) (fun s => s.mdr) (fun s => s)

/-- `EA <- MDR`. -/
def eaFromMdr : Micro := regOp fun s => { s with ea := s.mdr }

/-- `EA(I)`: one step, or four with one level of indirection (41_execution_cycle.md R188). -/
def eaOps (i : Bool) : List Micro := if i then [eaFromBase, marFromEa, mdrFromMem, eaFromMdr] else [eaFromBase]

/-- `OP1 <- R[R]`. -/
def op1FromR : Micro := regOp fun s => { s with op1 := s.getR s.dec.r }

/-- `OP1 <- R[RX]`. -/
def op1FromRx : Micro := regOp fun s => { s with op1 := s.getR s.dec.rx }

/-- `OP2 <- R[RY]`. -/
def op2FromRy : Micro := regOp fun s => { s with op2 := s.getR s.dec.ry }

/-- `OP2 <- MDR`. -/
def op2FromMdr : Micro := regOp fun s => { s with op2 := s.mdr }

/-- `OP2 <- zext_18(ADDR)`. -/
def op2FromAddr : Micro := regOp fun s => { s with op2 := addrToWord s.dec.addr }

/-- `OP2 <- 0`. -/
def op2Zero : Micro := regOp fun s => { s with op2 := 0 }

/-- `R[R] <- RESULT`. -/
def rFromResult : Micro := regOp fun s => s.setR s.dec.r s.result

/-- `R[RX] <- RESULT`. -/
def rxFromResult : Micro := regOp fun s => s.setR s.dec.rx s.result

/-- `R[RX + 1] <- RESULT2`. -/
def rxNextFromResult2 : Micro := regOp fun s => s.setR (s.dec.rx + 1) s.result2

/-- `if c: PC <- EA`, one micro-step whether or not the jump is taken (41_execution_cycle.md R187). -/
def jumpToEaIf (c : State → Bool) : Micro := regOp fun s => s.jumpIf (c s) s.ea

end Sys2Proof.Machine
end

