-- ==== Sys2Proof/Machine/ArithLogic.lean ====
section
/-! DEFINITION. Arithmetic, logical, shift and rotate instructions (44_arith_logic.md): for each its tail, and its meaning. -/

namespace Sys2Proof.Machine

/-- Tail of AMR (R250). -/
def amrTail (i : Bool) : List Micro :=
  eaOps i ++ [marFromEa, mdrFromMem, op2FromMdr, op1FromR, regOp aluAdd, rFromResult]

/-- Tail of SMR (R251). -/
def smrTail (i : Bool) : List Micro :=
  eaOps i ++ [marFromEa, mdrFromMem, op2FromMdr, op1FromR, regOp aluSub, rFromResult]

/-- Tail of AIR (R252). -/
def airTail : List Micro := [op1FromR, op2FromAddr, regOp aluAdd, rFromResult]

/-- Tail of SIR (R253). -/
def sirTail : List Micro := [op1FromR, op2FromAddr, regOp aluSub, rFromResult]

/-- Tail of MLT: both operands are latched before either write (R254). -/
def mltTail : List Micro := [op1FromRx, op2FromRy, regOp aluMlt, rxFromResult, rxNextFromResult2]

/-- ALU.DVD with its check: on DIVZERO the instruction completes in this micro-step (R255). -/
def dvdOp : Micro := fun s =>
  if ccFlag (aluDvd s).cc flagDivzero then .complete (aluDvd s) else .ok (aluDvd s)

/-- Tail of DVD (R255). -/
def dvdTail : List Micro := [op1FromRx, op2FromRy, dvdOp, rxFromResult, rxNextFromResult2]

/-- Tail of TRR (R256). -/
def trrTail : List Micro := [op1FromRx, op2FromRy, regOp aluTrr]

/-- Tail of AND (R257). -/
def andTail : List Micro := [op1FromRx, op2FromRy, regOp aluAnd, rxFromResult]

/-- Tail of ORR (R258). -/
def orrTail : List Micro := [op1FromRx, op2FromRy, regOp aluOrr, rxFromResult]

/-- Tail of NOT (R259). -/
def notTail : List Micro := [op1FromRx, regOp aluNot, rxFromResult]

/-- The operand latches of SRC and RRC: value, COUNT, LR, AL (R260, R261). -/
def shiftLatches : List Micro :=
  [ op1FromR,
    regOp fun s => { s with op2 := s.dec.count.setWidth 18 },
    regOp fun s => { s with op3 := s.dec.lr.setWidth 18 },
    regOp fun s => { s with op4 := s.dec.al.setWidth 18 } ]

/-- Tail of SRC (R260). -/
def srcTail : List Micro := shiftLatches ++ [regOp aluSrc, rFromResult]

/-- Tail of RRC (R261). -/
def rrcTail : List Micro := shiftLatches ++ [regOp aluRrc, rFromResult]

/-- AMR (44_arith_logic.md R250). -/
def execAmr (r ix : BitVec 2) (i : Bool) (addr : BitVec 5) (s : State) : Out :=
  runInstr (.amr r ix i addr) (amrTail i) s

/-- SMR (44_arith_logic.md R251). -/
def execSmr (r ix : BitVec 2) (i : Bool) (addr : BitVec 5) (s : State) : Out :=
  runInstr (.smr r ix i addr) (smrTail i) s

/-- AIR (44_arith_logic.md R252). -/
def execAir (r : BitVec 2) (addr : BitVec 5) (s : State) : Out := runInstr (.air r addr) airTail s

/-- SIR (44_arith_logic.md R253). -/
def execSir (r : BitVec 2) (addr : BitVec 5) (s : State) : Out := runInstr (.sir r addr) sirTail s

/-- MLT (44_arith_logic.md R254). -/
def execMlt (rx ry : BitVec 2) (s : State) : Out := runInstr (.mlt rx ry) mltTail s

/-- DVD (44_arith_logic.md R255). -/
def execDvd (rx ry : BitVec 2) (s : State) : Out := runInstr (.dvd rx ry) dvdTail s

/-- TRR (44_arith_logic.md R256). -/
def execTrr (rx ry : BitVec 2) (s : State) : Out := runInstr (.trr rx ry) trrTail s

/-- AND (44_arith_logic.md R257). -/
def execAnd (rx ry : BitVec 2) (s : State) : Out := runInstr (.and rx ry) andTail s

/-- ORR (44_arith_logic.md R258). -/
def execOrr (rx ry : BitVec 2) (s : State) : Out := runInstr (.orr rx ry) orrTail s

/-- NOT (44_arith_logic.md R259). -/
def execNot (rx : BitVec 2) (s : State) : Out := runInstr (.not rx) notTail s

/-- SRC (44_arith_logic.md R260). -/
def execSrc (r : BitVec 2) (al lr : Bool) (count : BitVec 4) (s : State) : Out :=
  runInstr (.src r al lr count) srcTail s

/-- RRC (44_arith_logic.md R261). -/
def execRrc (r : BitVec 2) (al lr : Bool) (count : BitVec 4) (s : State) : Out :=
  runInstr (.rrc r al lr count) rrcTail s

end Sys2Proof.Machine
end

