-- ==== Sys2Proof/Machine/IoTrapHalt.lean ====
section
/-! DEFINITION. I/O, trap and halt instructions (45_io_trap_halt.md): for each its tail, and its meaning. -/

namespace Sys2Proof.Machine

/-- `ptr <- ptr + 1`, and the buffer and pointer are reset after the last character (45_io_trap_halt.md R280). -/
def State.consumeChar (s : State) : State :=
  { s with
    inbuf := if s.ptr + 1 = s.inbuf.length then [] else s.inbuf
    ptr := if s.ptr + 1 = s.inbuf.length then 0 else s.ptr + 1 }

/-- `IN.read` (45_io_trap_halt.md R280). With another device it completes with no effect; with nothing left to
read it sets wait_for_interrupt and holds. -/
def inRead : Micro := fun s =>
  if s.dec.devid.toNat = Config.devKeyboard then
    match s.inbuf[s.ptr]? with
    | none => .hold .inputStall { s with waitForInterrupt := true }
    | some c => .ok ((s.setR s.dec.r (c.setWidth 18)).consumeChar)
  else .complete s

/-- `OUT.emit` (45_io_trap_halt.md R281). -/
def outEmit : Micro := regOp fun s =>
  if s.dec.devid.toNat = Config.devConsole then
    { s with terminal := s.terminal ++ [(s.getR s.dec.r).setWidth 8] }
  else s

/-- `MAR <- a` for a fixed address. -/
def marConst (a : Nat) : Micro := regOp fun s => { s with mar := BitVec.ofNat 18 a }

/-- The last step of TRAP: an empty entry raises IllegalTrap, any other is the target (45_io_trap_halt.md R282). -/
def trapEnter : Micro := fun s =>
  if s.mdr.toNat = 0 then .raise .illegalTrap s else .ok (s.jump s.mdr)

/-- Tail of IN (R280). -/
def inTail : List Micro := [inRead]

/-- Tail of OUT (R281). -/
def outTail : List Micro := [outEmit]

/-- Tail of TRAP (R282). -/
def trapTail : List Micro :=
  [ marConst Config.trapSavePc,
    regOp fun s => { s with mdr := pcToWord s.pc },
    memFromMdr,
    marConst Config.trapTablePtr,
    mdrFromMem,
    regOp fun s => { s with mar := s.mdr + s.dec.trapcode.setWidth 18 },
    mdrFromMem,
    trapEnter ]

/-- Tail of HLT (R283). -/
def hltTail : List Micro := [regOp fun s => { s with halted := true }]

/-- IN (45_io_trap_halt.md R280). -/
def execIn (r : BitVec 2) (devid : BitVec 5) (s : State) : Out := runInstr (.inp r devid) inTail s

/-- OUT (45_io_trap_halt.md R281). -/
def execOut (r : BitVec 2) (devid : BitVec 5) (s : State) : Out := runInstr (.out r devid) outTail s

/-- TRAP (45_io_trap_halt.md R282). -/
def execTrap (trapcode : BitVec 4) (s : State) : Out := runInstr (.trap trapcode) trapTail s

/-- HLT (45_io_trap_halt.md R283). -/
def execHlt (r ix : BitVec 2) (i : Bool) (addr : BitVec 5) (s : State) : Out :=
  runInstr (.hlt r ix i addr) hltTail s

end Sys2Proof.Machine
end

