-- ==== Sys2Proof/Machine/LoadStore.lean ====
section
/-! DEFINITION. Load and store instructions (42_load_store.md): for each its tail, and its meaning. -/

namespace Sys2Proof.Machine

/-- Tail of LDR (R210). -/
def ldrTail (i : Bool) : List Micro :=
  eaOps i ++ [marFromEa, mdrFromMem, regOp fun s => s.setR s.dec.r s.mdr]

/-- Tail of STR (R211). -/
def strTail (i : Bool) : List Micro :=
  eaOps i ++ [marFromEa, regOp fun s => { s with mdr := s.getR s.dec.r }, memFromMdr]

/-- Tail of LDA: no operand is read at EA (R212). -/
def ldaTail (i : Bool) : List Micro :=
  eaOps i ++ [regOp fun s => s.setR s.dec.r s.ea]

/-- Tail of LDX (R213). -/
def ldxTail (i : Bool) : List Micro :=
  eaOps i ++ [marFromEa, mdrFromMem, regOp fun s => s.setX s.dec.ix s.mdr]

/-- Tail of STX (R214). IX names one of X1..X3: decode has refused 0. -/
def stxTail (i : Bool) : List Micro :=
  eaOps i ++ [marFromEa, regOp fun s => { s with mdr := (s.getX s.dec.ix).getD 0 }, memFromMdr]

/-- LDR (42_load_store.md R210). -/
def execLdr (r ix : BitVec 2) (i : Bool) (addr : BitVec 5) (s : State) : Out :=
  runInstr (.ldr r ix i addr) (ldrTail i) s

/-- STR (42_load_store.md R211). -/
def execStr (r ix : BitVec 2) (i : Bool) (addr : BitVec 5) (s : State) : Out :=
  runInstr (.str r ix i addr) (strTail i) s

/-- LDA (42_load_store.md R212). -/
def execLda (r ix : BitVec 2) (i : Bool) (addr : BitVec 5) (s : State) : Out :=
  runInstr (.lda r ix i addr) (ldaTail i) s

/-- LDX (42_load_store.md R213). -/
def execLdx (ix : BitVec 2) (i : Bool) (addr : BitVec 5) (s : State) : Out :=
  runInstr (.ldx ix i addr) (ldxTail i) s

/-- STX (42_load_store.md R214). -/
def execStx (ix : BitVec 2) (i : Bool) (addr : BitVec 5) (s : State) : Out :=
  runInstr (.stx ix i addr) (stxTail i) s

end Sys2Proof.Machine
end

