-- ==== Sys2Proof/Machine/Transfer.lean ====
section
/-! DEFINITION. Transfer-of-control instructions (43_transfer.md): for each its tail, and its meaning. -/

namespace Sys2Proof.Machine

/-- The sign test of SOB and JGE: the register is at least 0 in its signed view (43_transfer.md R236, R237). -/
def signedNonneg (v : Word) : Bool := decide (0 ≤ v.toInt)

/-- SOB's decrement modulo 2^18, without the ALU (43_transfer.md R236). -/
def decrement (v : Word) : Word := BitVec.ofNat 18 (v.toNat + 2 ^ 18 - 1)

/-- Tail of JZ (R230). -/
def jzTail (i : Bool) : List Micro :=
  eaOps i ++ [op1FromR, op2Zero, regOp aluTrr, jumpToEaIf fun s => ccFlag s.cc flagEqualornot]

/-- Tail of JNE (R231). -/
def jneTail (i : Bool) : List Micro :=
  eaOps i ++ [op1FromR, op2Zero, regOp aluTrr, jumpToEaIf fun s => !ccFlag s.cc flagEqualornot]

/-- Tail of JCC: the R field names the flag (R232). -/
def jccTail (i : Bool) : List Micro :=
  eaOps i ++ [jumpToEaIf fun s => ccFlag s.cc s.dec.r]

/-- Tail of JMP (R233). -/
def jmpTail (i : Bool) : List Micro :=
  eaOps i ++ [regOp fun s => s.jump s.ea]

/-- Tail of JSR: R3 receives the address of the next instruction (R234). -/
def jsrTail (i : Bool) : List Micro :=
  eaOps i ++ [regOp fun s => s.setR 3 (pcToWord (pcNext s.pc)), regOp fun s => s.jump s.ea]

/-- Tail of RFS: no effective address (R235). -/
def rfsTail : List Micro :=
  [regOp fun s => s.setR 0 (addrToWord s.dec.addr), regOp fun s => s.jump (s.getR 3)]

/-- Tail of SOB: the decremented value is tested (R236). -/
def sobTail (i : Bool) : List Micro :=
  eaOps i ++ [regOp fun s => s.setR s.dec.r (decrement (s.getR s.dec.r)),
              jumpToEaIf fun s => signedNonneg (s.getR s.dec.r)]

/-- Tail of JGE (R237). -/
def jgeTail (i : Bool) : List Micro :=
  eaOps i ++ [jumpToEaIf fun s => signedNonneg (s.getR s.dec.r)]

/-- JZ (43_transfer.md R230). -/
def execJz (r ix : BitVec 2) (i : Bool) (addr : BitVec 5) (s : State) : Out :=
  runInstr (.jz r ix i addr) (jzTail i) s

/-- JNE (43_transfer.md R231). -/
def execJne (r ix : BitVec 2) (i : Bool) (addr : BitVec 5) (s : State) : Out :=
  runInstr (.jne r ix i addr) (jneTail i) s

/-- JCC (43_transfer.md R232). -/
def execJcc (cc ix : BitVec 2) (i : Bool) (addr : BitVec 5) (s : State) : Out :=
  runInstr (.jcc cc ix i addr) (jccTail i) s

/-- JMP (43_transfer.md R233). -/
def execJmp (r ix : BitVec 2) (i : Bool) (addr : BitVec 5) (s : State) : Out :=
  runInstr (.jmp r ix i addr) (jmpTail i) s

/-- JSR (43_transfer.md R234). -/
def execJsr (r ix : BitVec 2) (i : Bool) (addr : BitVec 5) (s : State) : Out :=
  runInstr (.jsr r ix i addr) (jsrTail i) s

/-- RFS (43_transfer.md R235). -/
def execRfs (r ix : BitVec 2) (i : Bool) (addr : BitVec 5) (s : State) : Out :=
  runInstr (.rfs r ix i addr) rfsTail s

/-- SOB (43_transfer.md R236). -/
def execSob (r ix : BitVec 2) (i : Bool) (addr : BitVec 5) (s : State) : Out :=
  runInstr (.sob r ix i addr) (sobTail i) s

/-- JGE (43_transfer.md R237). -/
def execJge (r ix : BitVec 2) (i : Bool) (addr : BitVec 5) (s : State) : Out :=
  runInstr (.jge r ix i addr) (jgeTail i) s

end Sys2Proof.Machine
end

