-- ==== Sys2Proof/Machine/Dispatch.lean ====
section
/-! DEFINITION. One arm per instruction: its meaning from decode (k = 3) to completion or fault entry. -/

namespace Sys2Proof.Machine

def exec (i : Instr) (s : State) : Host.Outcome State Fault Refusal :=
  match i with
  | .ldr r ix ind addr => Sys2Proof.Machine.execLdr r ix ind addr s
  | .str r ix ind addr => Sys2Proof.Machine.execStr r ix ind addr s
  | .lda r ix ind addr => Sys2Proof.Machine.execLda r ix ind addr s
  | .ldx ix ind addr => Sys2Proof.Machine.execLdx ix ind addr s
  | .stx ix ind addr => Sys2Proof.Machine.execStx ix ind addr s
  | .jz r ix ind addr => Sys2Proof.Machine.execJz r ix ind addr s
  | .jne r ix ind addr => Sys2Proof.Machine.execJne r ix ind addr s
  | .jcc cc ix ind addr => Sys2Proof.Machine.execJcc cc ix ind addr s
  | .jmp r ix ind addr => Sys2Proof.Machine.execJmp r ix ind addr s
  | .jsr r ix ind addr => Sys2Proof.Machine.execJsr r ix ind addr s
  | .rfs r ix ind addr => Sys2Proof.Machine.execRfs r ix ind addr s
  | .sob r ix ind addr => Sys2Proof.Machine.execSob r ix ind addr s
  | .jge r ix ind addr => Sys2Proof.Machine.execJge r ix ind addr s
  | .amr r ix ind addr => Sys2Proof.Machine.execAmr r ix ind addr s
  | .smr r ix ind addr => Sys2Proof.Machine.execSmr r ix ind addr s
  | .air r addr => Sys2Proof.Machine.execAir r addr s
  | .sir r addr => Sys2Proof.Machine.execSir r addr s
  | .mlt rx ry => Sys2Proof.Machine.execMlt rx ry s
  | .dvd rx ry => Sys2Proof.Machine.execDvd rx ry s
  | .trr rx ry => Sys2Proof.Machine.execTrr rx ry s
  | .and rx ry => Sys2Proof.Machine.execAnd rx ry s
  | .orr rx ry => Sys2Proof.Machine.execOrr rx ry s
  | .not rx => Sys2Proof.Machine.execNot rx s
  | .src r al lr count => Sys2Proof.Machine.execSrc r al lr count s
  | .rrc r al lr count => Sys2Proof.Machine.execRrc r al lr count s
  | .inp r devid => Sys2Proof.Machine.execIn r devid s
  | .out r devid => Sys2Proof.Machine.execOut r devid s
  | .trap trapcode => Sys2Proof.Machine.execTrap trapcode s
  | .hlt r ix ind addr => Sys2Proof.Machine.execHlt r ix ind addr s

end Sys2Proof.Machine
end

