-- ==== Sys2Proof/Machine/Engine.lean ====
section
/-! DEFINITION. The execution engine over whole steps (41_execution_cycle.md R180, 60_exceptions.md R317): one micro-step,
one instruction, and what a step is while the engine is stopped. -/

namespace Sys2Proof.Machine

/-- The tail of a decoded instruction (41_execution_cycle.md R187). -/
def tailOf : Instr → List Micro
  | .ldr _ _ i _ => ldrTail i
  | .str _ _ i _ => strTail i
  | .lda _ _ i _ => ldaTail i
  | .ldx _ i _ => ldxTail i
  | .stx _ i _ => stxTail i
  | .jz _ _ i _ => jzTail i
  | .jne _ _ i _ => jneTail i
  | .jcc _ _ i _ => jccTail i
  | .jmp _ _ i _ => jmpTail i
  | .jsr _ _ i _ => jsrTail i
  | .rfs _ _ _ _ => rfsTail
  | .sob _ _ i _ => sobTail i
  | .jge _ _ i _ => jgeTail i
  | .amr _ _ i _ => amrTail i
  | .smr _ _ i _ => smrTail i
  | .air _ _ => airTail
  | .sir _ _ => sirTail
  | .mlt _ _ => mltTail
  | .dvd _ _ => dvdTail
  | .trr _ _ => trrTail
  | .and _ _ => andTail
  | .orr _ _ => orrTail
  | .not _ => notTail
  | .src _ _ _ _ => srcTail
  | .rrc _ _ _ _ => rrcTail
  | .inp _ _ => inTail
  | .out _ _ => outTail
  | .trap _ => trapTail
  | .hlt _ _ _ _ => hltTail

/-- The micro-steps still to come of the instruction in the decode registers, at k >= 4. -/
def tailAt (s : State) : Except Refusal (List Micro) :=
  match instrOfFields s.dec with
  | .error e => .error (decodeRefusal e)
  | .ok i =>
    match (stepsOf (tailOf i)).drop (s.k - 4) with
    | [] => .error .noMicroOp
    | op :: ops => .ok (op :: ops)

/-- The micro-op of the next micro-step (41_execution_cycle.md R180). -/
def microOpAt (s : State) : Except Refusal Micro :=
  match s.phase with
  | .faultEntry j =>
    match faultEntryOps[j.val]? with
    | none => .error .noMicroOp
    | some op => .ok op
  | .run =>
    match fetchOps[s.k]? with
    | some op => .ok op
    | none =>
      if s.k = 3 then
        match decode s.ir with
        | .error e => .error (decodeRefusal e)
        | .ok i => .ok (decodeStep (fieldsOf i))
      else
        match tailAt s with
        | .error r => .error r
        | .ok ops => .ok (ops.headD (fun s => .ok s))

/-- One engine micro-step: `execute(micro)` (60_exceptions.md R317). A refusing one marks the state and does nothing
else (41_execution_cycle.md R194). -/
def engineMicro (s : State) : Out :=
  match microOpAt s with
  | .error r => .next (s.refuse r)
  | .ok op => runSeq .next .next [op] s

/-- k = 3 and the rest of the instruction: the word in IR is decoded and executed, or refused by name with the state
marked (30_encoding.md R127, 41_execution_cycle.md R194). -/
def decodeAndExec (s : State) : Out :=
  match decode s.ir with
  | .error e => .next (s.refuse (decodeRefusal e))
  | .ok i => exec i s

/-- The rest of an instruction whose decode step is done: an IN that was waiting, or one left in micro mode. -/
def resumeTail (s : State) : Out :=
  match tailAt s with
  | .error r => .next (s.refuse r)
  | .ok ops => runSeq .next (runFaultEntry 0) ops s

/-- Micro-steps until the instruction completes, or its machine fault is entered, or it waits:
`execute(macro)`, and one instruction of `execute(continue)` (60_exceptions.md R317). -/
def engineMacro (s : State) : Out :=
  match s.phase with
  | .faultEntry j => runFaultEntry j.val s
  | .run =>
    if s.k ≤ 3 then runSeq decodeAndExec (runFaultEntry 0) (fetchOps.drop s.k) s
    else resumeTail s

/-- A step in which the engine takes none: only the controller moves (20_memory.md R75; log entry 9). -/
def idleStep (s : State) : Out := .next { s with ms := s.ms.startTurn }

/-- Whether the `execute` goes on after micro-steps of the engine: not when the engine has no step; in mode micro only
after a raised machine fault, whose handler it goes on to run (60_exceptions.md R319); in mode macro until an
instruction has completed (R317). DESIGN CHOICE: where the host issues `execute(micro)` or `execute(macro)` in the midst
of fault entry, which neither R317 nor R319 names, it goes on through the entry into the handler too (log entry 5). -/
def State.goesOn (s : State) : Bool :=
  s.canRun &&
    match s.execMode with
    | .micro => decide (s.phase ≠ .run)
    | .macroStep => !(decide (s.phase = .run) && decide (s.k = 0))
    | .continue => true

/-- The state after micro-steps of the engine, the `execute` over or not. -/
def State.settle (s : State) : State := { s with executing := s.goesOn }

/-- An outcome of micro-steps of the engine, the `execute` over or not. -/
def settled : Out → Out
  | .next s => .next s.settle
  | .fault f => .fault f
  | .refused r => .refused r

/-- The engine's turn to run: stopped when refused (41_execution_cycle.md R194), outside an `execute` (60_exceptions.md
R316), halted or waiting (41_execution_cycle.md R195). After shutdown only the drain goes on, and once it is over the
turn refuses and marks the state (20_memory.md R77, 93 U28; log entry 18). -/
def engineTurn (run : State → Out) (s : State) : Out :=
  if s.refused then .refused (s.refusal.getD .alreadyRefused)
  else if s.terminated then (if s.ms.drained then .next (s.refuse .afterShutdown) else idleStep s)
  else if s.executing && s.canRun then settled (run s)
  else idleStep s

/-- What the engine runs where no turn says otherwise: a micro-step or an instruction, as the mode says. -/
def runByMode (s : State) : Out :=
  match s.execMode with
  | .micro => engineMicro s
  | .macroStep => engineMacro s
  | .continue => engineMacro s

/-- The engine's turn, as its mode says. -/
def engineStep (s : State) : Out := engineTurn runByMode s

/-- A step of the controller alone (20_memory.md R72, R73, R75). -/
def controllerStep (s : State) : Out := .next { s with ms := s.ms.ctrlMove }

/-- The state in which an instruction word stands where the next step fetches, the memory side as a load would
leave it: drained, the cache invalidated, the word stored directly (log entry 21). -/
def MemSys.withWord (m : MemSys) (a : Nat) (w : Word) : MemSys :=
  { m.drain with l1 := [], mem := m.drain.mem.write a w }

/-- A PC that a fetch can read from: its low 11 bits. -/
def fetchablePc (p : PcWord) : PcWord := p &&& 2047

end Sys2Proof.Machine
end

