-- ==== Sys2Proof/Machine/Assembler.lean ====
section
/-! DEFINITION. The assembler, as far as it decides instruction words and the label-reference map (30_encoding.md R128 to
R136). Two passes give what the source's one pass with patched forward references gives: every reference ends with
its label's address (R131; log entry 16). -/

namespace Sys2Proof.Machine

/-! ### Characters and tokens (R128) -/

def isBlank (c : Char) : Bool := c.toNat == 32 || c.toNat == 9 || c.toNat == 13

def isDigitChar (c : Char) : Bool := decide (48 ≤ c.toNat) && decide (c.toNat ≤ 57)

def isAlphaChar (c : Char) : Bool :=
  (decide (65 ≤ c.toNat) && decide (c.toNat ≤ 90)) || (decide (97 ≤ c.toNat) && decide (c.toNat ≤ 122))

def trimLeft (cs : List Char) : List Char := cs.dropWhile isBlank

def trim (cs : List Char) : List Char := (trimLeft (trimLeft cs).reverse).reverse

/-- What stands before a `/`, the comment mark (R128). -/
def stripComment (cs : List Char) : List Char := cs.takeWhile (fun c => c.toNat != 47)

/-- "splits the remainder by comma (trimming spaces) to yield fields" (R128). -/
def splitComma (cs : List Char) : List (List Char) :=
  cs.foldr (fun c acc =>
    if c.toNat == 44 then [] :: acc
    else
      match acc with
      | [] => [[c]]
      | h :: t => (c :: h) :: t) [[]]

/-- A decimal integer (30_encoding.md R128), none for anything else. DESIGN CHOICE: digits only, so that a literal with a
sign is malformed; R128 says no more than "decimal integers" (log entry 16). -/
def parseDecimal (cs : List Char) : Option Nat :=
  if cs.isEmpty || !cs.all isDigitChar then none
  else some (cs.foldl (fun n c => n * 10 + (c.toNat - 48)) 0)

/-- An operand: a decimal integer or a label name (R128). -/
inductive AsmOperand where
  | num (n : Nat)
  | label (name : List Char)
  deriving DecidableEq, Repr

/-- A name that a label may have: an alphabetic first character (R130) and no blank inside. -/
def isName : List Char → Bool
  | [] => false
  | c :: cs => isAlphaChar c && !cs.any isBlank

def parseOperand (cs : List Char) : Option AsmOperand :=
  if isName cs then some (.label cs)
  else
    match parseDecimal cs with
    | none => none
    | some n => some (.num n)

/-- Every operand of a list, none if one of them is neither an integer nor a name. -/
def parseOperands : List (List Char) → Option (List AsmOperand)
  | [] => some []
  | cs :: rest =>
    match parseOperand cs, parseOperands rest with
    | some o, some os => some (o :: os)
    | _, _ => none

/-! ### Mnemonics and operand orders (R129) -/

/-- The spelling of a mnemonic. -/
def opName : Op → String
  | .ldr => "LDR"
  | .str => "STR"
  | .lda => "LDA"
  | .ldx => "LDX"
  | .stx => "STX"
  | .jz => "JZ"
  | .jne => "JNE"
  | .jcc => "JCC"
  | .jmp => "JMP"
  | .jsr => "JSR"
  | .rfs => "RFS"
  | .sob => "SOB"
  | .jge => "JGE"
  | .amr => "AMR"
  | .smr => "SMR"
  | .air => "AIR"
  | .sir => "SIR"
  | .mlt => "MLT"
  | .dvd => "DVD"
  | .trr => "TRR"
  | .and => "AND"
  | .orr => "ORR"
  | .not => "NOT"
  | .src => "SRC"
  | .rrc => "RRC"
  | .inp => "IN"
  | .out => "OUT"
  | .trap => "TRAP"
  | .hlt => "HLT"

/-- The instruction a mnemonic names. DESIGN CHOICE: in the capitals of 30_encoding.md R124 only, so that a lower or mixed
case is an unknown mnemonic; R128 says nothing of case (log entry 16). -/
def opOfName (cs : List Char) : Option Op := allOps.find? (fun o => (opName o).toList == cs)

/-- The operand orders of R129. -/
inductive OperandShape where
  | rIxAddress | ixAddress | immed | noOperand | rImmed | code | rxRy | rxOnly | rCountLrAl | rDevid
  deriving DecidableEq, Repr

/-- The operand order of each mnemonic (R129). -/
def shapeOf : Op → OperandShape
  | .ldr => .rIxAddress
  | .str => .rIxAddress
  | .lda => .rIxAddress
  | .amr => .rIxAddress
  | .smr => .rIxAddress
  | .jz => .rIxAddress
  | .jne => .rIxAddress
  | .sob => .rIxAddress
  | .jge => .rIxAddress
  | .jcc => .rIxAddress
  | .jmp => .ixAddress
  | .jsr => .ixAddress
  | .ldx => .ixAddress
  | .stx => .ixAddress
  | .rfs => .immed
  | .hlt => .noOperand
  | .air => .rImmed
  | .sir => .rImmed
  | .trap => .code
  | .mlt => .rxRy
  | .dvd => .rxRy
  | .trr => .rxRy
  | .and => .rxRy
  | .orr => .rxRy
  | .not => .rxOnly
  | .src => .rCountLrAl
  | .rrc => .rCountLrAl
  | .inp => .rDevid
  | .out => .rDevid

/-- Fields under assembly, and the label their ADDR field waits for. -/
abbrev AsmFields := DecodeFields × Option (List Char)

/-- The `address` operand: a literal is truncated to the field (R130), a label is resolved later (R132). -/
def withAddress (f : DecodeFields) : AsmOperand → AsmFields
  | .num n => ({ f with addr := BitVec.ofNat 5 n }, none)
  | .label l => (f, some l)

/-- The field values of an instruction line; numeric operands are truncated to their fields (R130), fields that
R129 does not list are 0, and any other number or kind of operands is malformed. -/
def asmFields (o : Op) (ops : List AsmOperand) : Option AsmFields :=
  let z : DecodeFields := { DecodeFields.zero with opcode := opcodeOf o }
  match shapeOf o, ops with
  | .rIxAddress, [.num r, .num ix, a] =>
    some (withAddress { z with r := BitVec.ofNat 2 r, ix := BitVec.ofNat 2 ix } a)
  | .rIxAddress, [.num r, .num ix, a, .num i] =>
    some (withAddress { z with r := BitVec.ofNat 2 r, ix := BitVec.ofNat 2 ix, i := BitVec.ofNat 1 i } a)
  | .ixAddress, [.num ix, a] => some (withAddress { z with ix := BitVec.ofNat 2 ix } a)
  | .ixAddress, [.num ix, a, .num i] =>
    some (withAddress { z with ix := BitVec.ofNat 2 ix, i := BitVec.ofNat 1 i } a)
  | .immed, [.num n] => some ({ z with addr := BitVec.ofNat 5 n }, none)
  | .noOperand, [] => some (z, none)
  | .rImmed, [.num r, .num n] => some ({ z with r := BitVec.ofNat 2 r, addr := BitVec.ofNat 5 n }, none)
  | .code, [.num c] => some ({ z with trapcode := BitVec.ofNat 4 c }, none)
  | .rxRy, [.num x, .num y] => some ({ z with rx := BitVec.ofNat 2 x, ry := BitVec.ofNat 2 y }, none)
  | .rxOnly, [.num x] => some ({ z with rx := BitVec.ofNat 2 x }, none)
  | .rCountLrAl, [.num r, .num c, .num lr, .num al] =>
    some ({ z with r := BitVec.ofNat 2 r, count := BitVec.ofNat 4 c, lr := BitVec.ofNat 1 lr,
                   al := BitVec.ofNat 1 al }, none)
  | .rDevid, [.num r, .num d] => some ({ z with r := BitVec.ofNat 2 r, devid := BitVec.ofNat 5 d }, none)
  | _, _ => none

/-! ### Lines -/

/-- What a line holds beside its label. -/
inductive LineBody where
  | nothing
  | unknown
  | bad
  | instr (o : Op) (f : AsmFields)
  deriving DecidableEq, Repr

/-- The operands of an instruction line. -/
def operandsOf (cs : List Char) : Option (List AsmOperand) :=
  if cs.isEmpty then some [] else parseOperands ((splitComma cs).map trim)

/-- A line without its label: "the opcode key is the first whitespace-separated token" (R128). -/
def parseBody (cs : List Char) : LineBody :=
  if cs.isEmpty then .nothing
  else
    match opOfName (cs.takeWhile (fun c => !isBlank c)) with
    | none => .unknown
    | some o =>
      match operandsOf (trim (cs.dropWhile (fun c => !isBlank c))) with
      | none => .bad
      | some ops =>
        match asmFields o ops with
        | none => .bad
        | some f => .instr o f

/-- A line: the label it defines, if any, and its body (R128). -/
structure AsmLine where
  label : Option (List Char)
  body : LineBody
  deriving DecidableEq, Repr

/-- A source line. DESIGN CHOICE: blanks may stand between a label and its colon, where 30_encoding.md R128 gives only the
form `NAME:`, and a line whose text before its first colon is no name is malformed (log entry 16). -/
def parseLine (src : String) : AsmLine :=
  let cs := trim (stripComment src.toList)
  let head := cs.takeWhile (fun c => c.toNat != 58)
  if head.length = cs.length then { label := none, body := parseBody cs }
  else if isName (trim head) then
    { label := some (trim head), body := parseBody (trim (cs.drop (head.length + 1))) }
  else { label := none, body := .bad }

/-! ### The label table and the words (R131 to R136) -/

/-- One instruction to be stored: its address, mnemonic, fields, and the label its ADDR field waits for. -/
structure AsmItem where
  addr : Nat
  op : Op
  fields : AsmFields
  deriving DecidableEq, Repr

/-- The state of the first pass: write pointer, label table, instructions and errors, latest first. -/
structure AsmPass where
  line : Nat
  ptr : Nat
  labels : List (List Char × Nat)
  items : List AsmItem
  errors : List ParseError
  deriving DecidableEq, Repr

/-- The address a label is bound to (R131). -/
def lookupLabel : List (List Char × Nat) → List Char → Option Nat
  | [], _ => none
  | (n, a) :: rest, l => if n = l then some a else lookupLabel rest l

/-- A line's body at the write pointer: one word is stored and the pointer advances by 1 (R134), or nothing is
stored and the pointer stays (R133). A reference to a label that no line defines is an unresolved label. -/
def passBody (defined : List (List Char)) (b : LineBody) (p : AsmPass) : AsmPass :=
  match b with
  | .nothing => p
  | .unknown => { p with errors := .unknownMnemonic p.line :: p.errors }
  | .bad => { p with errors := .malformed p.line :: p.errors }
  | .instr o f =>
    match f.2 with
    | some l =>
      if defined.contains l then
        { p with items := { addr := p.ptr, op := o, fields := f } :: p.items, ptr := p.ptr + 1 }
      else { p with errors := .unresolvedLabel p.line :: p.errors }
    | none => { p with items := { addr := p.ptr, op := o, fields := f } :: p.items, ptr := p.ptr + 1 }

/-- One line of the first pass: a new label is bound to the write pointer; a second definition is an error, and
its line is skipped (R131, R133). -/
def passLine (defined : List (List Char)) (p : AsmPass) (ln : AsmLine) : AsmPass :=
  let q :=
    match ln.label with
    | none => passBody defined ln.body p
    | some l =>
      match lookupLabel p.labels l with
      | some _ => { p with errors := .duplicateLabel p.line :: p.errors }
      | none => passBody defined ln.body { p with labels := (l, p.ptr) :: p.labels }
  { q with line := p.line + 1 }

/-- The fields with the label's address encoded: directly below the trampoline limit, else ADDR 8 and I 1 (R132). -/
def resolveFields (labels : List (List Char × Nat)) (f : AsmFields) : DecodeFields :=
  match f.2 with
  | none => f.1
  | some l =>
    match lookupLabel labels l with
    | none => f.1
    | some t =>
      if t < Config.trampLimit then { f.1 with addr := BitVec.ofNat 5 t }
      else { f.1 with addr := BitVec.ofNat 5 Config.trampAddr, i := 1 }

/-- The label reference that an instruction records: only a trampolined one (R132). -/
def refOf (labels : List (List Char × Nat)) (it : AsmItem) : Option (PcWord × PcWord) :=
  match it.fields.2 with
  | none => none
  | some l =>
    match lookupLabel labels l with
    | none => none
    | some t => if t < Config.trampLimit then none else some (BitVec.ofNat 12 it.addr, BitVec.ofNat 12 t)

/-- What the assembly of a source gives: the words with their addresses, `LabelRefs`, and the ParseErrors. -/
structure AsmResult where
  words : List (Nat × Word)
  refs : List (PcWord × PcWord)
  errors : List ParseError
  deriving DecidableEq, Repr

/-- The assembly of a source with the write pointer at `base` (R128 to R136). -/
def assemble (base : Nat) (source : List String) : AsmResult :=
  let lines := source.map parseLine
  let p := lines.foldl (passLine (lines.filterMap AsmLine.label))
    { line := 0, ptr := base, labels := [], items := [], errors := [] }
  let items := p.items.reverse
  { words := items.map (fun it => (it.addr, encodeFields (formatOf it.op) (resolveFields p.labels it.fields)))
    refs := items.filterMap (refOf p.labels)
    errors := p.errors.reverse }

end Sys2Proof.Machine
end

