-- ==== Sys2Proof/Machine/HostActions.lean ====
section
/-! DEFINITION. The host (60_exceptions.md R316 to R318, 70_reset_and_hazards.md R341): each interaction is one action
between steps of the engine. A refused one marks the state and does nothing else (93 U25 to U30; log entry 11). -/

namespace Sys2Proof.Machine

/-- When the host may load: between instructions, when halted, or when waiting at IN (60_exceptions.md R316). -/
def State.loadAllowed (s : State) : Bool :=
  (decide (s.k = 0) && decide (s.phase = .run)) || s.halted || s.waitForInterrupt

/-- The load base: 24 if the boot region is empty, else 100 (70_reset_and_hazards.md R342). -/
def loadBase (m : Memory) : Nat := if m.read Config.bootBase = 0 then Config.bootBase else Config.progBase

/-- The words of a prefetched text: one code per word from 1000, ended by EOT (70_reset_and_hazards.md R341). -/
def prefetchWords : Option (List Nat) → List (Nat × Word)
  | none => []
  | some codes =>
    (codes ++ [Config.eot]).zipIdx.map (fun c => (Config.prefetchBase + c.2, BitVec.ofNat 18 c.1))

/-- The codes of a prefetched text are character codes. -/
def prefetchInRange : Option (List Nat) → Bool
  | none => true
  | some codes => codes.all (fun c => decide (c < 65536))

/-- Words stored directly into main memory, not through the cache (70_reset_and_hazards.md R341 step 5). -/
def storeWords (ws : List (Nat × Word)) (m : Memory) : Memory := ws.foldl (fun m w => m.write w.1 w.2) m

/-- Step 3 of the load protocol: the registers, flags and control fields at their values of 10_state.md R42. -/
def State.loadReset (s : State) : State :=
  { s with
    r0 := 0, r1 := 0, r2 := 0, r3 := 0, x1 := 0, x2 := 0, x3 := 0, cc := 0, msr := 0, mfr := 0
    ir := 0, mar := 0, mdr := 0, ea := 0, op1 := 0, op2 := 0, op3 := 0, op4 := 0, result := 0, result2 := 0
    dec := DecodeFields.zero, k := 0, phase := .run, jumpTaken := false, waitForInterrupt := false
    halted := false, cycleCount := 0, inbuf := [], ptr := 0, terminated := false }

/-- Steps 1, 4 and 5: the drained memory with the cache invalidated and the words stored. -/
def MemSys.loaded (m : MemSys) (ws : List (Nat × Word)) : MemSys :=
  { m.drain with l1 := [], mem := storeWords ws m.drain.mem }

/-- Steps 3 to 7 of the load protocol for a base and an assembly (70_reset_and_hazards.md R341). -/
def State.loadedWith (s : State) (base : Nat) (a : AsmResult) (data : List (Nat × Word)) : State :=
  { s.loadReset with
    ms := s.ms.loaded (a.words ++ data), labelRefs := a.refs, pc := BitVec.ofNat 12 base
    programKind := if base = Config.bootBase then .boot else .user
    refused := false, refusal := none, parseErrors := a.errors }

/-- `load_rom(source)` (70_reset_and_hazards.md R341, R342; log entry 17). -/
def hostLoadRom (source : List String) (prefetch : Option (List Nat)) (s : State) : Out :=
  let base := loadBase s.ms.drain.mem
  let a := assemble base source
  let data := prefetchWords prefetch
  if !s.loadAllowed then .next (s.refuse .loadMidInstruction)
  else if !prefetchInRange prefetch then .next (s.refuse .charCodeTooLarge)
  else if (a.words ++ data).any (fun w => decide (Config.memWords ≤ w.1)) then .next (s.refuse .loadPastMemory)
  else .next (s.loadedWith base a data)

/-- `execute(mode)`: the engine may take micro-steps from here on, until the stop condition of the mode
(60_exceptions.md R316, R317; log entry 5). -/
def hostExecute (mode : ExecMode) (s : State) : Out :=
  if s.refused || s.terminated then .next (s.refuse .executeNotAllowed)
  else .next (State.resume { s with execMode := mode })

/-- `interrupt(kind)`: IO restarts a waiting IN and has no effect otherwise, any other kind is refused
(60_exceptions.md R308, R309). The restarted IN is retried in the current mode (95_test_vectors.md; log entry 5). -/
def hostInterrupt (kind : InterruptKind) (s : State) : Out :=
  match kind with
  | .io => .next (if s.waitForInterrupt then State.resume { s with waitForInterrupt := false } else s)
  | .other _ => .next (s.refuse .interruptKind)

/-- `feed_input(str)`: the codes are appended and the pointer stays (60_exceptions.md R316; log entry 27). -/
def hostFeedInput (str : List Nat) (s : State) : Out :=
  if str.all (fun c => decide (c < 65536)) then .next { s with inbuf := s.inbuf ++ str.map (BitVec.ofNat 16) }
  else .next (s.refuse .charCodeTooLarge)

/-- R0..R3 and X1..X3 cleared (60_exceptions.md R318). -/
def State.clearGeneral (s : State) : State :=
  { s with r0 := 0, r1 := 0, r2 := 0, r3 := 0, x1 := 0, x2 := 0, x3 := 0 }

/-- The HLT reaction: after a user program the engine resumes at 24 in the current mode, after the boot program it
stays idle until a load (60_exceptions.md R318). -/
def hostHltReaction (s : State) : Out :=
  if s.halted then
    match s.programKind with
    | .user => .next (State.resume { s.clearGeneral with
        pc := BitVec.ofNat 12 Config.bootBase, jumpTaken := false, k := 0, halted := false, programKind := .boot })
    | .boot => .next s.clearGeneral
  else .next (s.refuse .notHalted)

/-- `shutdown()`: no step of the engine comes after it (20_memory.md R77, decision D49). DESIGN CHOICE: the `execute` is over
with it, where 60_exceptions.md R316 says only that `terminated` is set (log entry 18). -/
def hostShutdown (s : State) : Out := .next { s with terminated := true, executing := false }

/-- One action of the host (60_exceptions.md R316). -/
def hostAct (a : HostAct) (s : State) : Out :=
  match a with
  | .loadRom source prefetch => hostLoadRom source prefetch s
  | .execute mode => hostExecute mode s
  | .executeDirect => .next (s.refuse .executeDirect)
  | .interrupt kind => hostInterrupt kind s
  | .feedInput str => hostFeedInput str s
  | .hltReaction => hostHltReaction s
  | .shutdown => hostShutdown s

/-- The host's direct read of main memory (20_memory.md R79). It changes nothing. -/
def hostReadMem (s : State) (a : Nat) : Word := s.ms.hostView a

/-- The host's read of a register (60_exceptions.md R316, `update_register`). It changes nothing. -/
def hostReadReg (s : State) (n : RegName) : BitVec n.width := s.reg n

end Sys2Proof.Machine
end

