-- ==== Sys2Proof/Machine/Step.lean ====
section
/-! DEFINITION. The step of the machine: one action of the host, one step of the memory controller alone, or one turn of
the engine with the controller's moves around its micro-steps. -/

namespace Sys2Proof.Machine

/-- One step, of the agent whose turn it is (20_memory.md R75; log entry 8); the engine's where `turns` has ended. -/
def step (s : State) : Host.Outcome State Fault Refusal :=
  match s.turns with
  | .act a :: rest => hostAct a { s with turns := rest }
  | .controller :: rest => controllerStep { s with turns := rest }
  | .micro :: rest => engineTurn engineMicro { s with turns := rest }
  | .engine :: rest => engineStep { s with turns := rest }
  | [] => engineStep s

/-- `s` with an instruction word where `step` fetches its next instruction (log entry 21): the word at PC as a load
would store it, the engine between instructions and inside an `execute` of a mode that runs whole instructions, and
no other turn before it. -/
def State.withFetchWord (s : State) (nbits w : Nat) : State :=
  { s with
    pc := fetchablePc s.pc
    ms := s.ms.withWord (fetchablePc s.pc).toNat (BitVec.ofNat 18 (w % 2 ^ nbits))
    k := 0, phase := .run, halted := false, waitForInterrupt := false, refused := false, terminated := false
    executing := true, refusal := none
    execMode := if s.execMode = .micro then .macroStep else s.execMode
    turns := [] }

end Sys2Proof.Machine
end

