-- ==== Sys2Proof/Safety.lean ====
section
/-! DEFINITION. What claims are stated in: the invariant of the memory side and of the state, the end of a run, and when
two states are the same to a program. -/

namespace Sys2Proof.Machine

/-- The invariant of the memory side (10_state.md R38, R39, R43; 20_memory.md R64, R67, R76, R78). -/
structure MemSys.Inv (m : MemSys) : Prop where
  /-- Main memory is in its canonical form. -/
  memWf : m.mem.wf = true
  /-- WB holds at most 4 elements (10_state.md R39). -/
  wbCap : m.wb.length ≤ Config.wbCap
  /-- The cache has 16 slots (10_state.md R38). -/
  lineCap : m.l1.length ≤ Config.cacheLines
  /-- No two lines hold the same block (20_memory.md R64). -/
  tagsDistinct : (m.l1.map Line.tag).Nodup
  /-- A tag is a multiple of 8 in 0..2040 and a line has 8 words (10_state.md R38). -/
  lineForm : ∀ L ∈ m.l1, L.tag % Config.lineWords = 0 ∧ L.tag < Config.memWords ∧ L.words.length = Config.lineWords
  /-- A pending element is in range, carries its block's tag, and its line is in the cache (20_memory.md R71). -/
  elemForm : ∀ e ∈ m.pending, e.address < Config.memWords ∧ e.lineTag = blockBase e.address ∧
    ∃ L ∈ m.l1, L.tag = e.lineTag
  /-- `writes` counts the pending elements of the line (20_memory.md R76). -/
  writesCount : ∀ L ∈ m.l1, L.writes = m.pending.countP (fun e => decide (e.lineTag = L.tag))
  /-- A cached word is the last word the program wrote there, or what main memory holds (20_memory.md R78). -/
  coherent : ∀ L ∈ m.l1, ∀ j < Config.lineWords, L.words.getD j 0 = m.view (L.tag + j)

/-- The invariant of the state that every micro-step of the engine keeps (10_state.md R29, R30, R34, R35, R43; 40_alu.md
R163). -/
structure State.CoreInv (s : State) : Prop where
  ms : s.ms.Inv
  /-- At most one CC flag is set (40_alu.md R163). -/
  ccOne : ccAtMostOne s.cc = true
  /-- Nothing writes MSR or MFR (10_state.md R29, R30). -/
  msrZero : s.msr = 0
  mfrZero : s.mfr = 0
  /-- jump_taken is set and consumed within one micro-step (41_execution_cycle.md R190, R191). -/
  noJump : s.jumpTaken = false
  /-- ptr points at a character, or the buffer is empty and ptr is 0 (45_io_trap_halt.md R280). -/
  ptrInside : s.ptr < s.inbuf.length ∨ (s.inbuf = [] ∧ s.ptr = 0)
  /-- The engine waits only at the IN step (41_execution_cycle.md R195). -/
  waitsAtIn : s.waitForInterrupt = true → s.phase = .run ∧ s.k = 4
  /-- The engine is halted only between instructions (45_io_trap_halt.md R283). -/
  haltsBetween : s.halted = true → s.phase = .run ∧ s.k = 0
  /-- Past decode, the field registers hold an instruction whose tail has the step k (10_state.md R33;
  41_execution_cycle.md R187). -/
  inTail : s.phase = .run → 4 ≤ s.k →
    ∃ i : Instr, i.wellFormed = true ∧ s.dec = fieldsOf i ∧ s.k - 4 < (tailOf i).length
  /-- From decode to the end of an instruction with ADDR 8 and a label reference, mem[8] as the engine reads it holds
  the label's address (10_state.md R43, 41_execution_cycle.md R186). -/
  trampoline : s.phase = .run → 4 ≤ s.k → s.dec.addr.toNat = Config.trampAddr → ∀ t, lookupRef s.labelRefs s.pc = some t →
    s.ms.view Config.trampAddr = pcToWord t

/-- The invariant of the state: that of the engine, and what an `execute` means. -/
structure State.Inv (s : State) : Prop extends State.CoreInv s where
  /-- Inside an `execute` nothing stops the engine (60_exceptions.md R317). -/
  executes : s.executing = true → s.canRun = true

/-- The end of a run of a loaded program (60_exceptions.md R320). -/
def State.endOfRun (s : State) : Prop :=
  s.halted = true ∧ s.refused = false ∧ s.ms.wb = [] ∧ s.ms.inflight = none

/-- The memory side shows the program exactly the words of `f`, and is sound. -/
def MemSys.Shows (m : MemSys) (f : Nat → Word) : Prop := m.Inv ∧ ∀ a, m.view a = f a

/-! ### What the steps of an instruction see and leave -/

/-- The program's view once the instruction at PC, with this ADDR field, is decoded: mem[8] holds the label's
address if the field is 8 and the instruction has a label reference (41_execution_cycle.md R186). -/
def State.seen (s : State) (addr : BitVec 5) (a : Nat) : Word :=
  if a = Config.trampAddr ∧ addr.toNat = Config.trampAddr then
    match lookupRef s.labelRefs s.pc with
    | some t => pcToWord t
    | none => s.ms.view a
  else s.ms.view a

/-- The effective address: the base, or the word that the base points at (41_execution_cycle.md R188, R189). -/
def State.effAddr (s : State) (lx : Bool) (ix : BitVec 2) (i : Bool) (addr : BitVec 5) : Word :=
  if i then s.seen addr (s.eaBase lx ix addr).toNat else s.eaBase lx ix addr

/-- The indirect read, if there is one, is in range (41_execution_cycle.md R188). -/
def State.eaReadable (s : State) (lx : Bool) (ix : BitVec 2) (i : Bool) (addr : BitVec 5) : Prop :=
  i = true → (s.eaBase lx ix addr).toNat < Config.memWords

/-- EA, and with indirection MAR and MDR, as the effective-address steps leave them (41_execution_cycle.md R188). -/
def State.withEa (s : State) (lx : Bool) (ix : BitVec 2) (i : Bool) (addr : BitVec 5) : State :=
  if i then { s with ea := s.effAddr lx ix i addr, mar := s.eaBase lx ix addr, mdr := s.effAddr lx ix i addr }
  else { s with ea := s.effAddr lx ix i addr }

/-- How many micro-steps the effective address takes (41_execution_cycle.md R188). -/
def eaSteps (i : Bool) : Nat := if i then 4 else 1

/-- A state with the marks of a completed instruction: its decode fields, k and jump_taken cleared, PC, the
micro-steps from decode on counted, and a memory side (41_execution_cycle.md R185, R190). -/
def State.done (t : State) (ins : Instr) (pc : PcWord) (steps : Nat) (m : MemSys) : State :=
  { t with dec := fieldsOf ins, k := 0, jumpTaken := false, pc := pc, cycleCount := t.cycleCount + steps, ms := m }

/-- What the program sees after fault entry: PC in mem[4] and mem[5] (60_exceptions.md R301). -/
def savedAt (pc : PcWord) (f : Nat → Word) (a : Nat) : Word :=
  if a = Config.faultSaveMsr then pcToWord pc else if a = Config.faultSavePc then pcToWord pc else f a

/-- A state after a micro-step raised a machine fault and fault entry was taken: one cycle for the faulting step and
three for the entry, PC from the vector word, and the ghost record (60_exceptions.md R301, R302). -/
def State.faultTaken (t : State) (kind : FaultKind) (vector : Word) (m : MemSys) : State :=
  { t with
    pc := wordToPc vector, jumpTaken := false, k := 0, phase := .run, execMode := .continue
    cycleCount := t.cycleCount + 4
    faultLog := t.faultLog ++ [{ kind := kind, pc := t.pc, mar := t.mar }]
    ms := m }

/-- Two states that no program can tell apart: everything but the memory side is equal, and the memory sides show the
same words. Cache contents, write buffer, in-flight slot and controller turns may differ (10_state.md R40). -/
def State.SameToProgram (s t : State) : Prop :=
  t = { s with ms := t.ms } ∧ ∀ a, s.ms.view a = t.ms.view a

/-! ### Which states run, and the steps of an instruction one by one -/

/-- The engine may take a micro-step: it is inside an `execute`, and neither refused, shut down, halted nor waiting
(60_exceptions.md R316; 41_execution_cycle.md R194, R195; 20_memory.md R77). -/
structure State.Active (s : State) : Prop where
  executing : s.executing = true
  notRefused : s.refused = false
  notTerminated : s.terminated = false
  notHalted : s.halted = false
  notWaiting : s.waitForInterrupt = false

/-- The engine has the next step, and goes on as its mode says: the turn says so, or no turn is listed. -/
structure State.Running (s : State) : Prop where
  active : s.Active
  turn : s.turns = [] ∨ s.turns.head? = some .engine

/-- The engine has the next step, and it is one micro-step: its mode is micro, or the turn says so in any mode. -/
structure State.MicroNext (s : State) : Prop where
  active : s.Active
  turn : (s.turns = [] ∧ s.execMode = .micro) ∨ s.turns.head? = some .micro

/-- The next micro-step is the first of an instruction (41_execution_cycle.md R180). -/
def State.betweenInstrs (s : State) : Bool := decide (s.phase = .run) && decide (s.k = 0)

/-- Engine micro-steps, at most n, until an instruction has completed, its machine fault has been entered, the engine
waits at IN, or the model refuses (60_exceptions.md R317, `macro`). -/
def microSteps : Nat → State → Out
  | 0, s => .next s
  | n + 1, s =>
    match engineMicro s with
    | .next t => if t.betweenInstrs || t.waitForInterrupt || t.refused then .next t else microSteps n t
    | .fault f => .fault f
    | .refused r => .refused r

/-- The operands of the effective address, for the instructions that compute one: whether the opcode is LDX or STX,
IX, I and ADDR (41_execution_cycle.md R188, R189). RFS and HLT have the fields and compute none. -/
def eaOperands : Instr → Option (Bool × BitVec 2 × Bool × BitVec 5)
  | .ldr _ ix i addr => some (false, ix, i, addr)
  | .str _ ix i addr => some (false, ix, i, addr)
  | .lda _ ix i addr => some (false, ix, i, addr)
  | .ldx ix i addr => some (true, ix, i, addr)
  | .stx ix i addr => some (true, ix, i, addr)
  | .jz _ ix i addr => some (false, ix, i, addr)
  | .jne _ ix i addr => some (false, ix, i, addr)
  | .jcc _ ix i addr => some (false, ix, i, addr)
  | .jmp _ ix i addr => some (false, ix, i, addr)
  | .jsr _ ix i addr => some (false, ix, i, addr)
  | .sob _ ix i addr => some (false, ix, i, addr)
  | .jge _ ix i addr => some (false, ix, i, addr)
  | .amr _ ix i addr => some (false, ix, i, addr)
  | .smr _ ix i addr => some (false, ix, i, addr)
  | .rfs _ _ _ _ => none
  | .air _ _ => none
  | .sir _ _ => none
  | .mlt _ _ => none
  | .dvd _ _ => none
  | .trr _ _ => none
  | .and _ _ => none
  | .orr _ _ => none
  | .not _ => none
  | .src _ _ _ _ => none
  | .rrc _ _ _ _ => none
  | .inp _ _ => none
  | .out _ _ => none
  | .trap _ => none
  | .hlt _ _ _ _ => none

/-- How many low bits of a word a format leaves unused (30_encoding.md R113 to R121). -/
def unusedBits : Format → Nat
  | .ls => 2
  | .lx => 4
  | .imm => 5
  | .trap => 8
  | .xy => 8
  | .monoX => 10
  | .shift => 4
  | .io => 5

/-- What the program sees once TRAP has saved PC: mem[2] (45_io_trap_halt.md R282). -/
def State.trapSaved (s : State) (a : Nat) : Word := if a = Config.trapSavePc then pcToWord s.pc else s.ms.view a

/-- The address of TRAP's table entry: the table base, as the program sees it, plus the code
(45_io_trap_halt.md R282). -/
def State.trapEntryAddr (s : State) (code : BitVec 4) : Word :=
  s.trapSaved Config.trapTablePtr + code.setWidth 18

end Sys2Proof.Machine
end

