-- ==== Sys2Proof/Certificates/Slice0/Obligations.lean ====
section
/-! DEFINITION. The statements for the provers. Each instruction's statement gives the whole next state of its meaning from
decode on: the fields that change are written out and every other field is that of `s`, so it is the result, the
completion and the frame in one. Memory is what the program sees (`MemSys.view`, 20_memory.md R78), word by word,
by `MemSys.Shows`. The number of micro-steps is the spec's own decision D11 of 92_eei_decisions.md, and the write of
mem[8] at decode (`State.seen`) its decision D14. -/

open Sys2Proof
open Sys2Proof.Machine

/-! ### Encoding -/

/-- Words written out from the encodings of 30_encoding.md R113 to R120 with the opcodes of R124 (PRESUMED, log
entry 12) decode to the instructions they stand for. -/
def Obligations.SampleWordsDecode : Prop :=
  decode 0b000001_01_00_0_10100_00#18 = .ok (.ldr 1 0 false 20) ∧
  decode 0b001001_01_10_0_00011_00#18 = .ok (.jne 1 2 false 3) ∧
  decode 0b001011_00_00_1_01000_00#18 = .ok (.jmp 0 0 true 8) ∧
  decode 0b100010_10_1_00101_0000#18 = .ok (.stx 2 true 5) ∧
  decode 0b000111_11_11111_00000#18 = .ok (.sir 3 31) ∧
  decode 0b011000_0001_00000000#18 = .ok (.trap 1) ∧
  decode 0b010000_00_10_00000000#18 = .ok (.mlt 0 2) ∧
  decode 0b010101_01_0000000000#18 = .ok (.not 1) ∧
  decode 0b011010_10_0_1_0001_0000#18 = .ok (.rrc 2 false true 1) ∧
  decode 0b110010_01_00001_00000#18 = .ok (.out 1 1) ∧
  decode 0#18 = .ok (.hlt 0 0 false 0)

/-- Decoding the word of a well-formed instruction gives it back, with every operand at every value. -/
def Obligations.DecodeOfEncode : Prop :=
  ∀ i : Instr, i.wellFormed = true → decode (encode i) = .ok i

/-- The opcode is the top 6 bits of the word, and it alone chooses the format whose fields decode extracts
(30_encoding.md R111). -/
def Obligations.OpcodeIsTopSixBits : Prop :=
  ∀ (w : Word) (i : Instr), decode w = .ok i →
    opcodeOf i.op = w.extractLsb' 12 6 ∧ fieldsOf i = extractFields (formatOf i.op) w

/-- Decode ignores the unused low bits of every format (30_encoding.md R121). -/
def Obligations.UnusedBitsIgnored : Prop :=
  ∀ (w w' : Word) (o : Op), opOfOpcode (opcodeField w) = some o →
    w >>> unusedBits (formatOf o) = w' >>> unusedBits (formatOf o) → decode w = decode w'

/-- Which words decode refuses, and under which name (30_encoding.md R127, decisions D6 to D8). -/
def Obligations.ReservedWordsRefused : Prop :=
  ∀ w : Word,
    (decode w = .error .illegalOpcode ↔ ∀ o : Op, opcodeOf o ≠ w.extractLsb' 12 6) ∧
    (decode w = .error .mulDivOddRx ↔
      (w.extractLsb' 12 6 = opcodeOf .mlt ∨ w.extractLsb' 12 6 = opcodeOf .dvd) ∧ w.getLsbD 10 = true) ∧
    (decode w = .error .indexZeroLX ↔
      (w.extractLsb' 12 6 = opcodeOf .ldx ∨ w.extractLsb' 12 6 = opcodeOf .stx) ∧ w.extractLsb' 10 2 = 0)

/-! ### Reset -/

/-- What engine construction leaves: every register but PC 0, no flag, memory 0, nothing cached or pending
(10_state.md R42). PC = 24 and the empty LabelRefs are the model's DESIGN CHOICE, and that no `execute` is under way
is DEDUCED (log entries 1 and 5). -/
def Obligations.ResetValues : Prop :=
  (∀ n : RegName, n ≠ .pc → State.reset.reg n = 0) ∧ State.reset.pc = 24 ∧
  State.reset.k = 0 ∧ State.reset.phase = .run ∧ State.reset.jumpTaken = false ∧
  State.reset.waitForInterrupt = false ∧ State.reset.halted = false ∧ State.reset.cycleCount = 0 ∧
  State.reset.inbuf = [] ∧ State.reset.ptr = 0 ∧ State.reset.terminal = [] ∧
  (∀ a, State.reset.ms.view a = 0) ∧ (∀ j, State.reset.ms.slot j = none) ∧ State.reset.ms.nextSlot = 0 ∧
  State.reset.ms.wb = [] ∧ State.reset.ms.inflight = none ∧ State.reset.terminated = false ∧
  State.reset.labelRefs = [] ∧ State.reset.execMode = .micro ∧ State.reset.refused = false ∧
  State.reset.executing = false

/-- The state after construction meets the invariant. -/
def Obligations.ResetMeetsInv : Prop := State.reset.Inv

/-! ### ALU (40_alu.md) -/

/-- TRR compares all 18 bits, sets EQUALORNOT iff the words are equal, clears the other flags and writes no result; AND,
ORR and NOT bit by bit, and nothing else written (40_alu.md R156 to R159). -/
def Obligations.AluCompareAndBitwise : Prop :=
  ∀ s : State,
    aluTrr s = { s with cc := if s.op1 = s.op2 then 0b0001#4 else 0b0000#4 } ∧
    (aluAnd s = { s with result := (aluAnd s).result } ∧
      ∀ j < 18, (aluAnd s).result.getLsbD j = (s.op1.getLsbD j && s.op2.getLsbD j)) ∧
    (aluOrr s = { s with result := (aluOrr s).result } ∧
      ∀ j < 18, (aluOrr s).result.getLsbD j = (s.op1.getLsbD j || s.op2.getLsbD j)) ∧
    (aluNot s = { s with result := (aluNot s).result } ∧ (aluNot s).result.toNat = 2 ^ 18 - 1 - s.op1.toNat ∧
      ∀ j < 18, (aluNot s).result.getLsbD j = !s.op1.getLsbD j)

/-- ADD and SUB as arithmetic modulo 2^18, on the `OP2 = 0` path too; OVERFLOW is the unsigned carry, UNDERFLOW the
unsigned borrow; GTE, which no instruction reaches, compares signed and writes no flag (40_alu.md R152, R153, R162;
decisions D20 to D22). -/
def Obligations.AluAddSubGte : Prop :=
  ∀ s : State,
    aluAdd s = { s with result := s.op1 + s.op2
                        cc := if 2 ^ 18 ≤ s.op1.toNat + s.op2.toNat then 0b1000#4 else 0b0000#4 } ∧
    aluSub s = { s with result := s.op1 - s.op2
                        cc := if s.op1.toNat < s.op2.toNat then 0b0100#4 else 0b0000#4 } ∧
    aluGte s = { s with result := if s.op2.sle s.op1 then 1 else 0 }

/-- MLT is the whole 36-bit unsigned product and never overflows; DVD is unsigned division with remainder, and a zero
divisor changes CC alone (40_alu.md R154, R155; decision D19). -/
def Obligations.AluMulDiv : Prop :=
  ∀ s : State,
    ((aluMlt s).result.toNat * 2 ^ 18 + (aluMlt s).result2.toNat = s.op1.toNat * s.op2.toNat ∧
      aluMlt s = { s with result := (aluMlt s).result, result2 := (aluMlt s).result2, cc := 0b0000#4 }) ∧
    (s.op2 ≠ 0 →
      s.op1.toNat = (aluDvd s).result.toNat * s.op2.toNat + (aluDvd s).result2.toNat ∧
      (aluDvd s).result2.toNat < s.op2.toNat ∧
      aluDvd s = { s with result := (aluDvd s).result, result2 := (aluDvd s).result2, cc := 0b0000#4 }) ∧
    (s.op2 = 0 → aluDvd s = { s with cc := 0b0010#4 })

/-- SRC shifts and RRC rotates by the count in OP2, for every count an instruction can give (0 to 15), and no flag is
written (40_alu.md R160, R161). -/
def Obligations.AluShiftRotate : Prop :=
  ∀ s : State, s.op2.toNat < 16 →
    aluSrc s = { s with result :=
      if s.op3 = 1 then s.op1 <<< s.op2.toNat
      else if s.op4 = 1 then s.op1 >>> s.op2.toNat
      else s.op1.sshiftRight s.op2.toNat } ∧
    aluRrc s = { s with result :=
      if s.op3 = 1 then s.op1.rotateLeft s.op2.toNat else s.op1.rotateRight s.op2.toNat }

/-! ### Memory, cache, write buffer, controller (20_memory.md) -/

/-- Main memory: a write changes one word (20_memory.md R62), keeps the canonical form, and equal memories are equal
data. The canonical form is the model's own representation, a DESIGN CHOICE (log entry 3). -/
def Obligations.MemoryCanonical : Prop :=
  (∀ (m : Memory) (a : Nat) (w : Word), m.wf = true → a < Config.memWords →
    (m.write a w).wf = true ∧ ∀ b, (m.write a w).read b = if b = a then w else m.read b) ∧
  ∀ m n : Memory, m.wf = true → n.wf = true → (∀ a, m.read a = n.read a) → m = n

/-- `Cache.read` and `Cache.write` (20_memory.md R65, R66). A read returns the word on a hit and none on a miss, and no
new memory side: no state changes. A write on a hit changes the word and the count of the line and appends one
element; on a miss nothing changes. -/
def Obligations.CacheReadWrite : Prop :=
  (∀ (m : MemSys) (a : Nat),
    (∀ L, lookup m.l1 a = some L → m.cacheRead a = some (L.words.getD (a - L.tag) 0)) ∧
    (lookup m.l1 a = none → m.cacheRead a = none)) ∧
  ∀ (m : MemSys) (a : Nat) (w : Word), m.Inv →
    (∀ L, lookup m.l1 a = some L → ∃ m', m.cacheWrite w a = some m' ∧
      m'.wb = m.wb ++ [{ address := a, word := w, lineTag := L.tag }] ∧
      lookup m'.l1 a = some { L with words := L.words.set (a - L.tag) w, writes := L.writes + 1 } ∧
      (∀ K ∈ m.l1, K.tag ≠ L.tag → K ∈ m'.l1) ∧ m'.l1.length = m.l1.length ∧
      m'.mem = m.mem ∧ m'.inflight = m.inflight) ∧
    (lookup m.l1 a = none → m.cacheWrite w a = none)

/-- `Cache.add` fills the next slot, and once the cache is full replaces a clean line: a dirty line is never lost
(20_memory.md R67; the slot is a free value, log entry 7). -/
def Obligations.EvictionKeepsDirty : Prop :=
  ∀ (m m' : MemSys) (L : Line), m.cacheAdd L = some m' →
    L ∈ m'.l1 ∧ (∀ K ∈ m.l1, 0 < K.writes → K ∈ m'.l1) ∧ m'.wb = m.wb ∧ m'.mem = m.mem ∧
    m'.inflight = m.inflight ∧
    m'.l1.length = if m.l1.length < Config.cacheLines then m.l1.length + 1 else m.l1.length

/-- TAKE (20_memory.md R72): when it is enabled, what it does, and that a slot of the buffer is free at once. -/
def Obligations.TakeStep : Prop :=
  ∀ m : MemSys,
    (m.take.isSome = true ↔ m.inflight = none ∧ m.wb ≠ []) ∧
    ∀ m', m.take = some m' →
      m' = { m with inflight := m.wb.head?, wb := m.wb.tail } ∧
      (m.wb.length ≤ Config.wbCap → m'.wb.length < Config.wbCap)

/-- RETIRE writes the element in flight to main memory, takes one from the count of its line alone, and frees the slot
(20_memory.md R71, R73). -/
def Obligations.RetireStep : Prop :=
  ∀ m : MemSys, m.Inv →
    (m.retire.isSome = true ↔ m.inflight ≠ none) ∧
    ∀ e m', m.inflight = some e → m.retire = some m' →
      m'.mem = m.mem.write e.address e.word ∧ m'.inflight = none ∧ m'.wb = m.wb ∧
      m'.l1 = m.l1.map (fun L => if L.tag = blockBase e.address then { L with writes := L.writes - 1 } else L)

/-- After a full drain nothing is pending, no line is dirty, main memory holds what the program sees, and the cache
equals main memory at every cached address (20_memory.md R76, R79). -/
def Obligations.DrainSynchronises : Prop :=
  ∀ m : MemSys, m.Inv →
    m.drain.wb = [] ∧ m.drain.inflight = none ∧ (∀ L ∈ m.drain.l1, L.writes = 0) ∧
    (∀ a, m.drain.hostView a = m.view a) ∧
    ∀ a v, m.drain.cacheRead a = some v → v = m.drain.hostView a

/-- The engine's accesses: a read in range answers the word the program sees, a write in range with room in the buffer
changes that word alone, an access out of range raises whatever the buffer holds, a write in range with a full
buffer holds, and no access ever finds the cache without a clean line (20_memory.md R61, R69, R70, R76, R78). -/
def Obligations.EngineAccesses : Prop :=
  ∀ (m : MemSys) (a w : Word), m.Inv →
    (a.toNat < Config.memWords →
      (∃ m', m.memRead a = .got (m.view a.toNat) m' ∧ m'.Shows m.view) ∧
      (m.wb.length < Config.wbCap →
        ∃ m', m.memWrite a w = .done m' ∧ m'.Shows (fun x => if x = a.toNat then w else m.view x)) ∧
      (m.wb.length = Config.wbCap → m.memWrite a w = .hold .bufferFull)) ∧
    (Config.memWords ≤ a.toNat → m.memRead a = .raise ∧ m.memWrite a w = .raise)

/-! ### Load and store (42_load_store.md) -/

/-- LDR (R210). -/
def Obligations.LdrLoads : Prop :=
  ∀ (r ix : BitVec 2) (i : Bool) (addr : BitVec 5) (s : State) (ea w : Word), s.ms.Inv → s.jumpTaken = false →
    s.eaReadable false ix i addr → ea = s.effAddr false ix i addr → ea.toNat < Config.memWords →
    w = s.seen addr ea.toNat →
    ∃ m, m.Shows (s.seen addr) ∧ exec (.ldr r ix i addr) s =
      .next (({ s.withEa false ix i addr with mar := ea, mdr := w }.setR r w).done (.ldr r ix i addr) (pcNext s.pc)
        (eaSteps i + 4) m)

/-- LDX: the base is ADDR, not indexed (R213). -/
def Obligations.LdxLoads : Prop :=
  ∀ (ix : BitVec 2) (i : Bool) (addr : BitVec 5) (s : State) (ea w : Word), s.ms.Inv → s.jumpTaken = false →
    ix ≠ 0 → s.eaReadable true ix i addr → ea = s.effAddr true ix i addr → ea.toNat < Config.memWords →
    w = s.seen addr ea.toNat →
    ∃ m, m.Shows (s.seen addr) ∧ exec (.ldx ix i addr) s =
      .next (({ s.withEa true ix i addr with mar := ea, mdr := w }.setX ix w).done (.ldx ix i addr) (pcNext s.pc)
        (eaSteps i + 4) m)

/-- STR: one word of the program's memory changes, the one at the effective address (R211). -/
def Obligations.StrStores : Prop :=
  ∀ (r ix : BitVec 2) (i : Bool) (addr : BitVec 5) (s : State) (ea : Word), s.ms.Inv → s.jumpTaken = false →
    s.eaReadable false ix i addr → ea = s.effAddr false ix i addr → ea.toNat < Config.memWords →
    ∃ m, m.Shows (fun a => if a = ea.toNat then s.getR r else s.seen addr a) ∧ exec (.str r ix i addr) s =
      .next ({ s.withEa false ix i addr with mar := ea, mdr := s.getR r }.done (.str r ix i addr) (pcNext s.pc)
        (eaSteps i + 4) m)

/-- STX: the base is ADDR, not indexed (R214). -/
def Obligations.StxStores : Prop :=
  ∀ (ix : BitVec 2) (i : Bool) (addr : BitVec 5) (s : State) (ea x : Word), s.ms.Inv → s.jumpTaken = false →
    s.getX ix = some x → s.eaReadable true ix i addr → ea = s.effAddr true ix i addr →
    ea.toNat < Config.memWords →
    ∃ m, m.Shows (fun a => if a = ea.toNat then x else s.seen addr a) ∧ exec (.stx ix i addr) s =
      .next ({ s.withEa true ix i addr with mar := ea, mdr := x }.done (.stx ix i addr) (pcNext s.pc)
        (eaSteps i + 4) m)

/-- LDA: the effective address itself, never range-checked (R212). -/
def Obligations.LdaLoadsAddress : Prop :=
  ∀ (r ix : BitVec 2) (i : Bool) (addr : BitVec 5) (s : State), s.ms.Inv → s.jumpTaken = false →
    s.eaReadable false ix i addr →
    ∃ m, m.Shows (s.seen addr) ∧ exec (.lda r ix i addr) s =
      .next (((s.withEa false ix i addr).setR r (s.effAddr false ix i addr)).done (.lda r ix i addr) (pcNext s.pc)
        (eaSteps i + 2) m)

/-! ### Transfer of control (43_transfer.md) -/

/-- JZ and JNE: CC becomes the compare of R[r] with 0, OP1 and OP2 its operands, EA (with I also MAR and MDR) what its
steps leave, and the jump follows the compare; no general or index register changes, and no word but mem[8], which a
label reference writes (R230, R231; 41_execution_cycle.md R186). -/
def Obligations.JzJneJump : Prop :=
  ∀ (r ix : BitVec 2) (i : Bool) (addr : BitVec 5) (s : State), s.ms.Inv → s.jumpTaken = false →
    s.eaReadable false ix i addr →
    (∃ m, m.Shows (s.seen addr) ∧ exec (.jz r ix i addr) s =
      .next ({ s.withEa false ix i addr with
          op1 := s.getR r, op2 := 0, cc := if s.getR r = 0 then 0b0001#4 else 0b0000#4 }.done (.jz r ix i addr)
        (if s.getR r = 0 then wordToPc (s.effAddr false ix i addr) else pcNext s.pc) (eaSteps i + 5) m)) ∧
    (∃ m, m.Shows (s.seen addr) ∧ exec (.jne r ix i addr) s =
      .next ({ s.withEa false ix i addr with
          op1 := s.getR r, op2 := 0, cc := if s.getR r = 0 then 0b0001#4 else 0b0000#4 }.done (.jne r ix i addr)
        (if s.getR r = 0 then pcNext s.pc else wordToPc (s.effAddr false ix i addr)) (eaSteps i + 5) m))

/-- JCC tests the flag that its first field names: 0 OVERFLOW, 1 UNDERFLOW, 2 DIVZERO, 3 EQUALORNOT, which is bit 3 - cc of
CC as a number (R232; 10_state.md R28, decision D39). -/
def Obligations.JccJumps : Prop :=
  ∀ (cc ix : BitVec 2) (i : Bool) (addr : BitVec 5) (s : State), s.ms.Inv → s.jumpTaken = false →
    s.eaReadable false ix i addr →
    ∃ m, m.Shows (s.seen addr) ∧ exec (.jcc cc ix i addr) s =
      .next ((s.withEa false ix i addr).done (.jcc cc ix i addr)
        (if s.cc.getLsbD (3 - cc.toNat) then wordToPc (s.effAddr false ix i addr) else pcNext s.pc)
        (eaSteps i + 2) m)

/-- JMP and JSR: the target is the low 12 bits of the effective address; JSR leaves the address after its own in R3.
No word changes but mem[8], which a label reference writes (R233, R234; 41_execution_cycle.md R186; decision D10). -/
def Obligations.JmpJsrJump : Prop :=
  ∀ (r ix : BitVec 2) (i : Bool) (addr : BitVec 5) (s : State), s.ms.Inv → s.eaReadable false ix i addr →
    (∃ m, m.Shows (s.seen addr) ∧ exec (.jmp r ix i addr) s =
      .next ((s.withEa false ix i addr).done (.jmp r ix i addr) (wordToPc (s.effAddr false ix i addr))
        (eaSteps i + 2) m)) ∧
    (∃ m, m.Shows (s.seen addr) ∧ exec (.jsr r ix i addr) s =
      .next ({ s.withEa false ix i addr with r3 := (s.pc + 1).setWidth 18 }.done (.jsr r ix i addr)
        (wordToPc (s.effAddr false ix i addr)) (eaSteps i + 3) m))

/-- RFS: R0 takes the immediate and PC the low 12 bits of R3; IX and I do nothing (R235; decision D38). -/
def Obligations.RfsReturns : Prop :=
  ∀ (r ix : BitVec 2) (i : Bool) (addr : BitVec 5) (s : State), s.ms.Inv →
    ∃ m, m.Shows (s.seen addr) ∧ exec (.rfs r ix i addr) s =
      .next ({ s with r0 := addr.setWidth 18 }.done (.rfs r ix i addr) (wordToPc s.r3) 3 m)

/-- SOB decrements modulo 2^18, writes no flag, and jumps iff the new value is not negative; JGE jumps iff R[r] is not
negative (R236, R237; decisions D31, D32). -/
def Obligations.SobJgeJump : Prop :=
  ∀ (r ix : BitVec 2) (i : Bool) (addr : BitVec 5) (s : State), s.ms.Inv → s.jumpTaken = false →
    s.eaReadable false ix i addr →
    (∃ m, m.Shows (s.seen addr) ∧ exec (.sob r ix i addr) s =
      .next (((s.withEa false ix i addr).setR r (s.getR r - 1)).done (.sob r ix i addr)
        (if (s.getR r - 1).msb then pcNext s.pc else wordToPc (s.effAddr false ix i addr)) (eaSteps i + 3) m)) ∧
    (∃ m, m.Shows (s.seen addr) ∧ exec (.jge r ix i addr) s =
      .next ((s.withEa false ix i addr).done (.jge r ix i addr)
        (if (s.getR r).msb then pcNext s.pc else wordToPc (s.effAddr false ix i addr)) (eaSteps i + 2) m))

/-! ### Arithmetic and logic (44_arith_logic.md) -/

/-- AMR and SMR: R[r] plus or minus the word at the effective address, and the flag of ADD or SUB; no word
changes but mem[8], which a label reference writes (R250, R251; 41_execution_cycle.md R186). -/
def Obligations.AmrSmrCompute : Prop :=
  ∀ (r ix : BitVec 2) (i : Bool) (addr : BitVec 5) (s : State) (ea w : Word), s.ms.Inv → s.jumpTaken = false →
    s.eaReadable false ix i addr → ea = s.effAddr false ix i addr → ea.toNat < Config.memWords →
    w = s.seen addr ea.toNat →
    (∃ m, m.Shows (s.seen addr) ∧ exec (.amr r ix i addr) s =
      .next (({ s.withEa false ix i addr with
          mar := ea, mdr := w, op1 := s.getR r, op2 := w, result := s.getR r + w
          cc := if 2 ^ 18 ≤ (s.getR r).toNat + w.toNat then 0b1000#4 else 0b0000#4 }.setR r (s.getR r + w)).done
        (.amr r ix i addr) (pcNext s.pc) (eaSteps i + 7) m)) ∧
    (∃ m, m.Shows (s.seen addr) ∧ exec (.smr r ix i addr) s =
      .next (({ s.withEa false ix i addr with
          mar := ea, mdr := w, op1 := s.getR r, op2 := w, result := s.getR r - w
          cc := if (s.getR r).toNat < w.toNat then 0b0100#4 else 0b0000#4 }.setR r (s.getR r - w)).done
        (.smr r ix i addr) (pcNext s.pc) (eaSteps i + 7) m))

/-- AIR and SIR: R[r] plus or minus the zero-extended immediate, and the flag of ADD or SUB; no word
changes but mem[8], which a label reference writes where the immediate is 8 (R252, R253; 41_execution_cycle.md R186). -/
def Obligations.AirSirCompute : Prop :=
  ∀ (r : BitVec 2) (addr : BitVec 5) (s : State) (w : Word), s.ms.Inv → s.jumpTaken = false →
    w = addr.setWidth 18 →
    (∃ m, m.Shows (s.seen addr) ∧ exec (.air r addr) s =
      .next (({ s with
          op1 := s.getR r, op2 := w, result := s.getR r + w
          cc := if 2 ^ 18 ≤ (s.getR r).toNat + w.toNat then 0b1000#4 else 0b0000#4 }.setR r (s.getR r + w)).done
        (.air r addr) (pcNext s.pc) 5 m)) ∧
    (∃ m, m.Shows (s.seen addr) ∧ exec (.sir r addr) s =
      .next (({ s with
          op1 := s.getR r, op2 := w, result := s.getR r - w
          cc := if (s.getR r).toNat < w.toNat then 0b0100#4 else 0b0000#4 }.setR r (s.getR r - w)).done
        (.sir r addr) (pcNext s.pc) 5 m))

/-- MLT: the 36-bit unsigned product of the old values, its high half in R[rx] and its low half in R[rx + 1]; CC is
cleared (R254). -/
def Obligations.MltMultiplies : Prop :=
  ∀ (rx ry : BitVec 2) (s : State) (hi lo : Word), s.ms.Inv → s.jumpTaken = false → rx = 0 ∨ rx = 2 →
    hi.toNat * 2 ^ 18 + lo.toNat = (s.getR rx).toNat * (s.getR ry).toNat →
    ∃ m, m.Shows s.ms.view ∧ exec (.mlt rx ry) s =
      .next ((({ s with
          op1 := s.getR rx, op2 := s.getR ry, result := hi, result2 := lo, cc := 0b0000#4 }.setR rx hi).setR (rx + 1)
            lo).done (.mlt rx ry) (pcNext s.pc) 6 m)

/-- DVD by a divisor that is not 0: the unsigned quotient in R[rx], the remainder in R[rx + 1], CC cleared; by 0: only
DIVZERO, and the instruction completes at its ALU step (R255; decisions D11, D19). -/
def Obligations.DvdDivides : Prop :=
  ∀ (rx ry : BitVec 2) (s : State), s.ms.Inv → s.jumpTaken = false → rx = 0 ∨ rx = 2 →
    (s.getR ry ≠ 0 → ∃ m, m.Shows s.ms.view ∧ exec (.dvd rx ry) s =
      .next ((({ s with
          op1 := s.getR rx, op2 := s.getR ry, result := s.getR rx / s.getR ry, result2 := s.getR rx % s.getR ry
          cc := 0b0000#4 }.setR rx (s.getR rx / s.getR ry)).setR (rx + 1) (s.getR rx % s.getR ry)).done
        (.dvd rx ry) (pcNext s.pc) 6 m)) ∧
    (s.getR ry = 0 → ∃ m, m.Shows s.ms.view ∧ exec (.dvd rx ry) s =
      .next ({ s with op1 := s.getR rx, op2 := s.getR ry, cc := 0b0010#4 }.done (.dvd rx ry) (pcNext s.pc) 4 m))

/-- TRR writes CC alone; AND, ORR and NOT write R[rx] and no flag; NOT has no second operand (R256 to R259). -/
def Obligations.LogicComputes : Prop :=
  ∀ (rx ry : BitVec 2) (s : State), s.ms.Inv → s.jumpTaken = false →
    (∃ m, m.Shows s.ms.view ∧ exec (.trr rx ry) s =
      .next ({ s with
          op1 := s.getR rx, op2 := s.getR ry
          cc := if s.getR rx = s.getR ry then 0b0001#4 else 0b0000#4 }.done (.trr rx ry) (pcNext s.pc) 4 m)) ∧
    (∃ m, m.Shows s.ms.view ∧ exec (.and rx ry) s =
      .next (({ s with
          op1 := s.getR rx, op2 := s.getR ry, result := s.getR rx &&& s.getR ry }.setR rx
            (s.getR rx &&& s.getR ry)).done (.and rx ry) (pcNext s.pc) 5 m)) ∧
    (∃ m, m.Shows s.ms.view ∧ exec (.orr rx ry) s =
      .next (({ s with
          op1 := s.getR rx, op2 := s.getR ry, result := s.getR rx ||| s.getR ry }.setR rx
            (s.getR rx ||| s.getR ry)).done (.orr rx ry) (pcNext s.pc) 5 m)) ∧
    (∃ m, m.Shows s.ms.view ∧ exec (.not rx) s =
      .next (({ s with op1 := s.getR rx, result := ~~~ s.getR rx }.setR rx (~~~ s.getR rx)).done (.not rx)
        (pcNext s.pc) 4 m))

/-- SRC and RRC: left or right, logical or arithmetic, by a count of 0 to 15; RRC ignores AL; no flag (R260, R261). -/
def Obligations.SrcRrcCompute : Prop :=
  ∀ (r : BitVec 2) (al lr : Bool) (count : BitVec 4) (s : State) (v : Word), s.ms.Inv → s.jumpTaken = false →
    v = s.getR r →
    (∃ m, m.Shows s.ms.view ∧ exec (.src r al lr count) s =
      .next (({ s with
          op1 := v, op2 := count.setWidth 18, op3 := (BitVec.ofBool lr).setWidth 18
          op4 := (BitVec.ofBool al).setWidth 18
          result := if lr then v <<< count.toNat
                    else if al then v >>> count.toNat else v.sshiftRight count.toNat }.setR r
            (if lr then v <<< count.toNat else if al then v >>> count.toNat else v.sshiftRight count.toNat)).done
        (.src r al lr count) (pcNext s.pc) 7 m)) ∧
    (∃ m, m.Shows s.ms.view ∧ exec (.rrc r al lr count) s =
      .next (({ s with
          op1 := v, op2 := count.setWidth 18, op3 := (BitVec.ofBool lr).setWidth 18
          op4 := (BitVec.ofBool al).setWidth 18
          result := if lr then v.rotateLeft count.toNat else v.rotateRight count.toNat }.setR r
            (if lr then v.rotateLeft count.toNat else v.rotateRight count.toNat)).done
        (.rrc r al lr count) (pcNext s.pc) 7 m))

/-! ### Input, output, trap, halt (45_io_trap_halt.md) -/

/-- IN from the keyboard reads the character at the pointer; after the last one the buffer and the pointer are reset.
With another device it completes with no effect. With nothing left to read it waits at its step: the flag is set, and
no register, PC or further cycle changes (R280; 41_execution_cycle.md R192; decisions D23, D24). -/
def Obligations.InReadsOrWaits : Prop :=
  ∀ (r : BitVec 2) (devid : BitVec 5) (s : State), s.ms.Inv →
    (∀ c, s.jumpTaken = false → devid = 0 → s.inbuf[s.ptr]? = some c → ∃ m, m.Shows s.ms.view ∧ exec (.inp r devid) s =
      .next (({ s with
          inbuf := if s.ptr + 1 = s.inbuf.length then [] else s.inbuf
          ptr := if s.ptr + 1 = s.inbuf.length then 0 else s.ptr + 1 }.setR r (c.setWidth 18)).done (.inp r devid)
        (pcNext s.pc) 2 m)) ∧
    (s.jumpTaken = false → devid ≠ 0 →
      ∃ m, m.Shows s.ms.view ∧ exec (.inp r devid) s = .next (s.done (.inp r devid) (pcNext s.pc) 2 m)) ∧
    (devid = 0 → s.ptr = s.inbuf.length → ∃ m, m.Shows s.ms.view ∧ exec (.inp r devid) s =
      .next { s with
        dec := fieldsOf (.inp r devid), k := 4, waitForInterrupt := true, cycleCount := s.cycleCount + 1, ms := m })

/-- A waiting IN, once restarted with a character to read, completes, and an `execute` of mode macro ends with it (R280;
60_exceptions.md R309, R317; decision D47). The `execute` as a field and the engine's turn are log entries 5 and 8. -/
def Obligations.InResumes : Prop :=
  ∀ (r : BitVec 2) (s : State) (c : CharCode), s.ms.Inv → s.jumpTaken = false → s.Running →
    s.execMode ≠ .micro → s.phase = .run → s.k = 4 → s.dec = fieldsOf (.inp r 0) →
    s.inbuf[s.ptr]? = some c →
    ∃ m : MemSys, m.Shows s.ms.view ∧ step s =
      .next (({ s with
          inbuf := if s.ptr + 1 = s.inbuf.length then [] else s.inbuf
          ptr := if s.ptr + 1 = s.inbuf.length then 0 else s.ptr + 1
          executing := decide (s.execMode = ExecMode.continue), turns := s.turns.tail }.setR r (c.setWidth 18)).done (.inp r 0)
        (pcNext s.pc) 1 m)

/-- OUT to the console appends the low byte of R[r]; to another device it has no effect (R281; decisions D23, D40). -/
def Obligations.OutEmits : Prop :=
  ∀ (r : BitVec 2) (devid : BitVec 5) (s : State), s.ms.Inv → s.jumpTaken = false →
    ∃ m, m.Shows s.ms.view ∧ exec (.out r devid) s =
      .next ({ s with
          terminal := if devid = 1 then s.terminal ++ [(s.getR r).extractLsb' 0 8] else s.terminal }.done (.out r devid)
        (pcNext s.pc) 2 m)

/-- TRAP saves PC in mem[2] and jumps to the entry that mem[mem[0] + code] holds, read after the save, if it is not 0. An
empty entry takes the IllegalTrap fault in the last step, an entry address out of range the AddressFault at the entry
read; mem[2] stays written (R282; 60_exceptions.md R301, R302; decisions D12, D13, D53). -/
def Obligations.TrapTransfersOrFaults : Prop :=
  ∀ (code : BitVec 4) (s : State) (a : Word), s.ms.Inv → a = s.trapEntryAddr code →
    (∀ entry, a.toNat < Config.memWords → entry = s.trapSaved a.toNat → entry ≠ 0 →
      ∃ m, m.Shows s.trapSaved ∧ exec (.trap code) s =
        .next ({ s with mar := a, mdr := entry }.done (.trap code) (wordToPc entry) 9 m)) ∧
    (a.toNat < Config.memWords → s.trapSaved a.toNat = 0 →
      ∃ m, m.Shows (savedAt s.pc s.trapSaved) ∧ exec (.trap code) s =
        .next ({ s with
            dec := fieldsOf (.trap code), mar := a, mdr := 0, cycleCount := s.cycleCount + 8 }.faultTaken .illegalTrap
          (s.trapSaved Config.faultVectorPtr) m)) ∧
    (Config.memWords ≤ a.toNat →
      ∃ m, m.Shows (savedAt s.pc s.trapSaved) ∧ exec (.trap code) s =
        .next ({ s with
            dec := fieldsOf (.trap code), mar := a, mdr := s.trapSaved Config.trapTablePtr
            cycleCount := s.cycleCount + 7 }.faultTaken .addressFault (s.trapSaved Config.faultVectorPtr) m))

/-- HLT sets `halted` and completes: PC ends at its address + 1; no word changes but mem[8], which a label reference
writes where the ignored ADDR field is 8 (R283; 41_execution_cycle.md R186; decision D30). -/
def Obligations.HltHalts : Prop :=
  ∀ (r ix : BitVec 2) (i : Bool) (addr : BitVec 5) (s : State), s.ms.Inv → s.jumpTaken = false →
    ∃ m, m.Shows (s.seen addr) ∧ exec (.hlt r ix i addr) s =
      .next ({ s with halted := true }.done (.hlt r ix i addr) (pcNext s.pc) 2 m)

/-! ### Machine faults and refusals (60_exceptions.md, 30_encoding.md R127) -/

/-- Every instruction that computes an effective address takes the AddressFault when its indirect read is out of range:
PC is saved in mem[4] and mem[5], PC comes from mem[1], MAR holds the address, and no general or index register and
no flag changes (60_exceptions.md R300 to R303; decisions D9, D12, D25). -/
def Obligations.IndirectReadFaults : Prop :=
  ∀ (ins : Instr) (lx : Bool) (ix : BitVec 2) (addr : BitVec 5) (s : State) (base : Word), s.ms.Inv →
    ins.wellFormed = true → eaOperands ins = some (lx, ix, true, addr) → base = s.eaBase lx ix addr →
    Config.memWords ≤ base.toNat →
    ∃ m, m.Shows (savedAt s.pc (s.seen addr)) ∧ exec ins s =
      .next ({ s with dec := fieldsOf ins, ea := base, mar := base, cycleCount := s.cycleCount + 3 }.faultTaken
        .addressFault (s.seen addr Config.faultVectorPtr) m)

/-- LDR, LDX, AMR and SMR take the AddressFault when the data address is out of range: the destination register and CC
do not change (60_exceptions.md R300 to R303; decision D12). -/
def Obligations.DataReadFaults : Prop :=
  ∀ (ins : Instr) (r ix : BitVec 2) (lx i : Bool) (addr : BitVec 5) (s : State) (ea : Word), s.ms.Inv →
    ins = .ldr r ix i addr ∧ lx = false ∨ ins = .amr r ix i addr ∧ lx = false ∨
      ins = .smr r ix i addr ∧ lx = false ∨ ins = .ldx ix i addr ∧ lx = true ∧ ix ≠ 0 →
    s.eaReadable lx ix i addr → ea = s.effAddr lx ix i addr → Config.memWords ≤ ea.toNat →
    ∃ m, m.Shows (savedAt s.pc (s.seen addr)) ∧ exec ins s =
      .next ({ s.withEa lx ix i addr with
          dec := fieldsOf ins, mar := ea, cycleCount := s.cycleCount + (eaSteps i + 2) }.faultTaken .addressFault
        (s.seen addr Config.faultVectorPtr) m)

/-- STR and STX take the AddressFault when the data address is out of range: nothing is stored there
(60_exceptions.md R300 to R303; decision D12). -/
def Obligations.DataWriteFaults : Prop :=
  ∀ (ins : Instr) (r ix : BitVec 2) (lx i : Bool) (addr : BitVec 5) (s : State) (ea v : Word), s.ms.Inv →
    ins = .str r ix i addr ∧ lx = false ∧ v = s.getR r ∨
      ins = .stx ix i addr ∧ lx = true ∧ s.getX ix = some v →
    s.eaReadable lx ix i addr → ea = s.effAddr lx ix i addr → Config.memWords ≤ ea.toNat →
    ∃ m, m.Shows (savedAt s.pc (s.seen addr)) ∧ exec ins s =
      .next ({ s.withEa lx ix i addr with
          dec := fieldsOf ins, mar := ea, mdr := v, cycleCount := s.cycleCount + (eaSteps i + 3) }.faultTaken
        .addressFault (s.seen addr Config.faultVectorPtr) m)

/-- MLT and DVD with RX = 1 or 3, and LDX and STX with IX = 0, are refused by name in every state (30_encoding.md R127;
decisions D7, D8). -/
def Obligations.ReservedOperandsRefused : Prop :=
  ∀ (rx ry : BitVec 2) (i : Bool) (addr : BitVec 5) (s : State),
    (rx = 1 ∨ rx = 3 →
      exec (.mlt rx ry) s = .refused .mulDivOddRx ∧ exec (.dvd rx ry) s = .refused .mulDivOddRx) ∧
    exec (.ldx 0 i addr) s = .refused .indexZeroLX ∧ exec (.stx 0 i addr) s = .refused .indexZeroLX

/-! ### Steps of the engine (41_execution_cycle.md) -/

/-- k = 0 and k = 2 (41_execution_cycle.md R182, R184): MAR <- zext(PC), and IR <- MDR. One micro-step, in mode micro or
in a turn of one micro-step in any mode, which is the model's own (DESIGN CHOICE, log entry 8); in mode micro the
`execute` ends with it (60_exceptions.md R317, decision D54), which the model keeps in a field of its own (DEDUCED, log
entry 5). Around it the memory controller may have moved, which the program does not see (20_memory.md R75). -/
def Obligations.FetchTransferSteps : Prop :=
  ∀ s : State, s.ms.Inv → s.MicroNext → s.phase = .run →
    (s.k = 0 → ∃ m, m.Shows s.ms.view ∧ step s = .next { s with
      mar := s.pc.setWidth 18, k := 1, cycleCount := s.cycleCount + 1, ms := m
      executing := decide (s.execMode ≠ .micro), turns := s.turns.tail }) ∧
    (s.k = 2 → ∃ m, m.Shows s.ms.view ∧ step s = .next { s with
      ir := s.mdr, k := 3, cycleCount := s.cycleCount + 1, ms := m
      executing := decide (s.execMode ≠ .micro), turns := s.turns.tail })

/-- k = 1 (41_execution_cycle.md R183): MDR <- the word at MAR, k <- 2; an address above 2047 raises the machine fault, which
the ghost log records, and the next micro-step is the first of fault entry: the `execute` goes on in every mode
(60_exceptions.md R317, R319). The turn of one micro-step and the `execute` as a field are log entries 8 and 5. -/
def Obligations.FetchReadStep : Prop :=
  ∀ s : State, s.ms.Inv → s.MicroNext → s.phase = .run → s.k = 1 →
    ∃ m, m.Shows s.ms.view ∧
      step s = .next (if s.mar.toNat < Config.memWords then
          { s with
            mdr := s.ms.view s.mar.toNat, k := 2, cycleCount := s.cycleCount + 1, ms := m
            executing := decide (s.execMode ≠ .micro), turns := s.turns.tail }
        else
          { s with
            phase := .faultEntry 0, cycleCount := s.cycleCount + 1, ms := m, turns := s.turns.tail
            faultLog := s.faultLog ++ [{ kind := .addressFault, pc := s.pc, mar := s.mar }] })

/-- k = 3 (41_execution_cycle.md R185, R186, R194): decode writes every field register and, where ADDR is 8 and the
instruction has a label reference, mem[8], in one micro-step; a word that does not decode marks the state refused by
name, before the trampoline write, and nothing else changes. The `execute` ends with it in mode micro (60_exceptions.md
R317). The name, the turn of one micro-step and the `execute` as a field are log entries 11, 8 and 5. -/
def Obligations.DecodeStep : Prop :=
  ∀ s : State, s.ms.Inv → s.MicroNext → s.phase = .run → s.k = 3 →
    (∀ i, decode s.ir = .ok i → ∃ m, m.Shows (s.seen (fieldsOf i).addr) ∧ step s = .next { s with
      dec := fieldsOf i, k := 4, cycleCount := s.cycleCount + 1, ms := m
      executing := decide (s.execMode ≠ .micro), turns := s.turns.tail }) ∧
    (∀ e, decode s.ir = .error e →
      step s = .next { s with
        refused := true, refusal := some (decodeRefusal e), executing := false, turns := s.turns.tail })

/-- The three micro-steps of fault entry (60_exceptions.md R301, R319): PC to mem[4], the PC image to mem[5], and PC from
mem[1] with the machine running on in mode continue. MAR, MDR and every register but PC stay. The turn of one micro-step
is log entry 8; that the `execute` goes on also where the host issued it in the midst of fault entry is log entry 5
(DESIGN CHOICE). -/
def Obligations.FaultEntrySteps : Prop :=
  ∀ s : State, s.ms.Inv → s.MicroNext →
    (s.phase = .faultEntry 0 → ∃ m, m.Shows (fun a => if a = 4 then s.pc.setWidth 18 else s.ms.view a) ∧
      step s = .next { s with
        phase := .faultEntry 1, cycleCount := s.cycleCount + 1, ms := m, turns := s.turns.tail }) ∧
    (s.phase = .faultEntry 1 → ∃ m, m.Shows (fun a => if a = 5 then s.pc.setWidth 18 else s.ms.view a) ∧
      step s = .next { s with
        phase := .faultEntry 2, cycleCount := s.cycleCount + 1, ms := m, turns := s.turns.tail }) ∧
    (s.phase = .faultEntry 2 → ∃ m, m.Shows s.ms.view ∧ step s = .next { s with
      pc := (s.ms.view 1).setWidth 12, jumpTaken := false, k := 0, phase := .run, execMode := .continue
      cycleCount := s.cycleCount + 1, ms := m, turns := s.turns.tail })

/-- In a mode that runs whole instructions, a step at an in-range PC fetches the word there (41_execution_cycle.md R182 to
R184). If it decodes to i the step is `exec i` after the three fetch steps, and then the `execute` is over or not
(60_exceptions.md R317); if it does not, the state is marked refused by name (R194; log entry 11). That one step of the
model is a whole instruction, and that it may be the engine's turn by a mark or by the list's end, are the model's own
(log entries 5 and 8). -/
def Obligations.StepRunsDecoded : Prop :=
  ∀ s : State, s.ms.Inv → s.Running → s.execMode ≠ .micro → s.phase = .run → s.k = 0 →
    s.pc.toNat < Config.memWords → ∃ m, m.Shows s.ms.view ∧ ∃ fetched : State, fetched = { s with
        mar := s.pc.setWidth 18, mdr := s.ms.view s.pc.toNat, ir := s.ms.view s.pc.toNat, k := 3
        cycleCount := s.cycleCount + 3, ms := m, turns := s.turns.tail } ∧
      (∀ i, decode (s.ms.view s.pc.toNat) = .ok i → step s = settled (exec i fetched)) ∧
      (∀ e, decode (s.ms.view s.pc.toNat) = .error e → step s = .next { fetched with
        refused := true, refusal := some (decodeRefusal e), executing := false })

/-- A fetch at a PC above 2047 takes the AddressFault: mem[4] = mem[5] = PC, PC from mem[1], IR keeps the last
instruction, and the `execute` goes on in mode continue (60_exceptions.md R300 to R302, R319; decisions D12, D61). The
step of a whole instruction and its turn are log entries 5 and 8. -/
def Obligations.FetchFaults : Prop :=
  ∀ s : State, s.ms.Inv → s.Running → s.execMode ≠ .micro → s.phase = .run → s.k = 0 →
    Config.memWords ≤ s.pc.toNat →
    ∃ m, m.Shows (savedAt s.pc s.ms.view) ∧
      step s = .next ({ s with
          mar := s.pc.setWidth 18, cycleCount := s.cycleCount + 1, turns := s.turns.tail }.faultTaken .addressFault
        (s.ms.view Config.faultVectorPtr) m)

/-- When an `execute` is over (60_exceptions.md R317, R319): after a turn of the engine it goes on iff the engine has a step
and, in mode micro, a machine fault was raised, in mode macro, no instruction has just completed. That the model keeps
this in a field is DEDUCED, and that an `execute` issued in the midst of fault entry goes on too is a DESIGN CHOICE (log
entry 5). -/
def Obligations.ExecuteEnds : Prop :=
  ∀ s t : State, s.Running ∨ s.MicroNext → step s = .next t →
    (t.executing = true ↔
      (t.halted = false ∧ t.waitForInterrupt = false ∧ t.refused = false ∧ t.terminated = false) ∧
      (t.execMode = .micro → t.phase ≠ .run) ∧ (t.execMode = .macroStep → ¬ (t.phase = .run ∧ t.k = 0)))

/-- Outside an `execute`, halted or waiting, the engine takes no step and only the controller moves (60_exceptions.md R316;
41_execution_cycle.md R195). After `shutdown()` the engine takes none either; once everything is drained its turn refuses
and marks the state. In a refused state its turn is refused by the name the refusal left (R194; 20_memory.md R77; decision
D49, log entries 9, 11 and 18). -/
def Obligations.StoppedEngineIdles : Prop :=
  ∀ s : State, s.ms.Inv → s.turns = [] ∨ s.turns.head? = some .engine ∨ s.turns.head? = some .micro →
    (s.refused = false → s.terminated = false →
      s.executing = false ∨ s.halted = true ∨ s.waitForInterrupt = true →
      ∃ m, m.Shows s.ms.view ∧ step s = .next { s with ms := m, turns := s.turns.tail }) ∧
    (s.refused = false → s.terminated = true →
      (s.ms.wb = [] ∧ s.ms.inflight = none → step s = .next { s with
        refused := true, refusal := some .afterShutdown, executing := false, turns := s.turns.tail }) ∧
      (¬ (s.ms.wb = [] ∧ s.ms.inflight = none) →
        ∃ m, m.Shows s.ms.view ∧ step s = .next { s with ms := m, turns := s.turns.tail })) ∧
    (s.refused = true → step s = .refused (s.refusal.getD .alreadyRefused))

/-- A turn of the controller alone (20_memory.md R72, R73, R75): whatever the engine does, also between a micro-step of it
and an action of the host, it takes RETIRE or TAKE, whichever is enabled, and nothing when neither is; the program's
view stays. That a turn says so is the model's own (log entry 8). -/
def Obligations.ControllerAlone : Prop :=
  ∀ (s : State) (rest : List Turn), s.ms.Inv → s.turns = .controller :: rest →
    ∃ m, m.Shows s.ms.view ∧ step s = .next { s with ms := m, turns := rest } ∧
      (s.ms.inflight ≠ none → s.ms.retire = some m) ∧
      (s.ms.inflight = none → s.ms.wb ≠ [] → s.ms.take = some m) ∧
      (s.ms.inflight = none → s.ms.wb = [] → m = s.ms)

/-! ### The host (60_exceptions.md R316 to R318) -/

/-- `interrupt`, `feed_input`, `execute`, the HLT reaction and `shutdown` (60_exceptions.md R308, R309, R316 to R318;
decisions D24, D33, D35, D45 to D47). The general and index registers are cleared by the HLT reaction; after a user
program the engine resumes at 24 as the boot program, after the boot program it stays halted. Each is one step of the
model (log entry 8). What R316 refuses, and the HLT reaction while not halted, for which it gives no step, marks the
state refused (log entry 11); the `execute` as a field, and that a restarted IN goes on in the current mode, are DEDUCED
(log entry 5); that `shutdown` ends the `execute` beside setting `terminated` is a DESIGN CHOICE (log entry 18;
20_memory.md R77, decision D49). -/
def Obligations.HostActions : Prop :=
  ∀ (s : State) (rest : List Turn),
    step { s with turns := .act (.interrupt .io) :: rest } =
      .next (if s.waitForInterrupt = true then
          { s with
            waitForInterrupt := false, turns := rest
            executing := decide (s.halted = false ∧ s.refused = false ∧ s.terminated = false) }
        else { s with turns := rest }) ∧
    (∀ n, step { s with turns := .act (.interrupt (.other n)) :: rest } =
      .next (State.refuse { s with turns := rest } .interruptKind)) ∧
    (∀ str, step { s with turns := .act (.feedInput str) :: rest } =
      if ∀ c ∈ str, c < 65536 then .next { s with inbuf := s.inbuf ++ str.map (BitVec.ofNat 16), turns := rest }
      else .next (State.refuse { s with turns := rest } .charCodeTooLarge)) ∧
    (∀ mode, step { s with turns := .act (.execute mode) :: rest } =
      if s.refused = true ∨ s.terminated = true then .next (State.refuse { s with turns := rest } .executeNotAllowed)
      else .next { s with
        execMode := mode, turns := rest, executing := decide (s.halted = false ∧ s.waitForInterrupt = false) }) ∧
    step { s with turns := .act .executeDirect :: rest } =
      .next (State.refuse { s with turns := rest } .executeDirect) ∧
    step { s with turns := .act .shutdown :: rest } =
      .next { s with terminated := true, executing := false, turns := rest } ∧
    (s.halted = true → s.programKind = .user → step { s with turns := .act .hltReaction :: rest } =
      .next { s with
        r0 := 0, r1 := 0, r2 := 0, r3 := 0, x1 := 0, x2 := 0, x3 := 0, pc := 24, jumpTaken := false, k := 0
        halted := false, programKind := .boot, turns := rest
        executing := decide (s.waitForInterrupt = false ∧ s.refused = false ∧ s.terminated = false) }) ∧
    (s.halted = true → s.programKind = .boot → step { s with turns := .act .hltReaction :: rest } =
      .next { s with r0 := 0, r1 := 0, r2 := 0, r3 := 0, x1 := 0, x2 := 0, x3 := 0, turns := rest }) ∧
    (s.halted = false → step { s with turns := .act .hltReaction :: rest } =
      .next (State.refuse { s with turns := rest } .notHalted))

/-- The load protocol: the boot region decides the base, the assembled words and the text the host prefetches are stored
directly with the cache empty and nothing pending, every register and control field is at its reset value, and every
other word keeps what the program saw (70_reset_and_hazards.md R340 to R342; decisions D16 to D18, D50). That
`terminated` is cleared, what a load keeps, the list of errors it leaves and the text as an argument are the model's choice
(log entries 16, 17 and 22). -/
def Obligations.LoadProtocol : Prop :=
  ∀ (s : State) (source : List String) (prefetch : Option (List Nat)) (rest : List Turn) (base : Nat)
    (asm : AsmResult), s.ms.Inv →
    s.loadAllowed = true → base = (if s.ms.view 24 = 0 then 24 else 100) → asm = assemble base source →
    prefetchInRange prefetch = true → (∀ w ∈ asm.words ++ prefetchWords prefetch, w.1 < Config.memWords) →
    ∃ t, step { s with turns := .act (.loadRom source prefetch) :: rest } = .next t ∧
      t.pc.toNat = base ∧ (∀ n : RegName, n ≠ .pc → t.reg n = 0) ∧ t.k = 0 ∧ t.phase = .run ∧
      t.jumpTaken = false ∧ t.waitForInterrupt = false ∧ t.halted = false ∧ t.refused = false ∧
      t.terminated = false ∧ t.cycleCount = 0 ∧
      t.inbuf = [] ∧ t.ptr = 0 ∧ t.terminal = s.terminal ∧ t.labelRefs = asm.refs ∧ t.parseErrors = asm.errors ∧
      t.programKind = (if base = 24 then .boot else .user) ∧ t.execMode = s.execMode ∧ t.executing = s.executing ∧
      t.ms.l1 = [] ∧ t.ms.wb = [] ∧ t.ms.inflight = none ∧ t.ms.Inv ∧
      (∀ a, (∀ w ∈ asm.words ++ prefetchWords prefetch, w.1 ≠ a) → t.ms.view a = s.ms.view a) ∧
      (∀ codes, prefetch = some codes →
        (∀ j c, codes[j]? = some c → t.ms.view (1000 + j) = BitVec.ofNat 18 c) ∧
        t.ms.view (1000 + codes.length) = 4) ∧
      ∀ w ∈ asm.words, (∀ d ∈ prefetchWords prefetch, d.1 ≠ w.1) → t.ms.view w.1 = w.2

/-- The loads that are refused: in the middle of an instruction, with a text that holds no character code, or with a word
that would stand above 2047 (60_exceptions.md R316; 70_reset_and_hazards.md R341; decisions D60, D62). Nothing is
loaded: the state is marked refused (log entries 11, 17 and 22). -/
def Obligations.LoadRefused : Prop :=
  ∀ (s : State) (source : List String) (prefetch : Option (List Nat)) (rest : List Turn) (base : Nat), s.ms.Inv →
    base = (if s.ms.view 24 = 0 then 24 else 100) →
    (¬ (s.k = 0 ∧ s.phase = .run) → s.halted = false → s.waitForInterrupt = false →
      step { s with turns := .act (.loadRom source prefetch) :: rest } =
        .next (State.refuse { s with turns := rest } .loadMidInstruction)) ∧
    ((s.k = 0 ∧ s.phase = .run) ∨ s.halted = true ∨ s.waitForInterrupt = true →
      (∀ codes, prefetch = some codes → (∃ c ∈ codes, 65536 ≤ c) →
        step { s with turns := .act (.loadRom source prefetch) :: rest } =
          .next (State.refuse { s with turns := rest } .charCodeTooLarge)) ∧
      (prefetchInRange prefetch = true →
        (∃ w ∈ (assemble base source).words ++ prefetchWords prefetch, Config.memWords ≤ w.1) →
        step { s with turns := .act (.loadRom source prefetch) :: rest } =
          .next (State.refuse { s with turns := rest } .loadPastMemory)))

/-! ### The whole machine -/

/-- Every step keeps the invariant: the canonical memory, the accounting and coherence of the cache, at most one flag, the
registers nothing writes, the input pointer, where the engine may wait or halt, mem[8] during an instruction with a
label reference, and that inside an `execute` nothing stops the engine (10_state.md R43; 60_exceptions.md R317). -/
def Obligations.StepKeepsInv : Prop :=
  ∀ s t : State, s.Inv → step s = .next t → t.Inv

/-- No state that meets the invariant faults: a hold of the engine never stays once the controller has drained the buffer
(20_memory.md R76; 41_execution_cycle.md R192). -/
def Obligations.EngineNeverStuck : Prop :=
  ∀ (s : State) (f : Fault), s.Inv → step s ≠ .fault f

/-- An instruction is the same as its micro-steps: a step in a mode that runs whole instructions gives what micro-steps
give until the instruction has completed, faulted and been entered, waits or is refused (60_exceptions.md R317; log
entry 5). -/
def Obligations.MacroIsMicroSteps : Prop :=
  ∀ s : State, s.Inv → s.halted = false → s.waitForInterrupt = false → s.refused = false →
    engineMacro s = microSteps 32 s

/-- The program cannot see the cache, the write buffer, the element in flight or how fast the controller drains: two states
that differ only there, and show the same words, step to states that differ only there and show the same words
(10_state.md R40; 20_memory.md R75, R78). -/
def Obligations.MemorySideInvisible : Prop :=
  ∀ s t s' : State, s.Inv → t.Inv → s.SameToProgram t → s.terminated = false → step s = .next s' →
    ∃ t', step t = .next t' ∧ s'.SameToProgram t'

/-- No instruction, no other step of the engine or the controller, and no action of the host but a load reads or writes
MSR or MFR: two states that differ only there step alike, and keep them (10_state.md R29, R30; decision D25). -/
def Obligations.MsrMfrUntouched : Prop :=
  (∀ (i : Instr) (s t : State) (msr : Word) (mfr : BitVec 4), exec i s = .next t →
    t.msr = s.msr ∧ t.mfr = s.mfr ∧ exec i { s with msr := msr, mfr := mfr } = .next { t with msr := msr, mfr := mfr }) ∧
  ∀ (s t : State) (msr : Word) (mfr : BitVec 4),
    (∀ source prefetch, s.turns.head? ≠ some (.act (.loadRom source prefetch))) → step s = .next t →
    t.msr = s.msr ∧ t.mfr = s.mfr ∧ step { s with msr := msr, mfr := mfr } = .next { t with msr := msr, mfr := mfr }
end

