-- ==== Sys2Proof/Laws/Alu.lean ====
section
/-! SUPPORT. The results and flags of the ALU (40_alu.md) as operations of `BitVec 18`, one lemma per function. -/

namespace Sys2Proof.Machine

theorem addResult_eq (a b : Word) : addResult a b = a + b := by
  unfold addResult; split
  · next h => have := a.isLt; apply BitVec.eq_of_toNat_eq; rw [BitVec.toNat_add, h]; omega
  · apply BitVec.eq_of_toNat_eq; simp [BitVec.toNat_add]

theorem addFlags_eq (a b : Word) : addFlags a b = if 2 ^ 18 ≤ a.toNat + b.toNat then 0b1000#4 else 0b0000#4 := by
  have := a.isLt
  unfold addFlags ccWhen
  split
  · rw [if_neg (by omega)]; rfl
  · by_cases h : 2 ^ 18 ≤ a.toNat + b.toNat <;> simp [h] <;> rfl

theorem subWrap_eq (a b : Word) : subWrap a b = a - b := by
  have := a.isLt; have := b.isLt
  apply BitVec.eq_of_toNat_eq; simp only [subWrap, BitVec.toNat_sub, BitVec.toNat_ofNat]; congr 1; omega

theorem subResult_eq (a b : Word) : subResult a b = a - b := by
  unfold subResult; split
  · next h => have := a.isLt; apply BitVec.eq_of_toNat_eq; rw [BitVec.toNat_sub, h]; omega
  · exact subWrap_eq a b

theorem subFlags_eq (a b : Word) : subFlags a b = if a.toNat < b.toNat then 0b0100#4 else 0b0000#4 := by
  have := a.isLt; have := b.isLt
  unfold subFlags ccWhen
  split
  · rw [if_neg (by omega)]; rfl
  · have : a.toNat < (subWrap a b).toNat ↔ a.toNat < b.toNat := by
      rw [subWrap_eq, BitVec.toNat_sub]; omega
    by_cases h : a.toNat < b.toNat <;> simp [this, h] <;> rfl

theorem trrFlags_eq (a b : Word) : trrFlags a b = if a = b then 0b0001#4 else 0b0000#4 := by
  unfold trrFlags ccWhen
  by_cases h : a = b <;> simp [h] <;> rfl

theorem mltFlags_eq (a b : Word) : mltFlags a b = 0b0000#4 := by
  have := a.isLt; have := b.isLt
  have : a.toNat * b.toNat < 2 ^ 18 * 2 ^ 18 := Nat.mul_lt_mul_of_lt_of_lt a.isLt b.isLt
  unfold mltFlags ccWhen
  rw [decide_eq_false (by omega)]; rfl

theorem mltHigh_mltLow (a b : Word) : (mltHigh a b).toNat * 2 ^ 18 + (mltLow a b).toNat = a.toNat * b.toNat := by
  have : a.toNat * b.toNat < 2 ^ 18 * 2 ^ 18 := Nat.mul_lt_mul_of_lt_of_lt a.isLt b.isLt
  simp only [mltHigh, mltLow, BitVec.toNat_ofNat]
  generalize a.toNat * b.toNat = p at *
  omega

theorem dvdQuotient_eq (a b : Word) : dvdQuotient a b = a / b := by
  apply BitVec.eq_of_toNat_eq
  simp only [dvdQuotient, BitVec.toNat_ofNat, BitVec.toNat_udiv]
  exact Nat.mod_eq_of_lt (Nat.lt_of_le_of_lt (Nat.div_le_self _ _) a.isLt)

theorem dvdRemainder_eq (a b : Word) : dvdRemainder a b = a % b := by
  apply BitVec.eq_of_toNat_eq
  simp only [dvdRemainder, BitVec.toNat_ofNat, BitVec.toNat_umod]
  exact Nat.mod_eq_of_lt (Nat.lt_of_le_of_lt (Nat.mod_le _ _) a.isLt)

theorem notResult_eq (a : Word) : notResult a = ~~~ a := by
  apply BitVec.eq_of_toNat_eq
  have := a.isLt
  simp only [notResult, BitVec.toNat_ofNat, BitVec.toNat_not]
  omega

theorem srcResult_eq (v : Word) (n : Nat) (l lg : Bool) :
    srcResult v n l lg = if l then v <<< n else if lg then v >>> n else v.sshiftRight n := by
  unfold srcResult
  cases l <;> cases lg <;> simp
  · unfold BitVec.sshiftRight
    rw [Int.shiftRight_eq_div_pow]
    congr 1
    rw [Int.fdiv_eq_ediv_of_nonneg _ (by positivity)]
    simp
  · apply BitVec.eq_of_toNat_eq; rw [BitVec.toNat_ushiftRight, Nat.shiftRight_eq_div_pow, BitVec.toNat_ofNat]
    exact Nat.mod_eq_of_lt (Nat.lt_of_le_of_lt (Nat.div_le_self _ _) v.isLt)
  all_goals (apply BitVec.eq_of_toNat_eq; rw [BitVec.toNat_shiftLeft, Nat.shiftLeft_eq, BitVec.toNat_ofNat])

theorem join_or (q r k n : Nat) (hk : k + n = 18) (hq : q < 2 ^ k) (hr : r < 2 ^ n) :
    q ||| r * 2 ^ k = q + r * 2 ^ k ∧ q + r * 2 ^ k < 2 ^ 18 := by
  refine ⟨by rw [Nat.mul_comm, Nat.or_comm, ← Nat.two_pow_add_eq_or_of_lt hq, Nat.add_comm], ?_⟩
  have : (2 ^ 18 : Nat) = 2 ^ n * 2 ^ k := by rw [← Nat.pow_add]; congr 1; omega
  rw [this]
  calc q + r * 2 ^ k < 2 ^ k + r * 2 ^ k := by omega
    _ = (r + 1) * 2 ^ k := by ring
    _ ≤ 2 ^ n * 2 ^ k := Nat.mul_le_mul_right _ hr

theorem rrcResult_eq (v : Word) (n : Nat) (l : Bool) (h : n < 16) :
    rrcResult v n l = if l then v.rotateLeft n else v.rotateRight n := by
  have hv := v.isLt
  have hmod : ∀ k n : Nat, k + n = 18 → v.toNat * 2 ^ k % 2 ^ 18 = (v.toNat % 2 ^ n) * 2 ^ k := by
    intro k n hk
    have : (2 ^ 18 : Nat) = 2 ^ n * 2 ^ k := by rw [← Nat.pow_add]; congr 1; omega
    rw [this, Nat.mul_mod_mul_right]
  have hdiv : ∀ k n : Nat, k + n = 18 → v.toNat / 2 ^ n < 2 ^ k := by
    intro k n hk
    rw [Nat.div_lt_iff_lt_mul (by positivity), ← Nat.pow_add, hk]; exact hv
  unfold rrcResult
  cases l <;> simp only [if_true, if_false, Bool.false_eq_true]
  · apply BitVec.eq_of_toNat_eq
    rw [BitVec.toNat_ofNat, BitVec.toNat_rotateRight, Nat.mod_eq_of_lt (by omega : n < 18), Nat.shiftRight_eq_div_pow, Nat.shiftLeft_eq]
    rw [hmod (18 - n) n (by omega)]
    obtain ⟨h1, h2⟩ := join_or _ _ (18 - n) n (by omega) (hdiv (18 - n) n (by omega)) (Nat.mod_lt v.toNat (by positivity))
    rw [h1, Nat.mod_eq_of_lt h2]
  · apply BitVec.eq_of_toNat_eq
    rw [BitVec.toNat_ofNat, BitVec.toNat_rotateLeft, Nat.mod_eq_of_lt (by omega : n < 18), Nat.shiftRight_eq_div_pow, Nat.shiftLeft_eq]
    rw [hmod n (18 - n) (by omega)]
    obtain ⟨h1, h2⟩ := join_or _ _ n (18 - n) (by omega) (hdiv n (18 - n) (by omega)) (Nat.mod_lt v.toNat (by positivity))
    rw [Nat.or_comm, h1, Nat.add_comm, Nat.mod_eq_of_lt h2]

end Sys2Proof.Machine
end

