-- ==== Sys2Proof/Laws/Memory.lean ====
section
/-! SUPPORT. Laws of main memory (20_memory.md R62): read after write, and that a write keeps the canonical form. -/

namespace Sys2Proof.Machine

theorem Memory.wfFrom_mono {lo lo' : Nat} (h : lo ≤ lo') : ∀ {m : Memory}, Memory.wfFrom lo' m = true → Memory.wfFrom lo m = true
  | [], _ => rfl
  | (a, w) :: rest, hm => by
    simp only [Memory.wfFrom, Bool.and_eq_true, decide_eq_true_eq] at hm ⊢
    exact ⟨⟨⟨by omega, hm.1.1.2⟩, hm.1.2⟩, hm.2⟩

/-- An address below the first cell reads 0. -/
theorem Memory.read_below {lo a : Nat} (h : a < lo) : ∀ {m : Memory}, Memory.wfFrom lo m = true → Memory.read m a = 0
  | [], _ => rfl
  | (b, w) :: rest, hm => by
    simp only [Memory.wfFrom, Bool.and_eq_true, decide_eq_true_eq] at hm
    have hb : b ≠ a := by omega
    simp only [Memory.read, if_neg hb]
    exact Memory.read_below (by omega) hm.2

/-- Read after write, for a memory in canonical form (20_memory.md R62). -/
theorem Memory.read_write_from {lo : Nat} (a : Nat) (w : Word) (x : Nat) :
    ∀ {m : Memory}, Memory.wfFrom lo m = true → (Memory.write m a w).read x = if x = a then w else Memory.read m x
  | [], _ => by
    by_cases hx : x = a
    · subst hx
      by_cases hw : w = 0
      · subst hw; simp [Memory.write, Memory.read]
      · simp only [Memory.write, if_neg hw, Memory.read, if_true]
    · by_cases hw : w = 0
      · subst hw; simp [Memory.write, Memory.read]
      · simp only [Memory.write, if_neg hw, Memory.read, if_neg hx, if_neg (Ne.symm hx)]
  | (b, v) :: rest, hm => by
    simp only [Memory.wfFrom, Bool.and_eq_true, decide_eq_true_eq] at hm
    have ih := Memory.read_write_from a w x hm.2
    have below : ∀ y, y < b + 1 → Memory.read rest y = 0 := fun y hy => Memory.read_below hy hm.2
    simp only [Memory.write]
    split
    next hab =>
      split
      next hw =>
        subst hw
        split
        next hx =>
          have : Memory.read rest x = 0 := below x (by omega)
          have hb : b ≠ x := by omega
          simp [Memory.read, this, hb]
        next => rfl
      next =>
        by_cases hx : x = a
        · subst hx; simp [Memory.read]
        · simp [Memory.read, hx, Ne.symm hx]
    next hab =>
      split
      next hab' =>
        subst hab'
        split
        next hw =>
          subst hw
          split
          next hx => subst hx; exact below x (by omega)
          next hx => simp [Memory.read, Ne.symm hx]
        next =>
          by_cases hx : x = a
          · subst hx; simp [Memory.read]
          · simp [Memory.read, hx, Ne.symm hx]
      next hne =>
        simp only [Memory.read, ih]
        split
        next hbx => rw [if_neg (by omega)]
        next => rfl

theorem Memory.wfFrom_write {a : Nat} {w : Word} (ha : a < Config.memWords) :
    ∀ {lo : Nat} {m : Memory}, lo ≤ a → Memory.wfFrom lo m = true → Memory.wfFrom lo (Memory.write m a w) = true
  | lo, [], hlo, _ => by
    by_cases hw : w = 0
    · subst hw; simp [Memory.write, Memory.wfFrom]
    · simp only [Memory.write, if_neg hw, Memory.wfFrom, Bool.and_eq_true, decide_eq_true_eq]
      exact ⟨⟨⟨hlo, ha⟩, hw⟩, trivial⟩
  | lo, (b, v) :: rest, hlo, hm => by
    simp only [Memory.wfFrom, Bool.and_eq_true, decide_eq_true_eq] at hm
    have hr := hm.2
    simp only [Memory.write]
    split
    next hab =>
      split
      next => simp only [Memory.wfFrom, Bool.and_eq_true, decide_eq_true_eq]; exact hm
      next hw =>
        simp only [Memory.wfFrom, Bool.and_eq_true, decide_eq_true_eq]
        exact ⟨⟨⟨hlo, ha⟩, hw⟩, ⟨⟨by omega, hm.1.1.2⟩, hm.1.2⟩, hr⟩
    next hab =>
      split
      next hab' =>
        subst hab'
        split
        next => exact Memory.wfFrom_mono (by omega) hr
        next hw =>
          simp only [Memory.wfFrom, Bool.and_eq_true, decide_eq_true_eq]
          exact ⟨⟨⟨hlo, ha⟩, hw⟩, hr⟩
      next =>
        simp only [Memory.wfFrom, Bool.and_eq_true, decide_eq_true_eq]
        exact ⟨hm.1, Memory.wfFrom_write ha (by omega) hr⟩

/-- Read after write: the word written at its address, every other address as before (20_memory.md R62). -/
theorem Memory.read_write {m : Memory} (h : m.wf = true) (a : Nat) (w : Word) (x : Nat) :
    (m.write a w).read x = if x = a then w else m.read x :=
  Memory.read_write_from a w x h

/-- A write to an address of the memory keeps the canonical form. -/
theorem Memory.wf_write {m : Memory} (h : m.wf = true) {a : Nat} (ha : a < Config.memWords) (w : Word) :
    (m.write a w).wf = true :=
  Memory.wfFrom_write ha (Nat.zero_le a) h

/-- Two memories in canonical form that read alike from `lo` on are equal data. -/
theorem Memory.ext_from : ∀ {lo : Nat} {m n : Memory}, Memory.wfFrom lo m = true → Memory.wfFrom lo n = true →
    (∀ a, Memory.read m a = Memory.read n a) → m = n
  | _, [], [], _, _, _ => rfl
  | lo, [], (b, v) :: rest, _, hn, h => by
    simp only [Memory.wfFrom, Bool.and_eq_true, decide_eq_true_eq] at hn
    have := h b
    simp [Memory.read] at this
    exact absurd this.symm hn.1.2
  | lo, (a, w) :: rest, [], hm, _, h => by
    simp only [Memory.wfFrom, Bool.and_eq_true, decide_eq_true_eq] at hm
    have := h a
    simp [Memory.read] at this
    exact absurd this hm.1.2
  | lo, (a, w) :: rest, (b, v) :: rest', hm, hn, h => by
    have hm' := hm
    have hn' := hn
    simp only [Memory.wfFrom, Bool.and_eq_true, decide_eq_true_eq] at hm hn
    have ra : Memory.read ((a, w) :: rest) a = w := by simp [Memory.read]
    have rb : Memory.read ((b, v) :: rest') b = v := by simp [Memory.read]
    have hab : a = b := by
      rcases Nat.lt_trichotomy a b with hlt | heq | hgt
      · have : Memory.read ((b, v) :: rest') a = 0 := by
          simp only [Memory.read, if_neg (show ¬ b = a by omega)]
          exact Memory.read_below (by omega) hn.2
        exact absurd (ra.symm.trans ((h a).trans this)) hm.1.2
      · exact heq
      · have : Memory.read ((a, w) :: rest) b = 0 := by
          simp only [Memory.read, if_neg (show ¬ a = b by omega)]
          exact Memory.read_below (by omega) hm.2
        exact absurd (rb.symm.trans ((h b).symm.trans this)) hn.1.2
    subst hab
    have hwv : w = v := ra.symm.trans ((h a).trans rb)
    subst hwv
    have : rest = rest' := by
      refine Memory.ext_from hm.2 hn.2 (fun x => ?_)
      by_cases hx : a = x
      · subst hx
        rw [Memory.read_below (by omega) hm.2, Memory.read_below (by omega) hn.2]
      · have := h x
        simpa [Memory.read, hx] using this
    rw [this]

/-- Equal memories are equal data: the canonical form is one form. -/
theorem Memory.ext_of_wf {m n : Memory} (hm : m.wf = true) (hn : n.wf = true) (h : ∀ a, m.read a = n.read a) : m = n :=
  Memory.ext_from hm hn h

/-- An address past the memory reads 0. -/
theorem Memory.read_past_from {a : Nat} (ha : Config.memWords ≤ a) :
    ∀ {lo : Nat} {m : Memory}, Memory.wfFrom lo m = true → Memory.read m a = 0
  | _, [], _ => rfl
  | lo, (b, w) :: rest, hm => by
    simp only [Memory.wfFrom, Bool.and_eq_true, decide_eq_true_eq] at hm
    simp only [Memory.read, if_neg (show ¬ b = a by have := hm.1.1.2; omega)]
    exact Memory.read_past_from ha hm.2

/-- The block of an address reads the 8 words from its base (20_memory.md R62). -/
theorem Memory.block_getD (m : Memory) (a j : Nat) (hj : j < Config.lineWords) :
    (m.block a).getD j 0 = m.read (blockBase a + j) := by
  simp [Memory.block, List.getD_eq_getElem?_getD, List.getElem?_range hj]

@[simp] theorem Memory.block_length (m : Memory) (a : Nat) : (m.block a).length = Config.lineWords := by
  simp [Memory.block]

end Sys2Proof.Machine
end

