-- ==== Sys2Proof/Laws/MemSys.lean ====
section
/-! SUPPORT. Laws of the memory side (20_memory.md): what a controller move, a fill, a read and a write of the engine can do
in a state that meets `MemSys.Inv`, said once through the program's view. -/

namespace Sys2Proof.Machine

/-! ### Blocks and pending writes -/

theorem blockBase_add {t j : Nat} (ht : t % Config.lineWords = 0) (hj : j < Config.lineWords) :
    blockBase (t + j) = t := by
  simp only [blockBase, Config.lineWords] at *; omega

theorem blockBase_mod (a : Nat) : blockBase a % Config.lineWords = 0 := by
  simp [blockBase]

theorem blockBase_lt {a : Nat} (h : a < Config.memWords) : blockBase a < Config.memWords := by
  simp only [blockBase, Config.lineWords, Config.memWords] at *; omega

theorem blockBase_le (a : Nat) : blockBase a ≤ a ∧ a < blockBase a + Config.lineWords := by
  simp only [blockBase, Config.lineWords]; omega

theorem Line.covers_iff {L : Line} (h : L.tag % Config.lineWords = 0) (a : Nat) :
    L.covers a = true ↔ L.tag = blockBase a := by
  simp only [Line.covers, Bool.and_eq_true, decide_eq_true_eq, blockBase, Config.lineWords] at *; omega

@[simp] theorem overlay_nil (a : Nat) (w : Word) : overlay [] a w = w := rfl

@[simp] theorem overlay_cons (e : Elem) (es : List Elem) (a : Nat) (w : Word) :
    overlay (e :: es) a w = overlay es a (if e.address = a then e.word else w) := rfl

theorem overlay_snoc (es : List Elem) (e : Elem) (a : Nat) (w : Word) :
    overlay (es ++ [e]) a w = if e.address = a then e.word else overlay es a w := by
  simp [overlay, List.foldl_append]

theorem overlay_of_forall_ne : ∀ {es : List Elem} {a : Nat} (w : Word), (∀ e ∈ es, e.address ≠ a) → overlay es a w = w
  | [], _, _, _ => rfl
  | e :: es, a, w, h => by
    rw [overlay_cons, if_neg (h e (List.mem_cons_self ..))]
    exact overlay_of_forall_ne w (fun e' he' => h e' (List.mem_cons_of_mem _ he'))

/-- Equal pending lists over memories that read alike show the same words. -/
theorem overlay_congr (es : List Elem) (a : Nat) {w w' : Word} (h : w = w') : overlay es a w = overlay es a w' := by
  rw [h]

/-! ### Lines -/

theorem updateFirst_none {p : Line → Bool} {f : Line → Line} :
    ∀ {ls : List Line}, (∀ L ∈ ls, p L = false) → updateFirst p f ls = ls
  | [], _ => rfl
  | L :: rest, h => by
    simp [updateFirst, h L (List.mem_cons_self ..), updateFirst_none (fun K hK => h K (List.mem_cons_of_mem _ hK))]

/-- Where the test picks lines of one tag only and tags are distinct, changing the first line that meets it changes
every line that meets it. -/
theorem updateFirst_eq_map {p : Line → Bool} {f : Line → Line} {t : Nat} :
    ∀ {ls : List Line}, (ls.map Line.tag).Nodup → (∀ L ∈ ls, p L = true ↔ L.tag = t) →
      updateFirst p f ls = ls.map (fun L => if L.tag = t then f L else L)
  | [], _, _ => rfl
  | L :: rest, hn, hp => by
    have hL := hp L (List.mem_cons_self ..)
    have hn' : (∀ K ∈ rest, L.tag ≠ K.tag) ∧ (rest.map Line.tag).Nodup := by
      simpa [List.nodup_cons, eq_comm] using hn
    have ih := updateFirst_eq_map (f := f) hn'.2 (fun K hK => hp K (List.mem_cons_of_mem _ hK))
    by_cases h : L.tag = t
    · have hrest : rest.map (fun K => if K.tag = t then f K else K) = rest := by
        refine (List.map_congr_left (fun K hK => ?_)).trans (List.map_id rest)
        rw [if_neg (by rw [← h]; exact fun hc => hn'.1 K hK hc.symm)]; rfl
      simp [updateFirst, hL.2 h, h, hrest]
    · have hpf : p L = false := by
        cases hpL : p L with
        | false => rfl
        | true => exact absurd (hL.1 hpL) h
      simp [updateFirst, hpf, h, ih]

theorem MemSys.Inv.covers_iff {m : MemSys} (h : m.Inv) {L : Line} (hL : L ∈ m.l1) (a : Nat) :
    L.covers a = true ↔ L.tag = blockBase a :=
  Line.covers_iff (h.lineForm L hL).1 a

/-- A hit returns the line of the block (20_memory.md R64). -/
theorem MemSys.Inv.lookup_some {m : MemSys} (h : m.Inv) {a : Nat} {L : Line} (hL : lookup m.l1 a = some L) :
    L ∈ m.l1 ∧ L.tag = blockBase a := by
  have hm := List.mem_of_find?_eq_some hL
  have hc : L.covers a = true := List.find?_some (p := fun K : Line => K.covers a) hL
  exact ⟨hm, (h.covers_iff hm a).1 hc⟩

/-- A miss: no line holds the block (20_memory.md R64). -/
theorem MemSys.Inv.lookup_none {m : MemSys} (h : m.Inv) {a : Nat} (hL : lookup m.l1 a = none) :
    ∀ L ∈ m.l1, L.tag ≠ blockBase a := by
  intro L hm ht
  have := List.find?_eq_none.1 hL L hm
  exact this ((h.covers_iff hm a).2 ht)

/-- At most one line holds a tag (20_memory.md R64). -/
theorem MemSys.Inv.line_unique {m : MemSys} (h : m.Inv) {K L : Line} (hK : K ∈ m.l1) (hL : L ∈ m.l1)
    (ht : K.tag = L.tag) : K = L :=
  List.inj_on_of_nodup_map h.tagsDistinct hK hL ht

/-- A cached word is the word the program sees (20_memory.md R65, R78). -/
theorem MemSys.Inv.cacheRead_some {m : MemSys} (h : m.Inv) {a : Nat} {v : Word} (hr : m.cacheRead a = some v) :
    v = m.view a := by
  unfold MemSys.cacheRead at hr
  split at hr
  · cases hr
  next L hL =>
    obtain ⟨hm, ht⟩ := h.lookup_some hL
    have hb := blockBase_le a
    have hj : a - L.tag < Config.lineWords := by rw [ht]; omega
    have hc := h.coherent L hm _ hj
    have : L.tag + (a - L.tag) = a := by rw [ht]; omega
    rw [this] at hc
    cases hr
    exact hc

/-- An address whose block is not cached has no pending write (20_memory.md R71, R78). -/
theorem MemSys.Inv.not_pending {m : MemSys} (h : m.Inv) {t : Nat} (ht : ∀ L ∈ m.l1, L.tag ≠ t) :
    ∀ e ∈ m.pending, blockBase e.address ≠ t := by
  intro e he hb
  obtain ⟨_, htag, L, hL, hLt⟩ := h.elemForm e he
  exact ht L hL (by rw [hLt, htag, hb])

theorem MemSys.Inv.view_uncached {m : MemSys} (h : m.Inv) {a : Nat} (ht : ∀ L ∈ m.l1, L.tag ≠ blockBase a) :
    m.view a = m.mem.read a :=
  overlay_of_forall_ne _ (fun e he hc => h.not_pending ht e he (by rw [hc]))

/-! ### The controller (R72, R73) -/

/-- TAKE moves the oldest element into the in-flight slot; nothing the program or the host sees changes (R72). -/
theorem MemSys.take_shows {m m' : MemSys} (h : m.Inv) (ht : m.take = some m') : m'.Shows m.view := by
  unfold MemSys.take at ht
  split at ht
  next e rest hi hw =>
    cases ht
    have hp : MemSys.pending { m with inflight := some e, wb := rest } = m.pending := by
      simp [MemSys.pending, hi, hw]
    refine ⟨⟨h.memWf, ?_, h.lineCap, h.tagsDistinct, h.lineForm, ?_, ?_, ?_⟩, fun a => ?_⟩
    · have := h.wbCap; simp only [hw, List.length_cons] at this; exact Nat.le_of_succ_le this
    · rw [hp]; exact h.elemForm
    · rw [hp]; exact h.writesCount
    · intro L hL j hj
      rw [h.coherent L hL j hj, MemSys.view, MemSys.view, hp]
    · rw [MemSys.view, MemSys.view, hp]
  · cases ht

/-- RETIRE writes main memory and counts the line's write down; the program's view does not change (R73). -/
theorem MemSys.retire_shows {m m' : MemSys} (h : m.Inv) (hr : m.retire = some m') : m'.Shows m.view := by
  unfold MemSys.retire at hr
  split at hr
  · cases hr
  next e hi =>
    cases hr
    have hp : m.pending = e :: m.wb := by simp [MemSys.pending, hi]
    obtain ⟨hea, het, -⟩ := h.elemForm e (by rw [hp]; exact List.mem_cons_self ..)
    have hmap : updateWrites m.l1 e.address =
        m.l1.map (fun L => if L.tag = blockBase e.address then { L with writes := L.writes - 1 } else L) :=
      updateFirst_eq_map h.tagsDistinct (fun L _ => by simp)
    have hview : ∀ a, MemSys.view { m with
        mem := m.mem.write e.address e.word, l1 := updateWrites m.l1 e.address, inflight := none } a = m.view a := by
      intro a
      simp only [MemSys.view, hp, overlay_cons]
      simp only [MemSys.pending, Option.toList_none, List.nil_append, Memory.read_write h.memWf]
      by_cases ha : a = e.address
      · simp [ha]
      · simp [ha, Ne.symm ha]
    have hmem : ∀ L ∈ updateWrites m.l1 e.address, ∃ K ∈ m.l1, L.tag = K.tag ∧ L.words = K.words ∧
        L.writes = if K.tag = blockBase e.address then K.writes - 1 else K.writes := by
      intro L hL
      rw [hmap, List.mem_map] at hL
      obtain ⟨K, hK, rfl⟩ := hL
      refine ⟨K, hK, ?_, ?_, ?_⟩ <;> split <;> rfl
    refine ⟨⟨Memory.wf_write h.memWf hea e.word, h.wbCap, ?_, ?_, ?_, ?_, ?_, ?_⟩, hview⟩
    · show (updateWrites m.l1 e.address).length ≤ _
      rw [hmap, List.length_map]; exact h.lineCap
    · show ((updateWrites m.l1 e.address).map Line.tag).Nodup
      have : (updateWrites m.l1 e.address).map Line.tag = m.l1.map Line.tag := by
        rw [hmap, List.map_map]
        refine List.map_congr_left (fun L _ => ?_)
        simp only [Function.comp]; split <;> rfl
      rw [this]; exact h.tagsDistinct
    · intro L hL
      obtain ⟨K, hK, h1, h2, -⟩ := hmem L hL
      rw [h1, h2]; exact h.lineForm K hK
    · intro e' he'
      obtain ⟨h1, h2, L, hL, hLt⟩ := h.elemForm e' (by
        rw [hp]; simp only [MemSys.pending, Option.toList_none, List.nil_append] at he'
        exact List.mem_cons_of_mem _ he')
      refine ⟨h1, h2, if L.tag = blockBase e.address then { L with writes := L.writes - 1 } else L, ?_, ?_⟩
      · show _ ∈ updateWrites m.l1 e.address
        rw [hmap]; exact List.mem_map.2 ⟨L, hL, rfl⟩
      · split <;> exact hLt
    · intro L hL
      obtain ⟨K, hK, h1, -, h3⟩ := hmem L hL
      have hc := h.writesCount K hK
      rw [hp, List.countP_cons] at hc
      simp only [MemSys.pending, Option.toList_none, List.nil_append]
      rw [h3, h1, hc, het]
      by_cases hk : K.tag = blockBase e.address
      · simp [hk]
      · simp [hk, Ne.symm hk]
    · intro L hL j hj
      obtain ⟨K, hK, h1, h2, -⟩ := hmem L hL
      rw [hview, h1, h2]; exact h.coherent K hK j hj

/-- One controller move keeps the invariant and the program's view (20_memory.md R75, R78). -/
theorem MemSys.ctrlMove_shows {m : MemSys} (h : m.Inv) : m.ctrlMove.Shows m.view := by
  unfold MemSys.ctrlMove
  split
  next m' hr => exact MemSys.retire_shows h hr
  next =>
    split
    next m' ht => exact MemSys.take_shows h ht
    next => exact ⟨h, fun _ => rfl⟩

theorem MemSys.Shows.trans {m m' : MemSys} {f : Nat → Word} (h : m.Shows f) (h' : m'.Shows m.view) : m'.Shows f :=
  ⟨h'.1, fun a => (h'.2 a).trans (h.2 a)⟩

theorem MemSys.Inv.shows {m : MemSys} (h : m.Inv) : m.Shows m.view := ⟨h, fun _ => rfl⟩

theorem MemSys.ctrlMoves_shows : ∀ (n : Nat) {m : MemSys}, m.Inv → (MemSys.ctrlMoves n m).Shows m.view
  | 0, _, h => h.shows
  | n + 1, _, h => (MemSys.ctrlMove_shows h).trans (MemSys.ctrlMoves_shows n (MemSys.ctrlMove_shows h).1)

/-- The controller's turns are no part of what the program sees. -/
theorem MemSys.Inv.withTurns {m : MemSys} (h : m.Inv) (ts : List Nat) : MemSys.Inv { m with ctrlTurns := ts } :=
  ⟨h.memWf, h.wbCap, h.lineCap, h.tagsDistinct, h.lineForm, h.elemForm, h.writesCount, h.coherent⟩

theorem MemSys.startTurn_shows {m : MemSys} (h : m.Inv) : m.startTurn.Shows m.view := by
  unfold MemSys.startTurn
  split
  next => exact MemSys.ctrlMove_shows h
  next n rest _ => exact MemSys.ctrlMoves_shows n (h.withTurns rest)

/-- Each move that finds something pending brings the drain one move nearer (20_memory.md R72, R73). -/
theorem MemSys.ctrlMove_pendingMoves (m : MemSys) : m.ctrlMove.pendingMoves = m.pendingMoves - 1 := by
  rcases m with ⟨mem, l1, wb, inflight, draws, turns⟩
  cases inflight with
  | some e => simp [MemSys.ctrlMove, MemSys.retire, MemSys.pendingMoves]
  | none =>
    cases wb with
    | nil => simp [MemSys.ctrlMove, MemSys.retire, MemSys.take, MemSys.pendingMoves]
    | cons e rest =>
      simp only [MemSys.ctrlMove, MemSys.retire, MemSys.take, MemSys.pendingMoves, List.length_cons]; omega

theorem MemSys.ctrlMoves_pendingMoves : ∀ (n : Nat) (m : MemSys), (MemSys.ctrlMoves n m).pendingMoves = m.pendingMoves - n
  | 0, _ => rfl
  | n + 1, m => by
    rw [MemSys.ctrlMoves, MemSys.ctrlMoves_pendingMoves n, MemSys.ctrlMove_pendingMoves]; omega

theorem MemSys.pendingMoves_eq_zero {m : MemSys} : m.pendingMoves = 0 ↔ m.wb = [] ∧ m.inflight = none := by
  rcases m with ⟨mem, l1, wb, inflight, draws, turns⟩
  cases inflight <;> cases wb <;> simp [MemSys.pendingMoves]

/-- The drain empties the buffer and the in-flight slot (20_memory.md R77). -/
theorem MemSys.drain_empty (m : MemSys) : m.drain.wb = [] ∧ m.drain.inflight = none := by
  rw [← MemSys.pendingMoves_eq_zero, MemSys.drain, MemSys.ctrlMoves_pendingMoves]; omega

theorem MemSys.drain_shows {m : MemSys} (h : m.Inv) : m.drain.Shows m.view := MemSys.ctrlMoves_shows _ h

/-- With nothing pending the host sees what the program sees (20_memory.md R79). -/
theorem MemSys.view_of_drained {m : MemSys} (hw : m.wb = []) (hi : m.inflight = none) (a : Nat) :
    m.view a = m.mem.read a := by
  simp [MemSys.view, MemSys.pending, hw, hi]

/-! ### A clean line is always there (R76) -/

/-- Lines of distinct tags, each with a pending element, are at most as many as the elements. -/
theorem dirty_lines_le : ∀ (ls : List Line) (es : List Elem), (ls.map Line.tag).Nodup →
    (∀ L ∈ ls, ∃ e ∈ es, e.lineTag = L.tag) → ls.length ≤ es.length := by
  intro ls es hn h
  have hsub : ls.map Line.tag ⊆ es.map Elem.lineTag := by
    intro t ht
    obtain ⟨L, hL, rfl⟩ := List.mem_map.1 ht
    obtain ⟨e, he, het⟩ := h L hL
    exact List.mem_map.2 ⟨e, he, het⟩
  have := (List.subperm_of_subset hn hsub).length_le
  simpa using this

/-- When the cache is full some slot holds a clean line, so no fill stalls (20_memory.md R76). -/
theorem MemSys.Inv.cleanSlots_ne_nil {m : MemSys} (h : m.Inv) (hfull : Config.cacheLines ≤ m.l1.length) :
    cleanSlots m.l1 ≠ [] := by
  intro hnil
  have hdirty : ∀ L ∈ m.l1, ∃ e ∈ m.pending, e.lineTag = L.tag := by
    intro L hL
    obtain ⟨i, hi, rfl⟩ := List.mem_iff_getElem.1 hL
    have hclean : slotClean m.l1 i = false := by
      have : i ∉ cleanSlots m.l1 := by rw [hnil]; exact List.not_mem_nil
      simpa [cleanSlots, hi] using this
    have hw : (m.l1[i]).writes ≠ 0 := by
      simpa [slotClean, List.getElem?_eq_getElem hi] using hclean
    rw [h.writesCount _ hL] at hw
    obtain ⟨e, he, het⟩ := List.countP_pos_iff.1 (Nat.pos_of_ne_zero hw)
    exact ⟨e, he, by simpa using het⟩
  have hle := dirty_lines_le m.l1 m.pending h.tagsDistinct hdirty
  have hcap := h.wbCap
  have hp : m.pending.length ≤ 1 + m.wb.length := by
    simp only [MemSys.pending, List.length_append]
    cases m.inflight <;> simp
  simp only [Config.cacheLines, Config.wbCap] at *
  omega

theorem pickSlot_mem (draw first : Nat) (slots : List Nat) (h : slots ≠ []) : pickSlot draw first slots ∈ slots := by
  have hlt : draw % slots.length < slots.length := Nat.mod_lt _ (List.length_pos_iff.2 h)
  simp only [pickSlot, List.getD_eq_getElem?_getD, List.getElem?_eq_getElem hlt, Option.getD_some]
  exact List.getElem_mem hlt

theorem mem_cleanSlots {ls : List Line} {i : Nat} (h : i ∈ cleanSlots ls) :
    ∃ hi : i < ls.length, (ls[i]).writes = 0 := by
  simp only [cleanSlots, List.mem_filter, List.mem_range] at h
  refine ⟨h.1, ?_⟩
  simpa [slotClean, List.getElem?_eq_getElem h.1] using h.2

/-! ### Fill (R67, R68) -/

/-- The words of a new line are what the program sees in its block. -/
theorem MemSys.Inv.block_coherent {m : MemSys} (h : m.Inv) {a : Nat} (hmiss : ∀ L ∈ m.l1, L.tag ≠ blockBase a)
    {j : Nat} (hj : j < Config.lineWords) : (m.mem.block a).getD j 0 = m.view (blockBase a + j) := by
  rw [Memory.block_getD _ _ _ hj]
  refine (h.view_uncached ?_).symm
  rw [blockBase_add (blockBase_mod a) hj]; exact hmiss

/-- Lines replaced by a list that keeps every pending line and adds the fresh line of a missing block keep the
invariant. -/
theorem MemSys.Inv.withLines {m : MemSys} (h : m.Inv) {a : Nat} (ha : a < Config.memWords)
    (hmiss : ∀ L ∈ m.l1, L.tag ≠ blockBase a) (ls : List Line) (d : Nat) (hlen : ls.length ≤ Config.cacheLines)
    (hnod : (ls.map Line.tag).Nodup)
    (hmem : ∀ L ∈ ls, L ∈ m.l1 ∨ L = { tag := blockBase a, words := m.mem.block a, writes := 0 })
    (hkeep : ∀ e ∈ m.pending, ∃ L ∈ ls, L.tag = e.lineTag) :
    MemSys.Shows { m with l1 := ls, draws := d } m.view := by
  refine ⟨⟨h.memWf, h.wbCap, hlen, hnod, ?_, ?_, ?_, ?_⟩, fun _ => rfl⟩
  · intro L hL
    rcases hmem L hL with hL' | rfl
    · exact h.lineForm L hL'
    · exact ⟨blockBase_mod a, blockBase_lt ha, Memory.block_length ..⟩
  · intro e he
    exact ⟨(h.elemForm e he).1, (h.elemForm e he).2.1, hkeep e he⟩
  · intro L hL
    rcases hmem L hL with hL' | rfl
    · exact h.writesCount L hL'
    · refine (List.countP_eq_zero.2 (fun e he => ?_)).symm
      have hb := h.not_pending hmiss e he
      rw [← (h.elemForm e he).2.1] at hb
      simpa using hb
  · intro L hL j hj
    rcases hmem L hL with hL' | rfl
    · exact h.coherent L hL' j hj
    · exact h.block_coherent hmiss hj

/-- A fill for a missing block adds its line, may replace a clean one, and changes nothing the program sees
(20_memory.md R67, R68, R78). -/
theorem MemSys.Inv.fill_spec {m : MemSys} (h : m.Inv) {a : Nat} (ha : a < Config.memWords)
    (hmiss : ∀ L ∈ m.l1, L.tag ≠ blockBase a) :
    ∃ m', m.fill a = some m' ∧ m'.Shows m.view ∧ m'.wb = m.wb ∧ m'.inflight = m.inflight ∧ m'.mem = m.mem ∧
      m'.ctrlTurns = m.ctrlTurns ∧ ∃ L ∈ m'.l1, L.tag = blockBase a := by
  have hfresh : blockBase a ∉ m.l1.map Line.tag := by
    intro hc
    obtain ⟨L, hL, hLt⟩ := List.mem_map.1 hc
    exact hmiss L hL hLt
  unfold MemSys.fill MemSys.cacheAdd
  split
  next hlt =>
    refine ⟨_, rfl, ?_, rfl, rfl, rfl, rfl, _, List.mem_append_right _ (List.mem_singleton.2 rfl), rfl⟩
    refine h.withLines ha hmiss _ m.draws ?_ ?_ ?_ ?_
    · simp only [List.length_append, List.length_singleton]; exact hlt
    · rw [List.map_append]
      refine List.Nodup.append h.tagsDistinct (by simp) ?_
      intro t ht ht'
      simp only [List.map_cons, List.map_nil, List.mem_singleton] at ht'
      exact hfresh (ht' ▸ ht)
    · intro L hL
      simpa using hL
    · intro e he
      obtain ⟨-, -, L, hL, hLt⟩ := h.elemForm e he
      exact ⟨L, List.mem_append_left _ hL, hLt⟩
  next hge =>
    split
    next hnil => exact absurd hnil (h.cleanSlots_ne_nil (Nat.le_of_not_lt hge))
    next c cs hcs =>
      have hpick := pickSlot_mem (Config.evictDraw m.draws) c (c :: cs) (List.cons_ne_nil _ _)
      generalize pickSlot (Config.evictDraw m.draws) c (c :: cs) = i at hpick
      rw [← hcs] at hpick
      obtain ⟨hi, hw⟩ := mem_cleanSlots hpick
      refine ⟨_, rfl, ?_, rfl, rfl, rfl, rfl, { tag := blockBase a, words := m.mem.block a, writes := 0 },
        List.mem_iff_getElem.2 ⟨i, by simpa using hi, by simp⟩, rfl⟩
      refine h.withLines ha hmiss _ (m.draws + 1) ?_ ?_ ?_ ?_
      · rw [List.length_set]; exact h.lineCap
      · rw [List.map_set]; exact h.tagsDistinct.set hfresh
      · intro L hL
        rcases List.mem_or_eq_of_mem_set hL with h' | h'
        · exact Or.inl h'
        · exact Or.inr h'
      · intro e he
        obtain ⟨-, -, L, hL, hLt⟩ := h.elemForm e he
        obtain ⟨n, hn, rfl⟩ := List.mem_iff_getElem.1 hL
        have hne : i ≠ n := by
          rintro rfl
          rw [h.writesCount _ hL] at hw
          exact List.countP_eq_zero.1 hw e he (by simp [hLt])
        exact ⟨m.l1[n], List.mem_iff_getElem.2 ⟨n, by simpa using hn, by simp [hne]⟩, hLt⟩

/-! ### The engine's read (R69) -/

theorem MemSys.Inv.cacheRead_of_line {m : MemSys} (h : m.Inv) {a : Nat} (hl : ∃ L ∈ m.l1, L.tag = blockBase a) :
    m.cacheRead a = some (m.view a) := by
  obtain ⟨L, hL, ht⟩ := hl
  cases hr : m.cacheRead a with
  | some v => rw [h.cacheRead_some hr]
  | none =>
    unfold MemSys.cacheRead at hr
    split at hr
    next hn => exact absurd ht (h.lookup_none hn L hL)
    · cases hr

theorem MemSys.Inv.cacheRead_none {m : MemSys} (h : m.Inv) {a : Nat} (hr : m.cacheRead a = none) :
    ∀ L ∈ m.l1, L.tag ≠ blockBase a := by
  intro L hL ht
  rw [h.cacheRead_of_line ⟨L, hL, ht⟩] at hr
  cases hr

/-- A read in range gives the word the program sees, and changes nothing it sees; it neither holds nor faults
(20_memory.md R69, R78). -/
theorem MemSys.Inv.memRead_spec {m : MemSys} (h : m.Inv) {a : Word} (ha : a.toNat < Config.memWords) :
    ∃ m', m.memRead a = .got (m.view a.toNat) m' ∧ m'.Shows m.view ∧ m'.wb = m.wb ∧ m'.inflight = m.inflight ∧
      m'.mem = m.mem := by
  unfold MemSys.memRead
  rw [if_pos (show inRange a = true by simpa [inRange] using ha)]
  split
  next v hv => exact ⟨m, by rw [h.cacheRead_some hv], h.shows, rfl, rfl, rfl⟩
  next hn =>
    obtain ⟨m', hf, hs, hw, hi, hm, -, hl⟩ := h.fill_spec ha (h.cacheRead_none hn)
    rw [hf]
    refine ⟨m', ?_, hs, hw, hi, hm⟩
    simp only [hs.1.cacheRead_of_line hl, Option.getD_some, hs.2]

/-- A read out of range raises the address fault before anything changes (20_memory.md R61). -/
theorem MemSys.memRead_raise (m : MemSys) {a : Word} (ha : ¬ a.toNat < Config.memWords) : m.memRead a = .raise := by
  unfold MemSys.memRead
  rw [if_neg (by simpa [inRange] using ha)]

/-! ### The engine's write (R70) -/

/-- A write hit appends one element and changes one word of the program's view (20_memory.md R66). -/
theorem MemSys.Inv.cacheWrite_spec {m : MemSys} (h : m.Inv) {a : Nat} (ha : a < Config.memWords)
    (hl : ∃ L ∈ m.l1, L.tag = blockBase a) (hroom : m.wb.length < Config.wbCap) (w : Word) :
    ∃ m', m.cacheWrite w a = some m' ∧ m'.Shows (fun x => if x = a then w else m.view x) ∧ m'.mem = m.mem := by
  obtain ⟨L₀, hL₀, ht₀⟩ := hl
  unfold MemSys.cacheWrite
  split
  next hn => exact absurd ht₀ (h.lookup_none hn L₀ hL₀)
  next L hL =>
    obtain ⟨hLm, hLt⟩ := h.lookup_some hL
    refine ⟨_, rfl, ?_, rfl⟩
    have hmap : updateFirst (fun K => K.covers a) (fun K => K.store a w) m.l1 =
        m.l1.map (fun K => if K.tag = blockBase a then K.store a w else K) :=
      updateFirst_eq_map h.tagsDistinct (fun K hK => h.covers_iff hK a)
    rw [hmap]
    have hpend : MemSys.pending { m with
        l1 := m.l1.map (fun K => if K.tag = blockBase a then K.store a w else K),
        wb := m.wb ++ [{ address := a, word := w, lineTag := L.tag }] } =
        m.pending ++ [{ address := a, word := w, lineTag := L.tag }] := by
      simp [MemSys.pending]
    have hview : ∀ x, MemSys.view { m with
        l1 := m.l1.map (fun K => if K.tag = blockBase a then K.store a w else K),
        wb := m.wb ++ [{ address := a, word := w, lineTag := L.tag }] } x =
        if x = a then w else m.view x := by
      intro x
      rw [MemSys.view, hpend, overlay_snoc]
      simp only [eq_comm (a := a) (b := x)]
      rfl
    have hmem : ∀ K' ∈ m.l1.map (fun K => if K.tag = blockBase a then K.store a w else K), ∃ K ∈ m.l1,
        K'.tag = K.tag ∧ K' = (if K.tag = blockBase a then K.store a w else K) := by
      intro K' hK'
      obtain ⟨K, hK, rfl⟩ := List.mem_map.1 hK'
      exact ⟨K, hK, by split <;> rfl, rfl⟩
    refine ⟨⟨h.memWf, ?_, ?_, ?_, ?_, ?_, ?_, ?_⟩, hview⟩
    · simp only [List.length_append, List.length_singleton]; exact hroom
    · simpa using h.lineCap
    · have : (m.l1.map (fun K => if K.tag = blockBase a then K.store a w else K)).map Line.tag = m.l1.map Line.tag := by
        rw [List.map_map]
        refine List.map_congr_left (fun K _ => ?_)
        simp only [Function.comp]; split <;> rfl
      rw [this]; exact h.tagsDistinct
    · intro K' hK'
      obtain ⟨K, hK, h1, h2⟩ := hmem K' hK'
      have hf := h.lineForm K hK
      rw [h1]
      refine ⟨hf.1, hf.2.1, ?_⟩
      rw [h2]; split
      · simp only [Line.store, List.length_set]; exact hf.2.2
      · exact hf.2.2
    · intro e he
      rw [hpend] at he
      have htag : ∀ t, (∃ K ∈ m.l1, K.tag = t) →
          ∃ K' ∈ m.l1.map (fun K => if K.tag = blockBase a then K.store a w else K), K'.tag = t := by
        rintro t ⟨K, hK, rfl⟩
        exact ⟨_, List.mem_map.2 ⟨K, hK, rfl⟩, by split <;> rfl⟩
      rcases List.mem_append.1 he with he | he
      · obtain ⟨h1, h2, h3⟩ := h.elemForm e he
        exact ⟨h1, h2, htag _ h3⟩
      · rw [List.mem_singleton.1 he]
        exact ⟨ha, hLt, htag _ ⟨L, hLm, rfl⟩⟩
    · intro K' hK'
      obtain ⟨K, hK, h1, h2⟩ := hmem K' hK'
      rw [hpend, List.countP_append, h1, ← h.writesCount K hK, h2, hLt]
      by_cases hk : K.tag = blockBase a
      · simp [hk, Line.store]
      · simp [hk, Ne.symm hk]
    · intro K' hK' j hj
      obtain ⟨K, hK, h1, h2⟩ := hmem K' hK'
      have hb := blockBase_le a
      have hf := h.lineForm K hK
      rw [hview, h1, h2]
      by_cases hk : K.tag = blockBase a
      · rw [if_pos hk]
        by_cases hx : K.tag + j = a
        · rw [if_pos hx]
          have hj' : a - K.tag = j := by omega
          have hlt : j < K.words.length := by rw [hf.2.2]; exact hj
          simp [Line.store, List.getD_eq_getElem?_getD, hj', hlt]
        · rw [if_neg hx, ← h.coherent K hK j hj]
          have hne : a - K.tag ≠ j := by omega
          simp [Line.store, List.getD_eq_getElem?_getD, hne]
      · rw [if_neg hk, if_neg, ← h.coherent K hK j hj]
        intro hx
        exact hk (by rw [← hx, blockBase_add hf.1 hj])

/-- A write in range with room in the buffer changes exactly one word of the program's view (20_memory.md R70, R78). -/
theorem MemSys.Inv.memWrite_spec {m : MemSys} (h : m.Inv) {a : Word} (ha : a.toNat < Config.memWords)
    (hroom : m.wb.length < Config.wbCap) (w : Word) :
    ∃ m', m.memWrite a w = .done m' ∧ m'.Shows (fun x => if x = a.toNat then w else m.view x) ∧ m'.mem = m.mem := by
  unfold MemSys.memWrite MemSys.writeAllocate
  rw [if_pos (show inRange a = true by simpa [inRange] using ha), if_neg (Nat.not_le.2 hroom)]
  by_cases hl : ∃ L ∈ m.l1, L.tag = blockBase a.toNat
  · obtain ⟨m', hm', hs, hmem⟩ := h.cacheWrite_spec ha hl hroom w
    exact ⟨m', by simp only [hm'], hs, hmem⟩
  · have hmiss : ∀ L ∈ m.l1, L.tag ≠ blockBase a.toNat := fun L hL ht => hl ⟨L, hL, ht⟩
    have hnone : m.cacheWrite w a.toNat = none := by
      unfold MemSys.cacheWrite
      split
      next => rfl
      next L hL => exact absurd (h.lookup_some hL).2 (hmiss L (h.lookup_some hL).1)
    obtain ⟨m₁, hf, hs₁, hw₁, -, hm₁, -, hl₁⟩ := h.fill_spec ha hmiss
    obtain ⟨m', hm', hs, hmem⟩ := hs₁.1.cacheWrite_spec ha hl₁ (by rw [hw₁]; exact hroom) w
    refine ⟨m', by simp only [hnone, hf, hm'], ⟨hs.1, fun x => ?_⟩, by rw [hmem, hm₁]⟩
    rw [hs.2 x]
    simp only [hs₁.2]

/-- A write out of range raises the address fault, whether or not the buffer is full (20_memory.md R61, 60_exceptions.md
R304). -/
theorem MemSys.memWrite_raise (m : MemSys) {a : Word} (ha : ¬ a.toNat < Config.memWords) (w : Word) :
    m.memWrite a w = .raise := by
  unfold MemSys.memWrite
  rw [if_neg (by simpa [inRange] using ha)]

/-- A write in range holds while the buffer is full (20_memory.md R70). -/
theorem MemSys.memWrite_full (m : MemSys) {a : Word} (ha : a.toNat < Config.memWords)
    (hfull : Config.wbCap ≤ m.wb.length) (w : Word) : m.memWrite a w = .hold .bufferFull := by
  unfold MemSys.memWrite
  rw [if_pos (show inRange a = true by simpa [inRange] using ha), if_pos hfull]

/-! ### Loading (70_reset_and_hazards.md R341) -/

/-- An empty cache over a drained memory in canonical form meets the invariant and shows what the memory holds. -/
theorem MemSys.invalidated_shows {m : MemSys} (hw : m.wb = []) (hi : m.inflight = none) {mem : Memory}
    (hmem : mem.wf = true) : MemSys.Shows { m with l1 := [], mem := mem } mem.read := by
  have hp : MemSys.pending { m with l1 := [], mem := mem } = [] := by simp [MemSys.pending, hw, hi]
  refine ⟨⟨hmem, ?_, Nat.zero_le _, List.nodup_nil, ?_, ?_, ?_, ?_⟩, fun a => ?_⟩
  · simp [hw]
  · intro L hL; cases hL
  · rw [hp]; intro e he; cases he
  · intro L hL; cases hL
  · intro L hL; cases hL
  · simp only [MemSys.view, hp, overlay_nil]

theorem MemSys.reset_inv : MemSys.reset.Inv :=
  (MemSys.invalidated_shows (m := MemSys.reset) rfl rfl (mem := []) rfl).1

end Sys2Proof.Machine
end

