-- ==== Sys2Proof/Laws/State.lean ====
section
/-! SUPPORT. What each named update of State leaves in each field: one lemma per field per update. -/

namespace Sys2Proof.Machine

/-! ### The memory side -/

@[simp] theorem State.withMs_r0 (s : State) (m : MemSys) : (s.withMs m).r0 = s.r0 := rfl
@[simp] theorem State.withMs_r1 (s : State) (m : MemSys) : (s.withMs m).r1 = s.r1 := rfl
@[simp] theorem State.withMs_r2 (s : State) (m : MemSys) : (s.withMs m).r2 = s.r2 := rfl
@[simp] theorem State.withMs_r3 (s : State) (m : MemSys) : (s.withMs m).r3 = s.r3 := rfl
@[simp] theorem State.withMs_x1 (s : State) (m : MemSys) : (s.withMs m).x1 = s.x1 := rfl
@[simp] theorem State.withMs_x2 (s : State) (m : MemSys) : (s.withMs m).x2 = s.x2 := rfl
@[simp] theorem State.withMs_x3 (s : State) (m : MemSys) : (s.withMs m).x3 = s.x3 := rfl
@[simp] theorem State.withMs_pc (s : State) (m : MemSys) : (s.withMs m).pc = s.pc := rfl
@[simp] theorem State.withMs_cc (s : State) (m : MemSys) : (s.withMs m).cc = s.cc := rfl
@[simp] theorem State.withMs_msr (s : State) (m : MemSys) : (s.withMs m).msr = s.msr := rfl
@[simp] theorem State.withMs_mfr (s : State) (m : MemSys) : (s.withMs m).mfr = s.mfr := rfl
@[simp] theorem State.withMs_ir (s : State) (m : MemSys) : (s.withMs m).ir = s.ir := rfl
@[simp] theorem State.withMs_mar (s : State) (m : MemSys) : (s.withMs m).mar = s.mar := rfl
@[simp] theorem State.withMs_mdr (s : State) (m : MemSys) : (s.withMs m).mdr = s.mdr := rfl
@[simp] theorem State.withMs_ea (s : State) (m : MemSys) : (s.withMs m).ea = s.ea := rfl
@[simp] theorem State.withMs_op1 (s : State) (m : MemSys) : (s.withMs m).op1 = s.op1 := rfl
@[simp] theorem State.withMs_op2 (s : State) (m : MemSys) : (s.withMs m).op2 = s.op2 := rfl
@[simp] theorem State.withMs_op3 (s : State) (m : MemSys) : (s.withMs m).op3 = s.op3 := rfl
@[simp] theorem State.withMs_op4 (s : State) (m : MemSys) : (s.withMs m).op4 = s.op4 := rfl
@[simp] theorem State.withMs_result (s : State) (m : MemSys) : (s.withMs m).result = s.result := rfl
@[simp] theorem State.withMs_result2 (s : State) (m : MemSys) : (s.withMs m).result2 = s.result2 := rfl
@[simp] theorem State.withMs_dec (s : State) (m : MemSys) : (s.withMs m).dec = s.dec := rfl
@[simp] theorem State.withMs_k (s : State) (m : MemSys) : (s.withMs m).k = s.k := rfl
@[simp] theorem State.withMs_phase (s : State) (m : MemSys) : (s.withMs m).phase = s.phase := rfl
@[simp] theorem State.withMs_jumpTaken (s : State) (m : MemSys) : (s.withMs m).jumpTaken = s.jumpTaken := rfl
@[simp] theorem State.withMs_waitForInterrupt (s : State) (m : MemSys) : (s.withMs m).waitForInterrupt = s.waitForInterrupt := rfl
@[simp] theorem State.withMs_halted (s : State) (m : MemSys) : (s.withMs m).halted = s.halted := rfl
@[simp] theorem State.withMs_cycleCount (s : State) (m : MemSys) : (s.withMs m).cycleCount = s.cycleCount := rfl
@[simp] theorem State.withMs_inbuf (s : State) (m : MemSys) : (s.withMs m).inbuf = s.inbuf := rfl
@[simp] theorem State.withMs_ptr (s : State) (m : MemSys) : (s.withMs m).ptr = s.ptr := rfl
@[simp] theorem State.withMs_terminal (s : State) (m : MemSys) : (s.withMs m).terminal = s.terminal := rfl
@[simp] theorem State.withMs_ms (s : State) (m : MemSys) : (s.withMs m).ms = m := rfl
@[simp] theorem State.withMs_terminated (s : State) (m : MemSys) : (s.withMs m).terminated = s.terminated := rfl
@[simp] theorem State.withMs_labelRefs (s : State) (m : MemSys) : (s.withMs m).labelRefs = s.labelRefs := rfl
@[simp] theorem State.withMs_execMode (s : State) (m : MemSys) : (s.withMs m).execMode = s.execMode := rfl
@[simp] theorem State.withMs_programKind (s : State) (m : MemSys) : (s.withMs m).programKind = s.programKind := rfl
@[simp] theorem State.withMs_refused (s : State) (m : MemSys) : (s.withMs m).refused = s.refused := rfl
@[simp] theorem State.withMs_executing (s : State) (m : MemSys) : (s.withMs m).executing = s.executing := rfl
@[simp] theorem State.withMs_refusal (s : State) (m : MemSys) : (s.withMs m).refusal = s.refusal := rfl
@[simp] theorem State.withMs_turns (s : State) (m : MemSys) : (s.withMs m).turns = s.turns := rfl
@[simp] theorem State.withMs_faultLog (s : State) (m : MemSys) : (s.withMs m).faultLog = s.faultLog := rfl
@[simp] theorem State.withMs_parseErrors (s : State) (m : MemSys) : (s.withMs m).parseErrors = s.parseErrors := rfl

/-! ### One cycle -/

@[simp] theorem State.tick_r0 (s : State) : (s.tick).r0 = s.r0 := rfl
@[simp] theorem State.tick_r1 (s : State) : (s.tick).r1 = s.r1 := rfl
@[simp] theorem State.tick_r2 (s : State) : (s.tick).r2 = s.r2 := rfl
@[simp] theorem State.tick_r3 (s : State) : (s.tick).r3 = s.r3 := rfl
@[simp] theorem State.tick_x1 (s : State) : (s.tick).x1 = s.x1 := rfl
@[simp] theorem State.tick_x2 (s : State) : (s.tick).x2 = s.x2 := rfl
@[simp] theorem State.tick_x3 (s : State) : (s.tick).x3 = s.x3 := rfl
@[simp] theorem State.tick_pc (s : State) : (s.tick).pc = s.pc := rfl
@[simp] theorem State.tick_cc (s : State) : (s.tick).cc = s.cc := rfl
@[simp] theorem State.tick_msr (s : State) : (s.tick).msr = s.msr := rfl
@[simp] theorem State.tick_mfr (s : State) : (s.tick).mfr = s.mfr := rfl
@[simp] theorem State.tick_ir (s : State) : (s.tick).ir = s.ir := rfl
@[simp] theorem State.tick_mar (s : State) : (s.tick).mar = s.mar := rfl
@[simp] theorem State.tick_mdr (s : State) : (s.tick).mdr = s.mdr := rfl
@[simp] theorem State.tick_ea (s : State) : (s.tick).ea = s.ea := rfl
@[simp] theorem State.tick_op1 (s : State) : (s.tick).op1 = s.op1 := rfl
@[simp] theorem State.tick_op2 (s : State) : (s.tick).op2 = s.op2 := rfl
@[simp] theorem State.tick_op3 (s : State) : (s.tick).op3 = s.op3 := rfl
@[simp] theorem State.tick_op4 (s : State) : (s.tick).op4 = s.op4 := rfl
@[simp] theorem State.tick_result (s : State) : (s.tick).result = s.result := rfl
@[simp] theorem State.tick_result2 (s : State) : (s.tick).result2 = s.result2 := rfl
@[simp] theorem State.tick_dec (s : State) : (s.tick).dec = s.dec := rfl
@[simp] theorem State.tick_k (s : State) : (s.tick).k = s.k := rfl
@[simp] theorem State.tick_phase (s : State) : (s.tick).phase = s.phase := rfl
@[simp] theorem State.tick_jumpTaken (s : State) : (s.tick).jumpTaken = s.jumpTaken := rfl
@[simp] theorem State.tick_waitForInterrupt (s : State) : (s.tick).waitForInterrupt = s.waitForInterrupt := rfl
@[simp] theorem State.tick_halted (s : State) : (s.tick).halted = s.halted := rfl
@[simp] theorem State.tick_cycleCount (s : State) : (s.tick).cycleCount = s.cycleCount + 1 := rfl
@[simp] theorem State.tick_inbuf (s : State) : (s.tick).inbuf = s.inbuf := rfl
@[simp] theorem State.tick_ptr (s : State) : (s.tick).ptr = s.ptr := rfl
@[simp] theorem State.tick_terminal (s : State) : (s.tick).terminal = s.terminal := rfl
@[simp] theorem State.tick_ms (s : State) : (s.tick).ms = s.ms := rfl
@[simp] theorem State.tick_terminated (s : State) : (s.tick).terminated = s.terminated := rfl
@[simp] theorem State.tick_labelRefs (s : State) : (s.tick).labelRefs = s.labelRefs := rfl
@[simp] theorem State.tick_execMode (s : State) : (s.tick).execMode = s.execMode := rfl
@[simp] theorem State.tick_programKind (s : State) : (s.tick).programKind = s.programKind := rfl
@[simp] theorem State.tick_refused (s : State) : (s.tick).refused = s.refused := rfl
@[simp] theorem State.tick_executing (s : State) : (s.tick).executing = s.executing := rfl
@[simp] theorem State.tick_refusal (s : State) : (s.tick).refusal = s.refusal := rfl
@[simp] theorem State.tick_turns (s : State) : (s.tick).turns = s.turns := rfl
@[simp] theorem State.tick_faultLog (s : State) : (s.tick).faultLog = s.faultLog := rfl
@[simp] theorem State.tick_parseErrors (s : State) : (s.tick).parseErrors = s.parseErrors := rfl

/-! ### The step counter -/

@[simp] theorem State.nextK_r0 (s : State) : (s.nextK).r0 = s.r0 := rfl
@[simp] theorem State.nextK_r1 (s : State) : (s.nextK).r1 = s.r1 := rfl
@[simp] theorem State.nextK_r2 (s : State) : (s.nextK).r2 = s.r2 := rfl
@[simp] theorem State.nextK_r3 (s : State) : (s.nextK).r3 = s.r3 := rfl
@[simp] theorem State.nextK_x1 (s : State) : (s.nextK).x1 = s.x1 := rfl
@[simp] theorem State.nextK_x2 (s : State) : (s.nextK).x2 = s.x2 := rfl
@[simp] theorem State.nextK_x3 (s : State) : (s.nextK).x3 = s.x3 := rfl
@[simp] theorem State.nextK_pc (s : State) : (s.nextK).pc = s.pc := rfl
@[simp] theorem State.nextK_cc (s : State) : (s.nextK).cc = s.cc := rfl
@[simp] theorem State.nextK_msr (s : State) : (s.nextK).msr = s.msr := rfl
@[simp] theorem State.nextK_mfr (s : State) : (s.nextK).mfr = s.mfr := rfl
@[simp] theorem State.nextK_ir (s : State) : (s.nextK).ir = s.ir := rfl
@[simp] theorem State.nextK_mar (s : State) : (s.nextK).mar = s.mar := rfl
@[simp] theorem State.nextK_mdr (s : State) : (s.nextK).mdr = s.mdr := rfl
@[simp] theorem State.nextK_ea (s : State) : (s.nextK).ea = s.ea := rfl
@[simp] theorem State.nextK_op1 (s : State) : (s.nextK).op1 = s.op1 := rfl
@[simp] theorem State.nextK_op2 (s : State) : (s.nextK).op2 = s.op2 := rfl
@[simp] theorem State.nextK_op3 (s : State) : (s.nextK).op3 = s.op3 := rfl
@[simp] theorem State.nextK_op4 (s : State) : (s.nextK).op4 = s.op4 := rfl
@[simp] theorem State.nextK_result (s : State) : (s.nextK).result = s.result := rfl
@[simp] theorem State.nextK_result2 (s : State) : (s.nextK).result2 = s.result2 := rfl
@[simp] theorem State.nextK_dec (s : State) : (s.nextK).dec = s.dec := rfl
@[simp] theorem State.nextK_k (s : State) : (s.nextK).k = s.k + 1 := rfl
@[simp] theorem State.nextK_phase (s : State) : (s.nextK).phase = s.phase := rfl
@[simp] theorem State.nextK_jumpTaken (s : State) : (s.nextK).jumpTaken = s.jumpTaken := rfl
@[simp] theorem State.nextK_waitForInterrupt (s : State) : (s.nextK).waitForInterrupt = s.waitForInterrupt := rfl
@[simp] theorem State.nextK_halted (s : State) : (s.nextK).halted = s.halted := rfl
@[simp] theorem State.nextK_cycleCount (s : State) : (s.nextK).cycleCount = s.cycleCount := rfl
@[simp] theorem State.nextK_inbuf (s : State) : (s.nextK).inbuf = s.inbuf := rfl
@[simp] theorem State.nextK_ptr (s : State) : (s.nextK).ptr = s.ptr := rfl
@[simp] theorem State.nextK_terminal (s : State) : (s.nextK).terminal = s.terminal := rfl
@[simp] theorem State.nextK_ms (s : State) : (s.nextK).ms = s.ms := rfl
@[simp] theorem State.nextK_terminated (s : State) : (s.nextK).terminated = s.terminated := rfl
@[simp] theorem State.nextK_labelRefs (s : State) : (s.nextK).labelRefs = s.labelRefs := rfl
@[simp] theorem State.nextK_execMode (s : State) : (s.nextK).execMode = s.execMode := rfl
@[simp] theorem State.nextK_programKind (s : State) : (s.nextK).programKind = s.programKind := rfl
@[simp] theorem State.nextK_refused (s : State) : (s.nextK).refused = s.refused := rfl
@[simp] theorem State.nextK_executing (s : State) : (s.nextK).executing = s.executing := rfl
@[simp] theorem State.nextK_refusal (s : State) : (s.nextK).refusal = s.refusal := rfl
@[simp] theorem State.nextK_turns (s : State) : (s.nextK).turns = s.turns := rfl
@[simp] theorem State.nextK_faultLog (s : State) : (s.nextK).faultLog = s.faultLog := rfl
@[simp] theorem State.nextK_parseErrors (s : State) : (s.nextK).parseErrors = s.parseErrors := rfl

/-! ### Decode -/

@[simp] theorem State.decoded_r0 (s : State) (f : DecodeFields) : (s.decoded f).r0 = s.r0 := rfl
@[simp] theorem State.decoded_r1 (s : State) (f : DecodeFields) : (s.decoded f).r1 = s.r1 := rfl
@[simp] theorem State.decoded_r2 (s : State) (f : DecodeFields) : (s.decoded f).r2 = s.r2 := rfl
@[simp] theorem State.decoded_r3 (s : State) (f : DecodeFields) : (s.decoded f).r3 = s.r3 := rfl
@[simp] theorem State.decoded_x1 (s : State) (f : DecodeFields) : (s.decoded f).x1 = s.x1 := rfl
@[simp] theorem State.decoded_x2 (s : State) (f : DecodeFields) : (s.decoded f).x2 = s.x2 := rfl
@[simp] theorem State.decoded_x3 (s : State) (f : DecodeFields) : (s.decoded f).x3 = s.x3 := rfl
@[simp] theorem State.decoded_pc (s : State) (f : DecodeFields) : (s.decoded f).pc = s.pc := rfl
@[simp] theorem State.decoded_cc (s : State) (f : DecodeFields) : (s.decoded f).cc = s.cc := rfl
@[simp] theorem State.decoded_msr (s : State) (f : DecodeFields) : (s.decoded f).msr = s.msr := rfl
@[simp] theorem State.decoded_mfr (s : State) (f : DecodeFields) : (s.decoded f).mfr = s.mfr := rfl
@[simp] theorem State.decoded_ir (s : State) (f : DecodeFields) : (s.decoded f).ir = s.ir := rfl
@[simp] theorem State.decoded_mar (s : State) (f : DecodeFields) : (s.decoded f).mar = s.mar := rfl
@[simp] theorem State.decoded_mdr (s : State) (f : DecodeFields) : (s.decoded f).mdr = s.mdr := rfl
@[simp] theorem State.decoded_ea (s : State) (f : DecodeFields) : (s.decoded f).ea = s.ea := rfl
@[simp] theorem State.decoded_op1 (s : State) (f : DecodeFields) : (s.decoded f).op1 = s.op1 := rfl
@[simp] theorem State.decoded_op2 (s : State) (f : DecodeFields) : (s.decoded f).op2 = s.op2 := rfl
@[simp] theorem State.decoded_op3 (s : State) (f : DecodeFields) : (s.decoded f).op3 = s.op3 := rfl
@[simp] theorem State.decoded_op4 (s : State) (f : DecodeFields) : (s.decoded f).op4 = s.op4 := rfl
@[simp] theorem State.decoded_result (s : State) (f : DecodeFields) : (s.decoded f).result = s.result := rfl
@[simp] theorem State.decoded_result2 (s : State) (f : DecodeFields) : (s.decoded f).result2 = s.result2 := rfl
@[simp] theorem State.decoded_dec (s : State) (f : DecodeFields) : (s.decoded f).dec = f := rfl
@[simp] theorem State.decoded_k (s : State) (f : DecodeFields) : (s.decoded f).k = 4 := rfl
@[simp] theorem State.decoded_phase (s : State) (f : DecodeFields) : (s.decoded f).phase = s.phase := rfl
@[simp] theorem State.decoded_jumpTaken (s : State) (f : DecodeFields) : (s.decoded f).jumpTaken = s.jumpTaken := rfl
@[simp] theorem State.decoded_waitForInterrupt (s : State) (f : DecodeFields) : (s.decoded f).waitForInterrupt = s.waitForInterrupt := rfl
@[simp] theorem State.decoded_halted (s : State) (f : DecodeFields) : (s.decoded f).halted = s.halted := rfl
@[simp] theorem State.decoded_cycleCount (s : State) (f : DecodeFields) : (s.decoded f).cycleCount = s.cycleCount := rfl
@[simp] theorem State.decoded_inbuf (s : State) (f : DecodeFields) : (s.decoded f).inbuf = s.inbuf := rfl
@[simp] theorem State.decoded_ptr (s : State) (f : DecodeFields) : (s.decoded f).ptr = s.ptr := rfl
@[simp] theorem State.decoded_terminal (s : State) (f : DecodeFields) : (s.decoded f).terminal = s.terminal := rfl
@[simp] theorem State.decoded_ms (s : State) (f : DecodeFields) : (s.decoded f).ms = s.ms := rfl
@[simp] theorem State.decoded_terminated (s : State) (f : DecodeFields) : (s.decoded f).terminated = s.terminated := rfl
@[simp] theorem State.decoded_labelRefs (s : State) (f : DecodeFields) : (s.decoded f).labelRefs = s.labelRefs := rfl
@[simp] theorem State.decoded_execMode (s : State) (f : DecodeFields) : (s.decoded f).execMode = s.execMode := rfl
@[simp] theorem State.decoded_programKind (s : State) (f : DecodeFields) : (s.decoded f).programKind = s.programKind := rfl
@[simp] theorem State.decoded_refused (s : State) (f : DecodeFields) : (s.decoded f).refused = s.refused := rfl
@[simp] theorem State.decoded_executing (s : State) (f : DecodeFields) : (s.decoded f).executing = s.executing := rfl
@[simp] theorem State.decoded_refusal (s : State) (f : DecodeFields) : (s.decoded f).refusal = s.refusal := rfl
@[simp] theorem State.decoded_turns (s : State) (f : DecodeFields) : (s.decoded f).turns = s.turns := rfl
@[simp] theorem State.decoded_faultLog (s : State) (f : DecodeFields) : (s.decoded f).faultLog = s.faultLog := rfl
@[simp] theorem State.decoded_parseErrors (s : State) (f : DecodeFields) : (s.decoded f).parseErrors = s.parseErrors := rfl

/-! ### Completion and jumps -/

@[simp] theorem State.completed_r0 (s : State) : (s.completed).r0 = s.r0 := rfl
@[simp] theorem State.completed_r1 (s : State) : (s.completed).r1 = s.r1 := rfl
@[simp] theorem State.completed_r2 (s : State) : (s.completed).r2 = s.r2 := rfl
@[simp] theorem State.completed_r3 (s : State) : (s.completed).r3 = s.r3 := rfl
@[simp] theorem State.completed_x1 (s : State) : (s.completed).x1 = s.x1 := rfl
@[simp] theorem State.completed_x2 (s : State) : (s.completed).x2 = s.x2 := rfl
@[simp] theorem State.completed_x3 (s : State) : (s.completed).x3 = s.x3 := rfl
@[simp] theorem State.completed_pc (s : State) : (s.completed).pc = if s.jumpTaken then s.pc else pcNext s.pc := rfl
@[simp] theorem State.completed_cc (s : State) : (s.completed).cc = s.cc := rfl
@[simp] theorem State.completed_msr (s : State) : (s.completed).msr = s.msr := rfl
@[simp] theorem State.completed_mfr (s : State) : (s.completed).mfr = s.mfr := rfl
@[simp] theorem State.completed_ir (s : State) : (s.completed).ir = s.ir := rfl
@[simp] theorem State.completed_mar (s : State) : (s.completed).mar = s.mar := rfl
@[simp] theorem State.completed_mdr (s : State) : (s.completed).mdr = s.mdr := rfl
@[simp] theorem State.completed_ea (s : State) : (s.completed).ea = s.ea := rfl
@[simp] theorem State.completed_op1 (s : State) : (s.completed).op1 = s.op1 := rfl
@[simp] theorem State.completed_op2 (s : State) : (s.completed).op2 = s.op2 := rfl
@[simp] theorem State.completed_op3 (s : State) : (s.completed).op3 = s.op3 := rfl
@[simp] theorem State.completed_op4 (s : State) : (s.completed).op4 = s.op4 := rfl
@[simp] theorem State.completed_result (s : State) : (s.completed).result = s.result := rfl
@[simp] theorem State.completed_result2 (s : State) : (s.completed).result2 = s.result2 := rfl
@[simp] theorem State.completed_dec (s : State) : (s.completed).dec = s.dec := rfl
@[simp] theorem State.completed_k (s : State) : (s.completed).k = 0 := rfl
@[simp] theorem State.completed_phase (s : State) : (s.completed).phase = s.phase := rfl
@[simp] theorem State.completed_jumpTaken (s : State) : (s.completed).jumpTaken = false := rfl
@[simp] theorem State.completed_waitForInterrupt (s : State) : (s.completed).waitForInterrupt = s.waitForInterrupt := rfl
@[simp] theorem State.completed_halted (s : State) : (s.completed).halted = s.halted := rfl
@[simp] theorem State.completed_cycleCount (s : State) : (s.completed).cycleCount = s.cycleCount := rfl
@[simp] theorem State.completed_inbuf (s : State) : (s.completed).inbuf = s.inbuf := rfl
@[simp] theorem State.completed_ptr (s : State) : (s.completed).ptr = s.ptr := rfl
@[simp] theorem State.completed_terminal (s : State) : (s.completed).terminal = s.terminal := rfl
@[simp] theorem State.completed_ms (s : State) : (s.completed).ms = s.ms := rfl
@[simp] theorem State.completed_terminated (s : State) : (s.completed).terminated = s.terminated := rfl
@[simp] theorem State.completed_labelRefs (s : State) : (s.completed).labelRefs = s.labelRefs := rfl
@[simp] theorem State.completed_execMode (s : State) : (s.completed).execMode = s.execMode := rfl
@[simp] theorem State.completed_programKind (s : State) : (s.completed).programKind = s.programKind := rfl
@[simp] theorem State.completed_refused (s : State) : (s.completed).refused = s.refused := rfl
@[simp] theorem State.completed_executing (s : State) : (s.completed).executing = s.executing := rfl
@[simp] theorem State.completed_refusal (s : State) : (s.completed).refusal = s.refusal := rfl
@[simp] theorem State.completed_turns (s : State) : (s.completed).turns = s.turns := rfl
@[simp] theorem State.completed_faultLog (s : State) : (s.completed).faultLog = s.faultLog := rfl
@[simp] theorem State.completed_parseErrors (s : State) : (s.completed).parseErrors = s.parseErrors := rfl

/-! ### A jump in a tail -/

@[simp] theorem State.jump_r0 (s : State) (v : Word) : (s.jump v).r0 = s.r0 := rfl
@[simp] theorem State.jump_r1 (s : State) (v : Word) : (s.jump v).r1 = s.r1 := rfl
@[simp] theorem State.jump_r2 (s : State) (v : Word) : (s.jump v).r2 = s.r2 := rfl
@[simp] theorem State.jump_r3 (s : State) (v : Word) : (s.jump v).r3 = s.r3 := rfl
@[simp] theorem State.jump_x1 (s : State) (v : Word) : (s.jump v).x1 = s.x1 := rfl
@[simp] theorem State.jump_x2 (s : State) (v : Word) : (s.jump v).x2 = s.x2 := rfl
@[simp] theorem State.jump_x3 (s : State) (v : Word) : (s.jump v).x3 = s.x3 := rfl
@[simp] theorem State.jump_pc (s : State) (v : Word) : (s.jump v).pc = wordToPc v := rfl
@[simp] theorem State.jump_cc (s : State) (v : Word) : (s.jump v).cc = s.cc := rfl
@[simp] theorem State.jump_msr (s : State) (v : Word) : (s.jump v).msr = s.msr := rfl
@[simp] theorem State.jump_mfr (s : State) (v : Word) : (s.jump v).mfr = s.mfr := rfl
@[simp] theorem State.jump_ir (s : State) (v : Word) : (s.jump v).ir = s.ir := rfl
@[simp] theorem State.jump_mar (s : State) (v : Word) : (s.jump v).mar = s.mar := rfl
@[simp] theorem State.jump_mdr (s : State) (v : Word) : (s.jump v).mdr = s.mdr := rfl
@[simp] theorem State.jump_ea (s : State) (v : Word) : (s.jump v).ea = s.ea := rfl
@[simp] theorem State.jump_op1 (s : State) (v : Word) : (s.jump v).op1 = s.op1 := rfl
@[simp] theorem State.jump_op2 (s : State) (v : Word) : (s.jump v).op2 = s.op2 := rfl
@[simp] theorem State.jump_op3 (s : State) (v : Word) : (s.jump v).op3 = s.op3 := rfl
@[simp] theorem State.jump_op4 (s : State) (v : Word) : (s.jump v).op4 = s.op4 := rfl
@[simp] theorem State.jump_result (s : State) (v : Word) : (s.jump v).result = s.result := rfl
@[simp] theorem State.jump_result2 (s : State) (v : Word) : (s.jump v).result2 = s.result2 := rfl
@[simp] theorem State.jump_dec (s : State) (v : Word) : (s.jump v).dec = s.dec := rfl
@[simp] theorem State.jump_k (s : State) (v : Word) : (s.jump v).k = s.k := rfl
@[simp] theorem State.jump_phase (s : State) (v : Word) : (s.jump v).phase = s.phase := rfl
@[simp] theorem State.jump_jumpTaken (s : State) (v : Word) : (s.jump v).jumpTaken = true := rfl
@[simp] theorem State.jump_waitForInterrupt (s : State) (v : Word) : (s.jump v).waitForInterrupt = s.waitForInterrupt := rfl
@[simp] theorem State.jump_halted (s : State) (v : Word) : (s.jump v).halted = s.halted := rfl
@[simp] theorem State.jump_cycleCount (s : State) (v : Word) : (s.jump v).cycleCount = s.cycleCount := rfl
@[simp] theorem State.jump_inbuf (s : State) (v : Word) : (s.jump v).inbuf = s.inbuf := rfl
@[simp] theorem State.jump_ptr (s : State) (v : Word) : (s.jump v).ptr = s.ptr := rfl
@[simp] theorem State.jump_terminal (s : State) (v : Word) : (s.jump v).terminal = s.terminal := rfl
@[simp] theorem State.jump_ms (s : State) (v : Word) : (s.jump v).ms = s.ms := rfl
@[simp] theorem State.jump_terminated (s : State) (v : Word) : (s.jump v).terminated = s.terminated := rfl
@[simp] theorem State.jump_labelRefs (s : State) (v : Word) : (s.jump v).labelRefs = s.labelRefs := rfl
@[simp] theorem State.jump_execMode (s : State) (v : Word) : (s.jump v).execMode = s.execMode := rfl
@[simp] theorem State.jump_programKind (s : State) (v : Word) : (s.jump v).programKind = s.programKind := rfl
@[simp] theorem State.jump_refused (s : State) (v : Word) : (s.jump v).refused = s.refused := rfl
@[simp] theorem State.jump_executing (s : State) (v : Word) : (s.jump v).executing = s.executing := rfl
@[simp] theorem State.jump_refusal (s : State) (v : Word) : (s.jump v).refusal = s.refusal := rfl
@[simp] theorem State.jump_turns (s : State) (v : Word) : (s.jump v).turns = s.turns := rfl
@[simp] theorem State.jump_faultLog (s : State) (v : Word) : (s.jump v).faultLog = s.faultLog := rfl
@[simp] theorem State.jump_parseErrors (s : State) (v : Word) : (s.jump v).parseErrors = s.parseErrors := rfl

/-! ### A conditional jump in a tail -/

@[simp] theorem State.jumpIf_r0 (s : State) (b : Bool) (v : Word) : (s.jumpIf b v).r0 = s.r0 := rfl
@[simp] theorem State.jumpIf_r1 (s : State) (b : Bool) (v : Word) : (s.jumpIf b v).r1 = s.r1 := rfl
@[simp] theorem State.jumpIf_r2 (s : State) (b : Bool) (v : Word) : (s.jumpIf b v).r2 = s.r2 := rfl
@[simp] theorem State.jumpIf_r3 (s : State) (b : Bool) (v : Word) : (s.jumpIf b v).r3 = s.r3 := rfl
@[simp] theorem State.jumpIf_x1 (s : State) (b : Bool) (v : Word) : (s.jumpIf b v).x1 = s.x1 := rfl
@[simp] theorem State.jumpIf_x2 (s : State) (b : Bool) (v : Word) : (s.jumpIf b v).x2 = s.x2 := rfl
@[simp] theorem State.jumpIf_x3 (s : State) (b : Bool) (v : Word) : (s.jumpIf b v).x3 = s.x3 := rfl
@[simp] theorem State.jumpIf_pc (s : State) (b : Bool) (v : Word) : (s.jumpIf b v).pc = if b then wordToPc v else s.pc := rfl
@[simp] theorem State.jumpIf_cc (s : State) (b : Bool) (v : Word) : (s.jumpIf b v).cc = s.cc := rfl
@[simp] theorem State.jumpIf_msr (s : State) (b : Bool) (v : Word) : (s.jumpIf b v).msr = s.msr := rfl
@[simp] theorem State.jumpIf_mfr (s : State) (b : Bool) (v : Word) : (s.jumpIf b v).mfr = s.mfr := rfl
@[simp] theorem State.jumpIf_ir (s : State) (b : Bool) (v : Word) : (s.jumpIf b v).ir = s.ir := rfl
@[simp] theorem State.jumpIf_mar (s : State) (b : Bool) (v : Word) : (s.jumpIf b v).mar = s.mar := rfl
@[simp] theorem State.jumpIf_mdr (s : State) (b : Bool) (v : Word) : (s.jumpIf b v).mdr = s.mdr := rfl
@[simp] theorem State.jumpIf_ea (s : State) (b : Bool) (v : Word) : (s.jumpIf b v).ea = s.ea := rfl
@[simp] theorem State.jumpIf_op1 (s : State) (b : Bool) (v : Word) : (s.jumpIf b v).op1 = s.op1 := rfl
@[simp] theorem State.jumpIf_op2 (s : State) (b : Bool) (v : Word) : (s.jumpIf b v).op2 = s.op2 := rfl
@[simp] theorem State.jumpIf_op3 (s : State) (b : Bool) (v : Word) : (s.jumpIf b v).op3 = s.op3 := rfl
@[simp] theorem State.jumpIf_op4 (s : State) (b : Bool) (v : Word) : (s.jumpIf b v).op4 = s.op4 := rfl
@[simp] theorem State.jumpIf_result (s : State) (b : Bool) (v : Word) : (s.jumpIf b v).result = s.result := rfl
@[simp] theorem State.jumpIf_result2 (s : State) (b : Bool) (v : Word) : (s.jumpIf b v).result2 = s.result2 := rfl
@[simp] theorem State.jumpIf_dec (s : State) (b : Bool) (v : Word) : (s.jumpIf b v).dec = s.dec := rfl
@[simp] theorem State.jumpIf_k (s : State) (b : Bool) (v : Word) : (s.jumpIf b v).k = s.k := rfl
@[simp] theorem State.jumpIf_phase (s : State) (b : Bool) (v : Word) : (s.jumpIf b v).phase = s.phase := rfl
@[simp] theorem State.jumpIf_jumpTaken (s : State) (b : Bool) (v : Word) : (s.jumpIf b v).jumpTaken = (b || s.jumpTaken) := rfl
@[simp] theorem State.jumpIf_waitForInterrupt (s : State) (b : Bool) (v : Word) : (s.jumpIf b v).waitForInterrupt = s.waitForInterrupt := rfl
@[simp] theorem State.jumpIf_halted (s : State) (b : Bool) (v : Word) : (s.jumpIf b v).halted = s.halted := rfl
@[simp] theorem State.jumpIf_cycleCount (s : State) (b : Bool) (v : Word) : (s.jumpIf b v).cycleCount = s.cycleCount := rfl
@[simp] theorem State.jumpIf_inbuf (s : State) (b : Bool) (v : Word) : (s.jumpIf b v).inbuf = s.inbuf := rfl
@[simp] theorem State.jumpIf_ptr (s : State) (b : Bool) (v : Word) : (s.jumpIf b v).ptr = s.ptr := rfl
@[simp] theorem State.jumpIf_terminal (s : State) (b : Bool) (v : Word) : (s.jumpIf b v).terminal = s.terminal := rfl
@[simp] theorem State.jumpIf_ms (s : State) (b : Bool) (v : Word) : (s.jumpIf b v).ms = s.ms := rfl
@[simp] theorem State.jumpIf_terminated (s : State) (b : Bool) (v : Word) : (s.jumpIf b v).terminated = s.terminated := rfl
@[simp] theorem State.jumpIf_labelRefs (s : State) (b : Bool) (v : Word) : (s.jumpIf b v).labelRefs = s.labelRefs := rfl
@[simp] theorem State.jumpIf_execMode (s : State) (b : Bool) (v : Word) : (s.jumpIf b v).execMode = s.execMode := rfl
@[simp] theorem State.jumpIf_programKind (s : State) (b : Bool) (v : Word) : (s.jumpIf b v).programKind = s.programKind := rfl
@[simp] theorem State.jumpIf_refused (s : State) (b : Bool) (v : Word) : (s.jumpIf b v).refused = s.refused := rfl
@[simp] theorem State.jumpIf_executing (s : State) (b : Bool) (v : Word) : (s.jumpIf b v).executing = s.executing := rfl
@[simp] theorem State.jumpIf_refusal (s : State) (b : Bool) (v : Word) : (s.jumpIf b v).refusal = s.refusal := rfl
@[simp] theorem State.jumpIf_turns (s : State) (b : Bool) (v : Word) : (s.jumpIf b v).turns = s.turns := rfl
@[simp] theorem State.jumpIf_faultLog (s : State) (b : Bool) (v : Word) : (s.jumpIf b v).faultLog = s.faultLog := rfl
@[simp] theorem State.jumpIf_parseErrors (s : State) (b : Bool) (v : Word) : (s.jumpIf b v).parseErrors = s.parseErrors := rfl

/-! ### Taking a machine fault -/

@[simp] theorem State.raiseFault_r0 (s : State) (kind : FaultKind) : (s.raiseFault kind).r0 = s.r0 := rfl
@[simp] theorem State.raiseFault_r1 (s : State) (kind : FaultKind) : (s.raiseFault kind).r1 = s.r1 := rfl
@[simp] theorem State.raiseFault_r2 (s : State) (kind : FaultKind) : (s.raiseFault kind).r2 = s.r2 := rfl
@[simp] theorem State.raiseFault_r3 (s : State) (kind : FaultKind) : (s.raiseFault kind).r3 = s.r3 := rfl
@[simp] theorem State.raiseFault_x1 (s : State) (kind : FaultKind) : (s.raiseFault kind).x1 = s.x1 := rfl
@[simp] theorem State.raiseFault_x2 (s : State) (kind : FaultKind) : (s.raiseFault kind).x2 = s.x2 := rfl
@[simp] theorem State.raiseFault_x3 (s : State) (kind : FaultKind) : (s.raiseFault kind).x3 = s.x3 := rfl
@[simp] theorem State.raiseFault_pc (s : State) (kind : FaultKind) : (s.raiseFault kind).pc = s.pc := rfl
@[simp] theorem State.raiseFault_cc (s : State) (kind : FaultKind) : (s.raiseFault kind).cc = s.cc := rfl
@[simp] theorem State.raiseFault_msr (s : State) (kind : FaultKind) : (s.raiseFault kind).msr = s.msr := rfl
@[simp] theorem State.raiseFault_mfr (s : State) (kind : FaultKind) : (s.raiseFault kind).mfr = s.mfr := rfl
@[simp] theorem State.raiseFault_ir (s : State) (kind : FaultKind) : (s.raiseFault kind).ir = s.ir := rfl
@[simp] theorem State.raiseFault_mar (s : State) (kind : FaultKind) : (s.raiseFault kind).mar = s.mar := rfl
@[simp] theorem State.raiseFault_mdr (s : State) (kind : FaultKind) : (s.raiseFault kind).mdr = s.mdr := rfl
@[simp] theorem State.raiseFault_ea (s : State) (kind : FaultKind) : (s.raiseFault kind).ea = s.ea := rfl
@[simp] theorem State.raiseFault_op1 (s : State) (kind : FaultKind) : (s.raiseFault kind).op1 = s.op1 := rfl
@[simp] theorem State.raiseFault_op2 (s : State) (kind : FaultKind) : (s.raiseFault kind).op2 = s.op2 := rfl
@[simp] theorem State.raiseFault_op3 (s : State) (kind : FaultKind) : (s.raiseFault kind).op3 = s.op3 := rfl
@[simp] theorem State.raiseFault_op4 (s : State) (kind : FaultKind) : (s.raiseFault kind).op4 = s.op4 := rfl
@[simp] theorem State.raiseFault_result (s : State) (kind : FaultKind) : (s.raiseFault kind).result = s.result := rfl
@[simp] theorem State.raiseFault_result2 (s : State) (kind : FaultKind) : (s.raiseFault kind).result2 = s.result2 := rfl
@[simp] theorem State.raiseFault_dec (s : State) (kind : FaultKind) : (s.raiseFault kind).dec = s.dec := rfl
@[simp] theorem State.raiseFault_k (s : State) (kind : FaultKind) : (s.raiseFault kind).k = s.k := rfl
@[simp] theorem State.raiseFault_phase (s : State) (kind : FaultKind) : (s.raiseFault kind).phase = .faultEntry 0 := rfl
@[simp] theorem State.raiseFault_jumpTaken (s : State) (kind : FaultKind) : (s.raiseFault kind).jumpTaken = s.jumpTaken := rfl
@[simp] theorem State.raiseFault_waitForInterrupt (s : State) (kind : FaultKind) : (s.raiseFault kind).waitForInterrupt = s.waitForInterrupt := rfl
@[simp] theorem State.raiseFault_halted (s : State) (kind : FaultKind) : (s.raiseFault kind).halted = s.halted := rfl
@[simp] theorem State.raiseFault_cycleCount (s : State) (kind : FaultKind) : (s.raiseFault kind).cycleCount = s.cycleCount := rfl
@[simp] theorem State.raiseFault_inbuf (s : State) (kind : FaultKind) : (s.raiseFault kind).inbuf = s.inbuf := rfl
@[simp] theorem State.raiseFault_ptr (s : State) (kind : FaultKind) : (s.raiseFault kind).ptr = s.ptr := rfl
@[simp] theorem State.raiseFault_terminal (s : State) (kind : FaultKind) : (s.raiseFault kind).terminal = s.terminal := rfl
@[simp] theorem State.raiseFault_ms (s : State) (kind : FaultKind) : (s.raiseFault kind).ms = s.ms := rfl
@[simp] theorem State.raiseFault_terminated (s : State) (kind : FaultKind) : (s.raiseFault kind).terminated = s.terminated := rfl
@[simp] theorem State.raiseFault_labelRefs (s : State) (kind : FaultKind) : (s.raiseFault kind).labelRefs = s.labelRefs := rfl
@[simp] theorem State.raiseFault_execMode (s : State) (kind : FaultKind) : (s.raiseFault kind).execMode = s.execMode := rfl
@[simp] theorem State.raiseFault_programKind (s : State) (kind : FaultKind) : (s.raiseFault kind).programKind = s.programKind := rfl
@[simp] theorem State.raiseFault_refused (s : State) (kind : FaultKind) : (s.raiseFault kind).refused = s.refused := rfl
@[simp] theorem State.raiseFault_executing (s : State) (kind : FaultKind) : (s.raiseFault kind).executing = s.executing := rfl
@[simp] theorem State.raiseFault_refusal (s : State) (kind : FaultKind) : (s.raiseFault kind).refusal = s.refusal := rfl
@[simp] theorem State.raiseFault_turns (s : State) (kind : FaultKind) : (s.raiseFault kind).turns = s.turns := rfl
@[simp] theorem State.raiseFault_faultLog (s : State) (kind : FaultKind) : (s.raiseFault kind).faultLog = s.faultLog ++ [{ kind := kind, pc := s.pc, mar := s.mar }] := rfl
@[simp] theorem State.raiseFault_parseErrors (s : State) (kind : FaultKind) : (s.raiseFault kind).parseErrors = s.parseErrors := rfl

/-! ### Fault entry -/

@[simp] theorem State.atFaultEntry_r0 (s : State) (j : Fin 3) : (s.atFaultEntry j).r0 = s.r0 := rfl
@[simp] theorem State.atFaultEntry_r1 (s : State) (j : Fin 3) : (s.atFaultEntry j).r1 = s.r1 := rfl
@[simp] theorem State.atFaultEntry_r2 (s : State) (j : Fin 3) : (s.atFaultEntry j).r2 = s.r2 := rfl
@[simp] theorem State.atFaultEntry_r3 (s : State) (j : Fin 3) : (s.atFaultEntry j).r3 = s.r3 := rfl
@[simp] theorem State.atFaultEntry_x1 (s : State) (j : Fin 3) : (s.atFaultEntry j).x1 = s.x1 := rfl
@[simp] theorem State.atFaultEntry_x2 (s : State) (j : Fin 3) : (s.atFaultEntry j).x2 = s.x2 := rfl
@[simp] theorem State.atFaultEntry_x3 (s : State) (j : Fin 3) : (s.atFaultEntry j).x3 = s.x3 := rfl
@[simp] theorem State.atFaultEntry_pc (s : State) (j : Fin 3) : (s.atFaultEntry j).pc = s.pc := rfl
@[simp] theorem State.atFaultEntry_cc (s : State) (j : Fin 3) : (s.atFaultEntry j).cc = s.cc := rfl
@[simp] theorem State.atFaultEntry_msr (s : State) (j : Fin 3) : (s.atFaultEntry j).msr = s.msr := rfl
@[simp] theorem State.atFaultEntry_mfr (s : State) (j : Fin 3) : (s.atFaultEntry j).mfr = s.mfr := rfl
@[simp] theorem State.atFaultEntry_ir (s : State) (j : Fin 3) : (s.atFaultEntry j).ir = s.ir := rfl
@[simp] theorem State.atFaultEntry_mar (s : State) (j : Fin 3) : (s.atFaultEntry j).mar = s.mar := rfl
@[simp] theorem State.atFaultEntry_mdr (s : State) (j : Fin 3) : (s.atFaultEntry j).mdr = s.mdr := rfl
@[simp] theorem State.atFaultEntry_ea (s : State) (j : Fin 3) : (s.atFaultEntry j).ea = s.ea := rfl
@[simp] theorem State.atFaultEntry_op1 (s : State) (j : Fin 3) : (s.atFaultEntry j).op1 = s.op1 := rfl
@[simp] theorem State.atFaultEntry_op2 (s : State) (j : Fin 3) : (s.atFaultEntry j).op2 = s.op2 := rfl
@[simp] theorem State.atFaultEntry_op3 (s : State) (j : Fin 3) : (s.atFaultEntry j).op3 = s.op3 := rfl
@[simp] theorem State.atFaultEntry_op4 (s : State) (j : Fin 3) : (s.atFaultEntry j).op4 = s.op4 := rfl
@[simp] theorem State.atFaultEntry_result (s : State) (j : Fin 3) : (s.atFaultEntry j).result = s.result := rfl
@[simp] theorem State.atFaultEntry_result2 (s : State) (j : Fin 3) : (s.atFaultEntry j).result2 = s.result2 := rfl
@[simp] theorem State.atFaultEntry_dec (s : State) (j : Fin 3) : (s.atFaultEntry j).dec = s.dec := rfl
@[simp] theorem State.atFaultEntry_k (s : State) (j : Fin 3) : (s.atFaultEntry j).k = s.k := rfl
@[simp] theorem State.atFaultEntry_phase (s : State) (j : Fin 3) : (s.atFaultEntry j).phase = .faultEntry j := rfl
@[simp] theorem State.atFaultEntry_jumpTaken (s : State) (j : Fin 3) : (s.atFaultEntry j).jumpTaken = s.jumpTaken := rfl
@[simp] theorem State.atFaultEntry_waitForInterrupt (s : State) (j : Fin 3) : (s.atFaultEntry j).waitForInterrupt = s.waitForInterrupt := rfl
@[simp] theorem State.atFaultEntry_halted (s : State) (j : Fin 3) : (s.atFaultEntry j).halted = s.halted := rfl
@[simp] theorem State.atFaultEntry_cycleCount (s : State) (j : Fin 3) : (s.atFaultEntry j).cycleCount = s.cycleCount := rfl
@[simp] theorem State.atFaultEntry_inbuf (s : State) (j : Fin 3) : (s.atFaultEntry j).inbuf = s.inbuf := rfl
@[simp] theorem State.atFaultEntry_ptr (s : State) (j : Fin 3) : (s.atFaultEntry j).ptr = s.ptr := rfl
@[simp] theorem State.atFaultEntry_terminal (s : State) (j : Fin 3) : (s.atFaultEntry j).terminal = s.terminal := rfl
@[simp] theorem State.atFaultEntry_ms (s : State) (j : Fin 3) : (s.atFaultEntry j).ms = s.ms := rfl
@[simp] theorem State.atFaultEntry_terminated (s : State) (j : Fin 3) : (s.atFaultEntry j).terminated = s.terminated := rfl
@[simp] theorem State.atFaultEntry_labelRefs (s : State) (j : Fin 3) : (s.atFaultEntry j).labelRefs = s.labelRefs := rfl
@[simp] theorem State.atFaultEntry_execMode (s : State) (j : Fin 3) : (s.atFaultEntry j).execMode = s.execMode := rfl
@[simp] theorem State.atFaultEntry_programKind (s : State) (j : Fin 3) : (s.atFaultEntry j).programKind = s.programKind := rfl
@[simp] theorem State.atFaultEntry_refused (s : State) (j : Fin 3) : (s.atFaultEntry j).refused = s.refused := rfl
@[simp] theorem State.atFaultEntry_executing (s : State) (j : Fin 3) : (s.atFaultEntry j).executing = s.executing := rfl
@[simp] theorem State.atFaultEntry_refusal (s : State) (j : Fin 3) : (s.atFaultEntry j).refusal = s.refusal := rfl
@[simp] theorem State.atFaultEntry_turns (s : State) (j : Fin 3) : (s.atFaultEntry j).turns = s.turns := rfl
@[simp] theorem State.atFaultEntry_faultLog (s : State) (j : Fin 3) : (s.atFaultEntry j).faultLog = s.faultLog := rfl
@[simp] theorem State.atFaultEntry_parseErrors (s : State) (j : Fin 3) : (s.atFaultEntry j).parseErrors = s.parseErrors := rfl

/-! ### The vector -/

@[simp] theorem State.vectored_r0 (s : State) (v : Word) : (s.vectored v).r0 = s.r0 := rfl
@[simp] theorem State.vectored_r1 (s : State) (v : Word) : (s.vectored v).r1 = s.r1 := rfl
@[simp] theorem State.vectored_r2 (s : State) (v : Word) : (s.vectored v).r2 = s.r2 := rfl
@[simp] theorem State.vectored_r3 (s : State) (v : Word) : (s.vectored v).r3 = s.r3 := rfl
@[simp] theorem State.vectored_x1 (s : State) (v : Word) : (s.vectored v).x1 = s.x1 := rfl
@[simp] theorem State.vectored_x2 (s : State) (v : Word) : (s.vectored v).x2 = s.x2 := rfl
@[simp] theorem State.vectored_x3 (s : State) (v : Word) : (s.vectored v).x3 = s.x3 := rfl
@[simp] theorem State.vectored_pc (s : State) (v : Word) : (s.vectored v).pc = wordToPc v := rfl
@[simp] theorem State.vectored_cc (s : State) (v : Word) : (s.vectored v).cc = s.cc := rfl
@[simp] theorem State.vectored_msr (s : State) (v : Word) : (s.vectored v).msr = s.msr := rfl
@[simp] theorem State.vectored_mfr (s : State) (v : Word) : (s.vectored v).mfr = s.mfr := rfl
@[simp] theorem State.vectored_ir (s : State) (v : Word) : (s.vectored v).ir = s.ir := rfl
@[simp] theorem State.vectored_mar (s : State) (v : Word) : (s.vectored v).mar = s.mar := rfl
@[simp] theorem State.vectored_mdr (s : State) (v : Word) : (s.vectored v).mdr = s.mdr := rfl
@[simp] theorem State.vectored_ea (s : State) (v : Word) : (s.vectored v).ea = s.ea := rfl
@[simp] theorem State.vectored_op1 (s : State) (v : Word) : (s.vectored v).op1 = s.op1 := rfl
@[simp] theorem State.vectored_op2 (s : State) (v : Word) : (s.vectored v).op2 = s.op2 := rfl
@[simp] theorem State.vectored_op3 (s : State) (v : Word) : (s.vectored v).op3 = s.op3 := rfl
@[simp] theorem State.vectored_op4 (s : State) (v : Word) : (s.vectored v).op4 = s.op4 := rfl
@[simp] theorem State.vectored_result (s : State) (v : Word) : (s.vectored v).result = s.result := rfl
@[simp] theorem State.vectored_result2 (s : State) (v : Word) : (s.vectored v).result2 = s.result2 := rfl
@[simp] theorem State.vectored_dec (s : State) (v : Word) : (s.vectored v).dec = s.dec := rfl
@[simp] theorem State.vectored_k (s : State) (v : Word) : (s.vectored v).k = 0 := rfl
@[simp] theorem State.vectored_phase (s : State) (v : Word) : (s.vectored v).phase = .run := rfl
@[simp] theorem State.vectored_jumpTaken (s : State) (v : Word) : (s.vectored v).jumpTaken = false := rfl
@[simp] theorem State.vectored_waitForInterrupt (s : State) (v : Word) : (s.vectored v).waitForInterrupt = s.waitForInterrupt := rfl
@[simp] theorem State.vectored_halted (s : State) (v : Word) : (s.vectored v).halted = s.halted := rfl
@[simp] theorem State.vectored_cycleCount (s : State) (v : Word) : (s.vectored v).cycleCount = s.cycleCount := rfl
@[simp] theorem State.vectored_inbuf (s : State) (v : Word) : (s.vectored v).inbuf = s.inbuf := rfl
@[simp] theorem State.vectored_ptr (s : State) (v : Word) : (s.vectored v).ptr = s.ptr := rfl
@[simp] theorem State.vectored_terminal (s : State) (v : Word) : (s.vectored v).terminal = s.terminal := rfl
@[simp] theorem State.vectored_ms (s : State) (v : Word) : (s.vectored v).ms = s.ms := rfl
@[simp] theorem State.vectored_terminated (s : State) (v : Word) : (s.vectored v).terminated = s.terminated := rfl
@[simp] theorem State.vectored_labelRefs (s : State) (v : Word) : (s.vectored v).labelRefs = s.labelRefs := rfl
@[simp] theorem State.vectored_execMode (s : State) (v : Word) : (s.vectored v).execMode = .continue := rfl
@[simp] theorem State.vectored_programKind (s : State) (v : Word) : (s.vectored v).programKind = s.programKind := rfl
@[simp] theorem State.vectored_refused (s : State) (v : Word) : (s.vectored v).refused = s.refused := rfl
@[simp] theorem State.vectored_executing (s : State) (v : Word) : (s.vectored v).executing = s.executing := rfl
@[simp] theorem State.vectored_refusal (s : State) (v : Word) : (s.vectored v).refusal = s.refusal := rfl
@[simp] theorem State.vectored_turns (s : State) (v : Word) : (s.vectored v).turns = s.turns := rfl
@[simp] theorem State.vectored_faultLog (s : State) (v : Word) : (s.vectored v).faultLog = s.faultLog := rfl
@[simp] theorem State.vectored_parseErrors (s : State) (v : Word) : (s.vectored v).parseErrors = s.parseErrors := rfl

/-! ### A refusal -/

@[simp] theorem State.refuse_r0 (s : State) (r : Refusal) : (s.refuse r).r0 = s.r0 := rfl
@[simp] theorem State.refuse_r1 (s : State) (r : Refusal) : (s.refuse r).r1 = s.r1 := rfl
@[simp] theorem State.refuse_r2 (s : State) (r : Refusal) : (s.refuse r).r2 = s.r2 := rfl
@[simp] theorem State.refuse_r3 (s : State) (r : Refusal) : (s.refuse r).r3 = s.r3 := rfl
@[simp] theorem State.refuse_x1 (s : State) (r : Refusal) : (s.refuse r).x1 = s.x1 := rfl
@[simp] theorem State.refuse_x2 (s : State) (r : Refusal) : (s.refuse r).x2 = s.x2 := rfl
@[simp] theorem State.refuse_x3 (s : State) (r : Refusal) : (s.refuse r).x3 = s.x3 := rfl
@[simp] theorem State.refuse_pc (s : State) (r : Refusal) : (s.refuse r).pc = s.pc := rfl
@[simp] theorem State.refuse_cc (s : State) (r : Refusal) : (s.refuse r).cc = s.cc := rfl
@[simp] theorem State.refuse_msr (s : State) (r : Refusal) : (s.refuse r).msr = s.msr := rfl
@[simp] theorem State.refuse_mfr (s : State) (r : Refusal) : (s.refuse r).mfr = s.mfr := rfl
@[simp] theorem State.refuse_ir (s : State) (r : Refusal) : (s.refuse r).ir = s.ir := rfl
@[simp] theorem State.refuse_mar (s : State) (r : Refusal) : (s.refuse r).mar = s.mar := rfl
@[simp] theorem State.refuse_mdr (s : State) (r : Refusal) : (s.refuse r).mdr = s.mdr := rfl
@[simp] theorem State.refuse_ea (s : State) (r : Refusal) : (s.refuse r).ea = s.ea := rfl
@[simp] theorem State.refuse_op1 (s : State) (r : Refusal) : (s.refuse r).op1 = s.op1 := rfl
@[simp] theorem State.refuse_op2 (s : State) (r : Refusal) : (s.refuse r).op2 = s.op2 := rfl
@[simp] theorem State.refuse_op3 (s : State) (r : Refusal) : (s.refuse r).op3 = s.op3 := rfl
@[simp] theorem State.refuse_op4 (s : State) (r : Refusal) : (s.refuse r).op4 = s.op4 := rfl
@[simp] theorem State.refuse_result (s : State) (r : Refusal) : (s.refuse r).result = s.result := rfl
@[simp] theorem State.refuse_result2 (s : State) (r : Refusal) : (s.refuse r).result2 = s.result2 := rfl
@[simp] theorem State.refuse_dec (s : State) (r : Refusal) : (s.refuse r).dec = s.dec := rfl
@[simp] theorem State.refuse_k (s : State) (r : Refusal) : (s.refuse r).k = s.k := rfl
@[simp] theorem State.refuse_phase (s : State) (r : Refusal) : (s.refuse r).phase = s.phase := rfl
@[simp] theorem State.refuse_jumpTaken (s : State) (r : Refusal) : (s.refuse r).jumpTaken = s.jumpTaken := rfl
@[simp] theorem State.refuse_waitForInterrupt (s : State) (r : Refusal) : (s.refuse r).waitForInterrupt = s.waitForInterrupt := rfl
@[simp] theorem State.refuse_halted (s : State) (r : Refusal) : (s.refuse r).halted = s.halted := rfl
@[simp] theorem State.refuse_cycleCount (s : State) (r : Refusal) : (s.refuse r).cycleCount = s.cycleCount := rfl
@[simp] theorem State.refuse_inbuf (s : State) (r : Refusal) : (s.refuse r).inbuf = s.inbuf := rfl
@[simp] theorem State.refuse_ptr (s : State) (r : Refusal) : (s.refuse r).ptr = s.ptr := rfl
@[simp] theorem State.refuse_terminal (s : State) (r : Refusal) : (s.refuse r).terminal = s.terminal := rfl
@[simp] theorem State.refuse_ms (s : State) (r : Refusal) : (s.refuse r).ms = s.ms := rfl
@[simp] theorem State.refuse_terminated (s : State) (r : Refusal) : (s.refuse r).terminated = s.terminated := rfl
@[simp] theorem State.refuse_labelRefs (s : State) (r : Refusal) : (s.refuse r).labelRefs = s.labelRefs := rfl
@[simp] theorem State.refuse_execMode (s : State) (r : Refusal) : (s.refuse r).execMode = s.execMode := rfl
@[simp] theorem State.refuse_programKind (s : State) (r : Refusal) : (s.refuse r).programKind = s.programKind := rfl
@[simp] theorem State.refuse_refused (s : State) (r : Refusal) : (s.refuse r).refused = true := rfl
@[simp] theorem State.refuse_executing (s : State) (r : Refusal) : (s.refuse r).executing = false := rfl
@[simp] theorem State.refuse_refusal (s : State) (r : Refusal) : (s.refuse r).refusal = some r := rfl
@[simp] theorem State.refuse_turns (s : State) (r : Refusal) : (s.refuse r).turns = s.turns := rfl
@[simp] theorem State.refuse_faultLog (s : State) (r : Refusal) : (s.refuse r).faultLog = s.faultLog := rfl
@[simp] theorem State.refuse_parseErrors (s : State) (r : Refusal) : (s.refuse r).parseErrors = s.parseErrors := rfl

/-! ### Inside an execute -/

@[simp] theorem State.resume_r0 (s : State) : (s.resume).r0 = s.r0 := rfl
@[simp] theorem State.resume_r1 (s : State) : (s.resume).r1 = s.r1 := rfl
@[simp] theorem State.resume_r2 (s : State) : (s.resume).r2 = s.r2 := rfl
@[simp] theorem State.resume_r3 (s : State) : (s.resume).r3 = s.r3 := rfl
@[simp] theorem State.resume_x1 (s : State) : (s.resume).x1 = s.x1 := rfl
@[simp] theorem State.resume_x2 (s : State) : (s.resume).x2 = s.x2 := rfl
@[simp] theorem State.resume_x3 (s : State) : (s.resume).x3 = s.x3 := rfl
@[simp] theorem State.resume_pc (s : State) : (s.resume).pc = s.pc := rfl
@[simp] theorem State.resume_cc (s : State) : (s.resume).cc = s.cc := rfl
@[simp] theorem State.resume_msr (s : State) : (s.resume).msr = s.msr := rfl
@[simp] theorem State.resume_mfr (s : State) : (s.resume).mfr = s.mfr := rfl
@[simp] theorem State.resume_ir (s : State) : (s.resume).ir = s.ir := rfl
@[simp] theorem State.resume_mar (s : State) : (s.resume).mar = s.mar := rfl
@[simp] theorem State.resume_mdr (s : State) : (s.resume).mdr = s.mdr := rfl
@[simp] theorem State.resume_ea (s : State) : (s.resume).ea = s.ea := rfl
@[simp] theorem State.resume_op1 (s : State) : (s.resume).op1 = s.op1 := rfl
@[simp] theorem State.resume_op2 (s : State) : (s.resume).op2 = s.op2 := rfl
@[simp] theorem State.resume_op3 (s : State) : (s.resume).op3 = s.op3 := rfl
@[simp] theorem State.resume_op4 (s : State) : (s.resume).op4 = s.op4 := rfl
@[simp] theorem State.resume_result (s : State) : (s.resume).result = s.result := rfl
@[simp] theorem State.resume_result2 (s : State) : (s.resume).result2 = s.result2 := rfl
@[simp] theorem State.resume_dec (s : State) : (s.resume).dec = s.dec := rfl
@[simp] theorem State.resume_k (s : State) : (s.resume).k = s.k := rfl
@[simp] theorem State.resume_phase (s : State) : (s.resume).phase = s.phase := rfl
@[simp] theorem State.resume_jumpTaken (s : State) : (s.resume).jumpTaken = s.jumpTaken := rfl
@[simp] theorem State.resume_waitForInterrupt (s : State) : (s.resume).waitForInterrupt = s.waitForInterrupt := rfl
@[simp] theorem State.resume_halted (s : State) : (s.resume).halted = s.halted := rfl
@[simp] theorem State.resume_cycleCount (s : State) : (s.resume).cycleCount = s.cycleCount := rfl
@[simp] theorem State.resume_inbuf (s : State) : (s.resume).inbuf = s.inbuf := rfl
@[simp] theorem State.resume_ptr (s : State) : (s.resume).ptr = s.ptr := rfl
@[simp] theorem State.resume_terminal (s : State) : (s.resume).terminal = s.terminal := rfl
@[simp] theorem State.resume_ms (s : State) : (s.resume).ms = s.ms := rfl
@[simp] theorem State.resume_terminated (s : State) : (s.resume).terminated = s.terminated := rfl
@[simp] theorem State.resume_labelRefs (s : State) : (s.resume).labelRefs = s.labelRefs := rfl
@[simp] theorem State.resume_execMode (s : State) : (s.resume).execMode = s.execMode := rfl
@[simp] theorem State.resume_programKind (s : State) : (s.resume).programKind = s.programKind := rfl
@[simp] theorem State.resume_refused (s : State) : (s.resume).refused = s.refused := rfl
@[simp] theorem State.resume_executing (s : State) : (s.resume).executing = s.canRun := rfl
@[simp] theorem State.resume_refusal (s : State) : (s.resume).refusal = s.refusal := rfl
@[simp] theorem State.resume_turns (s : State) : (s.resume).turns = s.turns := rfl
@[simp] theorem State.resume_faultLog (s : State) : (s.resume).faultLog = s.faultLog := rfl
@[simp] theorem State.resume_parseErrors (s : State) : (s.resume).parseErrors = s.parseErrors := rfl

/-! ### General registers -/

@[simp] theorem State.setR_r0 (s : State) (n : BitVec 2) (v : Word) : (s.setR n v).r0 = if n = 0 then v else s.r0 := rfl
@[simp] theorem State.setR_r1 (s : State) (n : BitVec 2) (v : Word) : (s.setR n v).r1 = if n = 1 then v else s.r1 := rfl
@[simp] theorem State.setR_r2 (s : State) (n : BitVec 2) (v : Word) : (s.setR n v).r2 = if n = 2 then v else s.r2 := rfl
@[simp] theorem State.setR_r3 (s : State) (n : BitVec 2) (v : Word) : (s.setR n v).r3 = if n = 3 then v else s.r3 := rfl
@[simp] theorem State.setR_x1 (s : State) (n : BitVec 2) (v : Word) : (s.setR n v).x1 = s.x1 := rfl
@[simp] theorem State.setR_x2 (s : State) (n : BitVec 2) (v : Word) : (s.setR n v).x2 = s.x2 := rfl
@[simp] theorem State.setR_x3 (s : State) (n : BitVec 2) (v : Word) : (s.setR n v).x3 = s.x3 := rfl
@[simp] theorem State.setR_pc (s : State) (n : BitVec 2) (v : Word) : (s.setR n v).pc = s.pc := rfl
@[simp] theorem State.setR_cc (s : State) (n : BitVec 2) (v : Word) : (s.setR n v).cc = s.cc := rfl
@[simp] theorem State.setR_msr (s : State) (n : BitVec 2) (v : Word) : (s.setR n v).msr = s.msr := rfl
@[simp] theorem State.setR_mfr (s : State) (n : BitVec 2) (v : Word) : (s.setR n v).mfr = s.mfr := rfl
@[simp] theorem State.setR_ir (s : State) (n : BitVec 2) (v : Word) : (s.setR n v).ir = s.ir := rfl
@[simp] theorem State.setR_mar (s : State) (n : BitVec 2) (v : Word) : (s.setR n v).mar = s.mar := rfl
@[simp] theorem State.setR_mdr (s : State) (n : BitVec 2) (v : Word) : (s.setR n v).mdr = s.mdr := rfl
@[simp] theorem State.setR_ea (s : State) (n : BitVec 2) (v : Word) : (s.setR n v).ea = s.ea := rfl
@[simp] theorem State.setR_op1 (s : State) (n : BitVec 2) (v : Word) : (s.setR n v).op1 = s.op1 := rfl
@[simp] theorem State.setR_op2 (s : State) (n : BitVec 2) (v : Word) : (s.setR n v).op2 = s.op2 := rfl
@[simp] theorem State.setR_op3 (s : State) (n : BitVec 2) (v : Word) : (s.setR n v).op3 = s.op3 := rfl
@[simp] theorem State.setR_op4 (s : State) (n : BitVec 2) (v : Word) : (s.setR n v).op4 = s.op4 := rfl
@[simp] theorem State.setR_result (s : State) (n : BitVec 2) (v : Word) : (s.setR n v).result = s.result := rfl
@[simp] theorem State.setR_result2 (s : State) (n : BitVec 2) (v : Word) : (s.setR n v).result2 = s.result2 := rfl
@[simp] theorem State.setR_dec (s : State) (n : BitVec 2) (v : Word) : (s.setR n v).dec = s.dec := rfl
@[simp] theorem State.setR_k (s : State) (n : BitVec 2) (v : Word) : (s.setR n v).k = s.k := rfl
@[simp] theorem State.setR_phase (s : State) (n : BitVec 2) (v : Word) : (s.setR n v).phase = s.phase := rfl
@[simp] theorem State.setR_jumpTaken (s : State) (n : BitVec 2) (v : Word) : (s.setR n v).jumpTaken = s.jumpTaken := rfl
@[simp] theorem State.setR_waitForInterrupt (s : State) (n : BitVec 2) (v : Word) : (s.setR n v).waitForInterrupt = s.waitForInterrupt := rfl
@[simp] theorem State.setR_halted (s : State) (n : BitVec 2) (v : Word) : (s.setR n v).halted = s.halted := rfl
@[simp] theorem State.setR_cycleCount (s : State) (n : BitVec 2) (v : Word) : (s.setR n v).cycleCount = s.cycleCount := rfl
@[simp] theorem State.setR_inbuf (s : State) (n : BitVec 2) (v : Word) : (s.setR n v).inbuf = s.inbuf := rfl
@[simp] theorem State.setR_ptr (s : State) (n : BitVec 2) (v : Word) : (s.setR n v).ptr = s.ptr := rfl
@[simp] theorem State.setR_terminal (s : State) (n : BitVec 2) (v : Word) : (s.setR n v).terminal = s.terminal := rfl
@[simp] theorem State.setR_ms (s : State) (n : BitVec 2) (v : Word) : (s.setR n v).ms = s.ms := rfl
@[simp] theorem State.setR_terminated (s : State) (n : BitVec 2) (v : Word) : (s.setR n v).terminated = s.terminated := rfl
@[simp] theorem State.setR_labelRefs (s : State) (n : BitVec 2) (v : Word) : (s.setR n v).labelRefs = s.labelRefs := rfl
@[simp] theorem State.setR_execMode (s : State) (n : BitVec 2) (v : Word) : (s.setR n v).execMode = s.execMode := rfl
@[simp] theorem State.setR_programKind (s : State) (n : BitVec 2) (v : Word) : (s.setR n v).programKind = s.programKind := rfl
@[simp] theorem State.setR_refused (s : State) (n : BitVec 2) (v : Word) : (s.setR n v).refused = s.refused := rfl
@[simp] theorem State.setR_executing (s : State) (n : BitVec 2) (v : Word) : (s.setR n v).executing = s.executing := rfl
@[simp] theorem State.setR_refusal (s : State) (n : BitVec 2) (v : Word) : (s.setR n v).refusal = s.refusal := rfl
@[simp] theorem State.setR_turns (s : State) (n : BitVec 2) (v : Word) : (s.setR n v).turns = s.turns := rfl
@[simp] theorem State.setR_faultLog (s : State) (n : BitVec 2) (v : Word) : (s.setR n v).faultLog = s.faultLog := rfl
@[simp] theorem State.setR_parseErrors (s : State) (n : BitVec 2) (v : Word) : (s.setR n v).parseErrors = s.parseErrors := rfl

/-! ### Index registers -/

@[simp] theorem State.setX_r0 (s : State) (n : BitVec 2) (v : Word) : (s.setX n v).r0 = s.r0 := rfl
@[simp] theorem State.setX_r1 (s : State) (n : BitVec 2) (v : Word) : (s.setX n v).r1 = s.r1 := rfl
@[simp] theorem State.setX_r2 (s : State) (n : BitVec 2) (v : Word) : (s.setX n v).r2 = s.r2 := rfl
@[simp] theorem State.setX_r3 (s : State) (n : BitVec 2) (v : Word) : (s.setX n v).r3 = s.r3 := rfl
@[simp] theorem State.setX_x1 (s : State) (n : BitVec 2) (v : Word) : (s.setX n v).x1 = if n = 1 then v else s.x1 := rfl
@[simp] theorem State.setX_x2 (s : State) (n : BitVec 2) (v : Word) : (s.setX n v).x2 = if n = 2 then v else s.x2 := rfl
@[simp] theorem State.setX_x3 (s : State) (n : BitVec 2) (v : Word) : (s.setX n v).x3 = if n = 3 then v else s.x3 := rfl
@[simp] theorem State.setX_pc (s : State) (n : BitVec 2) (v : Word) : (s.setX n v).pc = s.pc := rfl
@[simp] theorem State.setX_cc (s : State) (n : BitVec 2) (v : Word) : (s.setX n v).cc = s.cc := rfl
@[simp] theorem State.setX_msr (s : State) (n : BitVec 2) (v : Word) : (s.setX n v).msr = s.msr := rfl
@[simp] theorem State.setX_mfr (s : State) (n : BitVec 2) (v : Word) : (s.setX n v).mfr = s.mfr := rfl
@[simp] theorem State.setX_ir (s : State) (n : BitVec 2) (v : Word) : (s.setX n v).ir = s.ir := rfl
@[simp] theorem State.setX_mar (s : State) (n : BitVec 2) (v : Word) : (s.setX n v).mar = s.mar := rfl
@[simp] theorem State.setX_mdr (s : State) (n : BitVec 2) (v : Word) : (s.setX n v).mdr = s.mdr := rfl
@[simp] theorem State.setX_ea (s : State) (n : BitVec 2) (v : Word) : (s.setX n v).ea = s.ea := rfl
@[simp] theorem State.setX_op1 (s : State) (n : BitVec 2) (v : Word) : (s.setX n v).op1 = s.op1 := rfl
@[simp] theorem State.setX_op2 (s : State) (n : BitVec 2) (v : Word) : (s.setX n v).op2 = s.op2 := rfl
@[simp] theorem State.setX_op3 (s : State) (n : BitVec 2) (v : Word) : (s.setX n v).op3 = s.op3 := rfl
@[simp] theorem State.setX_op4 (s : State) (n : BitVec 2) (v : Word) : (s.setX n v).op4 = s.op4 := rfl
@[simp] theorem State.setX_result (s : State) (n : BitVec 2) (v : Word) : (s.setX n v).result = s.result := rfl
@[simp] theorem State.setX_result2 (s : State) (n : BitVec 2) (v : Word) : (s.setX n v).result2 = s.result2 := rfl
@[simp] theorem State.setX_dec (s : State) (n : BitVec 2) (v : Word) : (s.setX n v).dec = s.dec := rfl
@[simp] theorem State.setX_k (s : State) (n : BitVec 2) (v : Word) : (s.setX n v).k = s.k := rfl
@[simp] theorem State.setX_phase (s : State) (n : BitVec 2) (v : Word) : (s.setX n v).phase = s.phase := rfl
@[simp] theorem State.setX_jumpTaken (s : State) (n : BitVec 2) (v : Word) : (s.setX n v).jumpTaken = s.jumpTaken := rfl
@[simp] theorem State.setX_waitForInterrupt (s : State) (n : BitVec 2) (v : Word) : (s.setX n v).waitForInterrupt = s.waitForInterrupt := rfl
@[simp] theorem State.setX_halted (s : State) (n : BitVec 2) (v : Word) : (s.setX n v).halted = s.halted := rfl
@[simp] theorem State.setX_cycleCount (s : State) (n : BitVec 2) (v : Word) : (s.setX n v).cycleCount = s.cycleCount := rfl
@[simp] theorem State.setX_inbuf (s : State) (n : BitVec 2) (v : Word) : (s.setX n v).inbuf = s.inbuf := rfl
@[simp] theorem State.setX_ptr (s : State) (n : BitVec 2) (v : Word) : (s.setX n v).ptr = s.ptr := rfl
@[simp] theorem State.setX_terminal (s : State) (n : BitVec 2) (v : Word) : (s.setX n v).terminal = s.terminal := rfl
@[simp] theorem State.setX_ms (s : State) (n : BitVec 2) (v : Word) : (s.setX n v).ms = s.ms := rfl
@[simp] theorem State.setX_terminated (s : State) (n : BitVec 2) (v : Word) : (s.setX n v).terminated = s.terminated := rfl
@[simp] theorem State.setX_labelRefs (s : State) (n : BitVec 2) (v : Word) : (s.setX n v).labelRefs = s.labelRefs := rfl
@[simp] theorem State.setX_execMode (s : State) (n : BitVec 2) (v : Word) : (s.setX n v).execMode = s.execMode := rfl
@[simp] theorem State.setX_programKind (s : State) (n : BitVec 2) (v : Word) : (s.setX n v).programKind = s.programKind := rfl
@[simp] theorem State.setX_refused (s : State) (n : BitVec 2) (v : Word) : (s.setX n v).refused = s.refused := rfl
@[simp] theorem State.setX_executing (s : State) (n : BitVec 2) (v : Word) : (s.setX n v).executing = s.executing := rfl
@[simp] theorem State.setX_refusal (s : State) (n : BitVec 2) (v : Word) : (s.setX n v).refusal = s.refusal := rfl
@[simp] theorem State.setX_turns (s : State) (n : BitVec 2) (v : Word) : (s.setX n v).turns = s.turns := rfl
@[simp] theorem State.setX_faultLog (s : State) (n : BitVec 2) (v : Word) : (s.setX n v).faultLog = s.faultLog := rfl
@[simp] theorem State.setX_parseErrors (s : State) (n : BitVec 2) (v : Word) : (s.setX n v).parseErrors = s.parseErrors := rfl

/-! ### Reading a register after a write -/

theorem bv2_cases (n : BitVec 2) : n = 0 ∨ n = 1 ∨ n = 2 ∨ n = 3 := by
  revert n; decide

theorem pickR_update (n j : BitVec 2) (v v0 v1 v2 v3 : Word) :
    pickR j (if n = 0 then v else v0) (if n = 1 then v else v1) (if n = 2 then v else v2) (if n = 3 then v else v3) =
      if n = j then v else pickR j v0 v1 v2 v3 := by
  rcases bv2_cases n with h | h | h | h <;> rcases bv2_cases j with h' | h' | h' | h' <;> subst h <;> subst h' <;> rfl

theorem pickX_update (n j : BitVec 2) (v v1 v2 v3 : Word) (h : j ≠ 0) :
    pickX j (if n = 1 then v else v1) (if n = 2 then v else v2) (if n = 3 then v else v3) =
      if n = j then some v else pickX j v1 v2 v3 := by
  rcases bv2_cases n with h' | h' | h' | h' <;> rcases bv2_cases j with h'' | h'' | h'' | h'' <;> subst h' <;>
    subst h'' <;> first | rfl | exact absurd rfl h

theorem State.getR_setR (s : State) (n j : BitVec 2) (v : Word) :
    (s.setR n v).getR j = if n = j then v else s.getR j := pickR_update n j v _ _ _ _

@[simp] theorem State.getR_setR_same (s : State) (n : BitVec 2) (v : Word) : (s.setR n v).getR n = v := by
  rw [State.getR_setR, if_pos rfl]

theorem State.getX_setX (s : State) (n j : BitVec 2) (v : Word) (h : j ≠ 0) :
    (s.setX n v).getX j = if n = j then some v else s.getX j := pickX_update n j v _ _ _ h

@[simp] theorem State.getX_setR (s : State) (n j : BitVec 2) (v : Word) : (s.setR n v).getX j = s.getX j := rfl

@[simp] theorem State.getR_setX (s : State) (n j : BitVec 2) (v : Word) : (s.setX n v).getR j = s.getR j := rfl

@[simp] theorem State.withMs_withMs (s : State) (m m' : MemSys) : (s.withMs m).withMs m' = s.withMs m' := rfl

@[simp] theorem State.withMs_ms_self (s : State) : s.withMs s.ms = s := rfl

end Sys2Proof.Machine
end

