-- ==== Sys2Proof/Laws/Engine.lean ====
section
/-! SUPPORT. Laws of the engine's shared operations (Machine/Ops.lean): what one micro-step, a sequence of them, decode, the
effective address and fault entry can do, said once. -/

namespace Sys2Proof.Machine

variable {fin onFault : State → Out} {ops : List Micro} {s : State}

/-! ### Micro-steps of register transfers -/

@[simp] theorem retryHeld_regOp (f : State → State) : ∀ (n : Nat) (s : State), retryHeld n (regOp f) s = .ok (f s)
  | 0, _ => rfl
  | _ + 1, _ => rfl

theorem microTurn_regOp (f : State → State) (s : State) :
    microTurn (regOp f) s = .ok (f (s.withMs s.ms.startTurn)).tick := by
  simp [microTurn, account]

theorem thenAdvance_regOp (f : State → State) :
    thenAdvance (regOp f) = regOp (fun s => (f s).nextK) := rfl

theorem thenComplete_regOp (f : State → State) : thenComplete (regOp f) = regOp (fun s => (f s).completed) := rfl

theorem thenAdvance_readOp (addr : State → Word) (put : Word → State → State) :
    thenAdvance (readOp addr put) = readOp addr (fun v s => (put v s).nextK) := by
  funext s; simp only [thenAdvance, readOp]; cases s.ms.memRead (addr s) <;> rfl

theorem thenComplete_readOp (addr : State → Word) (put : Word → State → State) :
    thenComplete (readOp addr put) = readOp addr (fun v s => (put v s).completed) := by
  funext s; simp only [thenComplete, readOp]; cases s.ms.memRead (addr s) <;> rfl

theorem thenAdvance_writeOp (addr value : State → Word) (after : State → State) :
    thenAdvance (writeOp addr value after) = writeOp addr value (fun s => (after s).nextK) := by
  funext s; simp only [thenAdvance, writeOp]; cases s.ms.memWrite (addr s) (value s) <;> rfl

theorem thenComplete_writeOp (addr value : State → Word) (after : State → State) :
    thenComplete (writeOp addr value after) = writeOp addr value (fun s => (after s).completed) := by
  funext s; simp only [thenComplete, writeOp]; cases s.ms.memWrite (addr s) (value s) <;> rfl

theorem stepsOf_cons (op : Micro) {ops : List Micro} (h : ops ≠ []) :
    stepsOf (op :: ops) = thenAdvance op :: stepsOf ops := by
  cases ops with
  | nil => exact absurd rfl h
  | cons _ _ => rfl

@[simp] theorem stepsOf_one (op : Micro) : stepsOf [op] = [thenComplete op] := rfl

@[simp] theorem stepsOf_two (op op' : Micro) (ops : List Micro) :
    stepsOf (op :: op' :: ops) = thenAdvance op :: stepsOf (op' :: ops) := rfl

@[simp] theorem runSeq_nil : runSeq fin onFault [] s = fin s := rfl

/-- A register transfer takes one micro-step; the memory side has only the controller's moves. -/
theorem runSeq_regOp (f : State → State) :
    runSeq fin onFault (regOp f :: ops) s = runSeq fin onFault ops (f (s.withMs s.ms.startTurn)).tick := by
  rw [runSeq, microTurn_regOp]

/-! ### Micro-steps of memory accesses -/

theorem retryHeld_of_ok {op : Micro} {t : State} (h : op s = .ok t) : ∀ n, retryHeld n op s = .ok t
  | 0 => h
  | n + 1 => by simp only [retryHeld, h]

theorem retryHeld_of_raise {op : Micro} {t : State} {kind : FaultKind} (h : op s = .raise kind t) :
    ∀ n, retryHeld n op s = .raise kind t
  | 0 => h
  | n + 1 => by simp only [retryHeld, h]

/-- A read in range is taken at once and gives the word the program sees (20_memory.md R69, R78). -/
theorem microTurn_readOp {addr : State → Word} {put : Word → State → State} (h : s.ms.Inv)
    (haddr : ∀ m, addr (s.withMs m) = addr s) (ha : (addr s).toNat < Config.memWords) :
    ∃ m, m.Shows s.ms.view ∧
      microTurn (readOp addr put) s = .ok (put (s.ms.view (addr s).toNat) (s.withMs m)).tick := by
  have hst := MemSys.startTurn_shows h
  obtain ⟨m, hr, hs, -⟩ := hst.1.memRead_spec ha
  refine ⟨m, hst.trans hs, ?_⟩
  have : readOp addr put (s.withMs s.ms.startTurn) = .ok (put (s.ms.view (addr s).toNat) (s.withMs m)) := by
    simp only [readOp, haddr, State.withMs_ms, hr, hst.2, State.withMs_withMs]
  simp only [microTurn, retryHeld_of_ok this, account]

/-- A read out of range raises the address fault in its micro-step (20_memory.md R61, 41_execution_cycle.md R193). -/
theorem microTurn_readOp_raise {addr : State → Word} {put : Word → State → State}
    (haddr : ∀ m, addr (s.withMs m) = addr s) (ha : ¬ (addr s).toNat < Config.memWords) :
    microTurn (readOp addr put) s =
      .raise .addressFault ((s.withMs s.ms.startTurn).raiseFault .addressFault).tick := by
  have : readOp addr put (s.withMs s.ms.startTurn) = .raise .addressFault (s.withMs s.ms.startTurn) := by
    simp only [readOp, haddr, MemSys.memRead_raise _ ha]
  simp only [microTurn, retryHeld_of_raise this, account]

/-- A held write is taken once the controller has made room: within the moves that drain the buffer
(41_execution_cycle.md R192, 20_memory.md R72). -/
theorem retryHeld_writeOp {addr value : State → Word} {after : State → State} :
    ∀ (n : Nat) (s : State), s.ms.Inv → (∀ m, addr (s.withMs m) = addr s) →
      (∀ m, value (s.withMs m) = value s) → (addr s).toNat < Config.memWords → s.ms.pendingMoves ≤ n →
      ∃ m, m.Shows (fun x => if x = (addr s).toNat then value s else s.ms.view x) ∧
        retryHeld n (writeOp addr value after) s = .ok (after (s.withMs m))
  | n, s, h, haddr, hval, ha, hn => by
    by_cases hroom : s.ms.wb.length < Config.wbCap
    · obtain ⟨m, hw, hs, -⟩ := h.memWrite_spec ha hroom (value s)
      exact ⟨m, hs, retryHeld_of_ok (by simp only [writeOp, hw]) n⟩
    · cases n with
      | zero =>
        have := (MemSys.pendingMoves_eq_zero.1 (Nat.le_zero.1 hn)).1
        simp [this] at hroom
      | succ n =>
        have hhold : writeOp addr value after s = .hold .bufferFull s := by
          simp only [writeOp, MemSys.memWrite_full _ ha (Nat.le_of_not_lt hroom)]
        have hc := MemSys.ctrlMove_shows h
        have hpm : s.ms.ctrlMove.pendingMoves ≤ n := by rw [MemSys.ctrlMove_pendingMoves]; omega
        have haddr' : ∀ m, addr ((s.withMs s.ms.ctrlMove).withMs m) = addr (s.withMs s.ms.ctrlMove) := fun m => by
          rw [State.withMs_withMs, haddr, haddr]
        have hval' : ∀ m, value ((s.withMs s.ms.ctrlMove).withMs m) = value (s.withMs s.ms.ctrlMove) := fun m => by
          rw [State.withMs_withMs, hval, hval]
        obtain ⟨m, hs, hr⟩ := retryHeld_writeOp (after := after) n (s.withMs s.ms.ctrlMove) hc.1 haddr' hval'
          (by rw [haddr]; exact ha) hpm
        refine ⟨m, ⟨hs.1, fun x => ?_⟩, ?_⟩
        · simp only [hs.2 x, haddr, hval, State.withMs_ms, hc.2]
        · rw [State.withMs_withMs] at hr; simp only [retryHeld, hhold]; exact hr

/-- A write in range is taken, after the controller's moves if the buffer was full, and changes one word of the
program's view (20_memory.md R70, R78). -/
theorem microTurn_writeOp {addr value : State → Word} {after : State → State} (h : s.ms.Inv)
    (haddr : ∀ m, addr (s.withMs m) = addr s) (hval : ∀ m, value (s.withMs m) = value s)
    (ha : (addr s).toNat < Config.memWords) :
    ∃ m, m.Shows (fun x => if x = (addr s).toNat then value s else s.ms.view x) ∧
      microTurn (writeOp addr value after) s = .ok (after (s.withMs m)).tick := by
  have hst := MemSys.startTurn_shows h
  obtain ⟨m, hs, hr⟩ := retryHeld_writeOp (addr := addr) (value := value) (after := after) s.ms.startTurn.pendingMoves (s.withMs s.ms.startTurn)
    hst.1 (fun m => by rw [State.withMs_withMs, haddr, haddr]) (fun m => by rw [State.withMs_withMs, hval, hval])
    (by rw [haddr]; exact ha) (Nat.le_refl _)
  refine ⟨m, ⟨hs.1, fun x => ?_⟩, ?_⟩
  · simp only [hs.2 x, haddr, hval, State.withMs_ms, hst.2]
  · rw [State.withMs_withMs] at hr; simp only [microTurn, hr, account]

/-- A write out of range raises the address fault in its micro-step, whether or not the buffer is full
(20_memory.md R61, 60_exceptions.md R304). -/
theorem microTurn_writeOp_raise {addr value : State → Word} {after : State → State}
    (haddr : ∀ m, addr (s.withMs m) = addr s) (ha : ¬ (addr s).toNat < Config.memWords) :
    microTurn (writeOp addr value after) s =
      .raise .addressFault ((s.withMs s.ms.startTurn).raiseFault .addressFault).tick := by
  have : writeOp addr value after (s.withMs s.ms.startTurn) =
      .raise .addressFault (s.withMs s.ms.startTurn) := by
    simp only [writeOp, haddr, MemSys.memWrite_raise _ ha]
  simp only [microTurn, retryHeld_of_raise this, account]

theorem runSeq_readOp {addr : State → Word} {put : Word → State → State} (h : s.ms.Inv)
    (haddr : ∀ m, addr (s.withMs m) = addr s) (ha : (addr s).toNat < Config.memWords) :
    ∃ m, m.Shows s.ms.view ∧ runSeq fin onFault (readOp addr put :: ops) s =
      runSeq fin onFault ops (put (s.ms.view (addr s).toNat) (s.withMs m)).tick := by
  obtain ⟨m, hs, he⟩ := microTurn_readOp (put := put) h haddr ha
  exact ⟨m, hs, by rw [runSeq, he]⟩

theorem runSeq_readOp_raise {addr : State → Word} {put : Word → State → State}
    (haddr : ∀ m, addr (s.withMs m) = addr s) (ha : ¬ (addr s).toNat < Config.memWords) :
    runSeq fin onFault (readOp addr put :: ops) s =
      onFault ((s.withMs s.ms.startTurn).raiseFault .addressFault).tick := by
  rw [runSeq, microTurn_readOp_raise haddr ha]

theorem runSeq_writeOp {addr value : State → Word} {after : State → State} (h : s.ms.Inv)
    (haddr : ∀ m, addr (s.withMs m) = addr s) (hval : ∀ m, value (s.withMs m) = value s)
    (ha : (addr s).toNat < Config.memWords) :
    ∃ m, m.Shows (fun x => if x = (addr s).toNat then value s else s.ms.view x) ∧
      runSeq fin onFault (writeOp addr value after :: ops) s = runSeq fin onFault ops (after (s.withMs m)).tick := by
  obtain ⟨m, hs, he⟩ := microTurn_writeOp (after := after) h haddr hval ha
  exact ⟨m, hs, by rw [runSeq, he]⟩

theorem runSeq_writeOp_raise {addr value : State → Word} {after : State → State}
    (haddr : ∀ m, addr (s.withMs m) = addr s) (ha : ¬ (addr s).toNat < Config.memWords) :
    runSeq fin onFault (writeOp addr value after :: ops) s =
      onFault ((s.withMs s.ms.startTurn).raiseFault .addressFault).tick := by
  rw [runSeq, microTurn_writeOp_raise haddr ha]

/-! ### Running a sequence, one micro-step at a time

`Reaches o f X`: the outcome is `X m` for some memory side `m` that shows `f`. One lemma per kind of micro-op takes the
first micro-step of a sequence; each gives a new memory side that shows what the program sees. -/

/-- The outcome `o` is `X` of a memory side that shows `f`. -/
def Reaches (o : Out) (f : Nat → Word) (X : MemSys → Out) : Prop := ∃ m, m.Shows f ∧ o = X m

variable {f g : Nat → Word} {X : MemSys → Out}

theorem Reaches.done {m : MemSys} (h : m.Shows f) : Reaches (X m) f X := ⟨m, h, rfl⟩

theorem Reaches.congr {o o' : Out} (h : o = o') (h' : Reaches o' f X) : Reaches o f X := h ▸ h'

theorem MemSys.Shows.startTurn {m : MemSys} (h : m.Shows g) : m.startTurn.Shows g :=
  h.trans (MemSys.startTurn_shows h.1)

theorem Reaches.regOp {u : State → State} (h : s.ms.Shows g)
    (next : ∀ m, m.Shows g → Reaches (runSeq fin onFault ops (u (s.withMs m)).tick) f X) :
    Reaches (runSeq fin onFault (regOp u :: ops) s) f X := by
  rw [runSeq_regOp]; exact next _ h.startTurn

theorem Reaches.readOp {addr : State → Word} {put : Word → State → State} (h : s.ms.Shows g)
    (haddr : ∀ m, addr (s.withMs m) = addr s) (ha : (addr s).toNat < Config.memWords)
    (next : ∀ m, m.Shows g →
      Reaches (runSeq fin onFault ops (put (g (addr s).toNat) (s.withMs m)).tick) f X) :
    Reaches (runSeq fin onFault (readOp addr put :: ops) s) f X := by
  obtain ⟨m, hm, he⟩ := runSeq_readOp (fin := fin) (onFault := onFault) (ops := ops) (put := put) h.1 haddr ha
  rw [he, h.2]; exact next m (h.trans hm)

theorem Reaches.readOp_raise {addr : State → Word} {put : Word → State → State} (h : s.ms.Shows g)
    (haddr : ∀ m, addr (s.withMs m) = addr s) (ha : ¬ (addr s).toNat < Config.memWords)
    (next : ∀ m, m.Shows g → Reaches (onFault ((s.withMs m).raiseFault .addressFault).tick) f X) :
    Reaches (runSeq fin onFault (Machine.readOp addr put :: ops) s) f X := by
  rw [runSeq_readOp_raise haddr ha]; exact next _ h.startTurn

theorem Reaches.writeOp {addr value : State → Word} {after : State → State} (h : s.ms.Shows g)
    (haddr : ∀ m, addr (s.withMs m) = addr s) (hval : ∀ m, value (s.withMs m) = value s)
    (ha : (addr s).toNat < Config.memWords)
    (next : ∀ m, m.Shows (fun x => if x = (addr s).toNat then value s else g x) →
      Reaches (runSeq fin onFault ops (after (s.withMs m)).tick) f X) :
    Reaches (runSeq fin onFault (writeOp addr value after :: ops) s) f X := by
  obtain ⟨m, hm, he⟩ := runSeq_writeOp (fin := fin) (onFault := onFault) (ops := ops) (after := after) h.1 haddr hval ha
  rw [he]; exact next m ⟨hm.1, fun x => by simp only [hm.2 x, h.2]⟩

theorem Reaches.writeOp_raise {addr value : State → Word} {after : State → State} (h : s.ms.Shows g)
    (haddr : ∀ m, addr (s.withMs m) = addr s) (ha : ¬ (addr s).toNat < Config.memWords)
    (next : ∀ m, m.Shows g → Reaches (onFault ((s.withMs m).raiseFault .addressFault).tick) f X) :
    Reaches (runSeq fin onFault (Machine.writeOp addr value after :: ops) s) f X := by
  rw [runSeq_writeOp_raise haddr ha]; exact next _ h.startTurn

/-! ### Decode -/

/-- The decode step writes the field registers and, through the trampoline, at most mem[8]; it completes in one
micro-step (41_execution_cycle.md R185, R186). -/
theorem runSeq_decodeStep (h : s.ms.Inv) (f : DecodeFields) :
    ∃ m, m.Shows (s.seen f.addr) ∧ runSeq fin onFault (decodeStep f :: ops) s =
      runSeq fin onFault ops { s with dec := f, k := 4, cycleCount := s.cycleCount + 1, ms := m } := by
  have hst := MemSys.startTurn_shows h
  by_cases hf : f.addr.toNat = Config.trampAddr
  · cases hr : lookupRef s.labelRefs s.pc with
    | some t =>
      have hop : ∀ m, decodeStep f (s.withMs m) =
          writeOp (fun _ => BitVec.ofNat 18 Config.trampAddr) (fun _ => pcToWord t)
            (.decoded f) (s.withMs m) := by
        intro m; simp only [decodeStep, if_pos hf, State.withMs_labelRefs, State.withMs_pc, hr]
      obtain ⟨m, hs, he⟩ := microTurn_writeOp (addr := fun _ => BitVec.ofNat 18 Config.trampAddr)
        (value := fun _ => pcToWord t) (after := .decoded f) h
        (fun _ => rfl) (fun _ => rfl) (by decide)
      refine ⟨m, ⟨hs.1, fun x => ?_⟩, ?_⟩
      · rw [hs.2 x, State.seen, hr, hf]
        have : (BitVec.ofNat 18 Config.trampAddr).toNat = Config.trampAddr := by decide
        simp [this]
      · have hmt : microTurn (decodeStep f) s = microTurn (writeOp (fun _ => BitVec.ofNat 18 Config.trampAddr)
            (fun _ => pcToWord t) (.decoded f)) s := by
          have hret : ∀ (n : Nat) (m : MemSys), retryHeld n (decodeStep f) (s.withMs m) =
              retryHeld n (writeOp (fun _ => BitVec.ofNat 18 Config.trampAddr) (fun _ => pcToWord t)
                (.decoded f)) (s.withMs m) := by
            intro n
            induction n with
            | zero => intro m; exact hop m
            | succ n ih =>
              intro m
              simp only [retryHeld, hop m]
              split <;> first | exact ih _ | rfl
          simp only [microTurn, hret]
        rw [runSeq, hmt, he]; rfl
    | none =>
      have hop : decodeStep f (s.withMs s.ms.startTurn) = .ok ((s.withMs s.ms.startTurn).decoded f) := by
        simp only [decodeStep, if_pos hf, State.withMs_labelRefs, State.withMs_pc, hr]
      refine ⟨s.ms.startTurn, ⟨hst.1, fun x => ?_⟩, ?_⟩
      · rw [hst.2 x, State.seen, hr]; split <;> rfl
      · rw [runSeq, microTurn, retryHeld_of_ok hop]; rfl
  · have hop : decodeStep f (s.withMs s.ms.startTurn) = .ok ((s.withMs s.ms.startTurn).decoded f) := by
      simp only [decodeStep, if_neg hf]
    refine ⟨s.ms.startTurn, ⟨hst.1, fun x => ?_⟩, ?_⟩
    · rw [hst.2 x, State.seen, if_neg (fun hc => hf hc.2)]
    · rw [runSeq, microTurn, retryHeld_of_ok hop]; rfl

/-- The decode step, then the rest: the field registers, and through the trampoline at most mem[8]
(41_execution_cycle.md R185, R186). -/
theorem Reaches.decodeStep {d : DecodeFields} (h : s.ms.Inv)
    (next : ∀ m, m.Shows (s.seen d.addr) → Reaches
      (runSeq fin onFault ops { s with dec := d, k := 4, cycleCount := s.cycleCount + 1, ms := m }) f X) :
    Reaches (runSeq fin onFault (Machine.decodeStep d :: ops) s) f X := by
  obtain ⟨m, hm, he⟩ := runSeq_decodeStep (fin := fin) (onFault := onFault) (ops := ops) h d
  rw [he]; exact next m hm

/-! ### Effective address -/

/-- A register transfer that is not the last of a tail. -/
theorem Reaches.tailReg {u : State → State} {rest : List Micro} (hrest : rest ≠ []) (h : s.ms.Shows g)
    (next : ∀ m, m.Shows g → Reaches (runSeq fin onFault (stepsOf rest) (u (s.withMs m)).nextK.tick) f X) :
    Reaches (runSeq fin onFault (stepsOf (Machine.regOp u :: rest)) s) f X := by
  rw [stepsOf_cons _ hrest, thenAdvance_regOp]; exact Reaches.regOp h next

/-- A read that is not the last of a tail. -/
theorem Reaches.tailRead {addr : State → Word} {put : Word → State → State} {rest : List Micro} (hrest : rest ≠ [])
    (h : s.ms.Shows g) (haddr : ∀ m, addr (s.withMs m) = addr s) (ha : (addr s).toNat < Config.memWords)
    (next : ∀ m, m.Shows g →
      Reaches (runSeq fin onFault (stepsOf rest) (put (g (addr s).toNat) (s.withMs m)).nextK.tick) f X) :
    Reaches (runSeq fin onFault (stepsOf (Machine.readOp addr put :: rest)) s) f X := by
  rw [stepsOf_cons _ hrest, thenAdvance_readOp]; exact Reaches.readOp h haddr ha next

/-- A read of a tail, not its last, that raises the address fault. -/
theorem Reaches.tailRead_raise {addr : State → Word} {put : Word → State → State} {rest : List Micro}
    (hrest : rest ≠ []) (h : s.ms.Shows g) (haddr : ∀ m, addr (s.withMs m) = addr s)
    (ha : ¬ (addr s).toNat < Config.memWords)
    (next : ∀ m, m.Shows g → Reaches (onFault ((s.withMs m).raiseFault .addressFault).tick) f X) :
    Reaches (runSeq fin onFault (stepsOf (Machine.readOp addr put :: rest)) s) f X := by
  rw [stepsOf_cons _ hrest, thenAdvance_readOp]; exact Reaches.readOp_raise h haddr ha next

/-- A write that is not the last of a tail. -/
theorem Reaches.tailWrite {addr value : State → Word} {after : State → State} {rest : List Micro} (hrest : rest ≠ [])
    (h : s.ms.Shows g) (haddr : ∀ m, addr (s.withMs m) = addr s) (hval : ∀ m, value (s.withMs m) = value s)
    (ha : (addr s).toNat < Config.memWords)
    (next : ∀ m, m.Shows (fun x => if x = (addr s).toNat then value s else g x) →
      Reaches (runSeq fin onFault (stepsOf rest) (after (s.withMs m)).nextK.tick) f X) :
    Reaches (runSeq fin onFault (stepsOf (Machine.writeOp addr value after :: rest)) s) f X := by
  rw [stepsOf_cons _ hrest, thenAdvance_writeOp]; exact Reaches.writeOp h haddr hval ha next

/-- The last register transfer of a tail: the instruction completes. -/
theorem Reaches.lastReg {u : State → State} (h : s.ms.Shows g)
    (next : ∀ m, m.Shows g → Reaches (fin (u (s.withMs m)).completed.tick) f X) :
    Reaches (runSeq fin onFault (stepsOf [Machine.regOp u]) s) f X := by
  rw [stepsOf_one, thenComplete_regOp]; exact Reaches.regOp h next

/-- The write that ends a store: the instruction completes. -/
theorem Reaches.lastWrite {addr value : State → Word} {after : State → State}
    (h : s.ms.Shows g) (haddr : ∀ m, addr (s.withMs m) = addr s) (hval : ∀ m, value (s.withMs m) = value s)
    (ha : (addr s).toNat < Config.memWords)
    (next : ∀ m, m.Shows (fun x => if x = (addr s).toNat then value s else g x) →
      Reaches (fin (after (s.withMs m)).completed.tick) f X) :
    Reaches (runSeq fin onFault (stepsOf [Machine.writeOp addr value after]) s) f X := by
  rw [stepsOf_one, thenComplete_writeOp]; exact Reaches.writeOp h haddr hval ha next

/-- The write that ends a store raises the address fault. -/
theorem Reaches.lastWrite_raise {addr value : State → Word} {after : State → State}
    (h : s.ms.Shows g) (haddr : ∀ m, addr (s.withMs m) = addr s) (ha : ¬ (addr s).toNat < Config.memWords)
    (next : ∀ m, m.Shows g → Reaches (onFault ((s.withMs m).raiseFault .addressFault).tick) f X) :
    Reaches (runSeq fin onFault (stepsOf [Machine.writeOp addr value after]) s) f X := by
  rw [stepsOf_one, thenComplete_writeOp]; exact Reaches.writeOp_raise h haddr ha next

/-- The base of the effective address of the instruction in the field registers (41_execution_cycle.md R189). -/
def State.decBase (s : State) : Word := s.eaBase (opcodeIsLX s.dec.opcode) s.dec.ix s.dec.addr

/-- The effective-address steps: one, or four with one level of indirection (41_execution_cycle.md R188). -/
theorem Reaches.eaOps {rest : List Micro} (hrest : rest ≠ []) (h : s.ms.Shows g) (i : Bool)
    (hread : i = true → s.decBase.toNat < Config.memWords)
    (next : ∀ m, m.Shows g → Reaches (runSeq fin onFault (stepsOf rest)
      (if i then
        { s with
          ea := g s.decBase.toNat, mar := s.decBase, mdr := g s.decBase.toNat
          k := s.k + 4, cycleCount := s.cycleCount + 4, ms := m }
      else { s with ea := s.decBase, k := s.k + 1, cycleCount := s.cycleCount + 1, ms := m })) f X) :
    Reaches (runSeq fin onFault (stepsOf (Machine.eaOps i ++ rest)) s) f X := by
  cases i with
  | false =>
    refine Reaches.tailReg hrest h (fun m hm => ?_)
    have := next m hm
    dsimp only [State.nextK, State.tick, State.withMs, State.decBase, State.eaBase, State.getX] at this ⊢
    exact this
  | true =>
    refine Reaches.tailReg (by simp) h (fun m₁ h₁ => ?_)
    refine Reaches.tailReg (by simp) h₁ (fun m₂ h₂ => ?_)
    refine Reaches.tailRead (by simp) h₂ (fun m => State.withMs_mar _ m) (hread rfl) (fun m₃ h₃ => ?_)
    refine Reaches.tailReg hrest h₃ (fun m₄ h₄ => ?_)
    have := next m₄ h₄
    dsimp only [State.nextK, State.tick, State.withMs, State.decBase, State.eaBase, State.getX] at this ⊢
    exact this

/-- The indirect read out of range raises the address fault with MAR at the base (41_execution_cycle.md R188, R193). -/
theorem Reaches.eaOps_raise {rest : List Micro} (h : s.ms.Shows g)
    (hread : ¬ s.decBase.toNat < Config.memWords)
    (next : ∀ m, m.Shows g → Reaches (onFault (({ s with
        ea := s.decBase, mar := s.decBase, k := s.k + 2, cycleCount := s.cycleCount + 2, ms := m } :
        State).raiseFault .addressFault).tick) f X) :
    Reaches (runSeq fin onFault (stepsOf (Machine.eaOps true ++ rest)) s) f X := by
  refine Reaches.tailReg (by simp) h (fun m₁ h₁ => ?_)
  refine Reaches.tailReg (by simp) h₁ (fun m₂ h₂ => ?_)
  refine Reaches.tailRead_raise (by simp) h₂ (fun m => State.withMs_mar _ m) hread (fun m₃ h₃ => ?_)
  have := next m₃ h₃
  dsimp only [State.nextK, State.tick, State.withMs, State.decBase, State.eaBase, State.getX] at this ⊢
  exact this

/-! ### Taking a machine fault -/

/-- Fault entry: PC to mem[4] and mem[5], PC from the word at mem[1], three cycles; it always completes
(60_exceptions.md R301). -/
theorem runFaultEntry_spec (h : s.ms.Inv) :
    ∃ m, m.Shows (savedAt s.pc s.ms.view) ∧ runFaultEntry 0 s =
      .next { s with
        pc := wordToPc (s.ms.view Config.faultVectorPtr), jumpTaken := false, k := 0, phase := .run
        execMode := .continue, cycleCount := s.cycleCount + 3, ms := m } := by
  have e4 : (BitVec.ofNat 18 Config.faultSavePc).toNat = Config.faultSavePc := by decide
  have e5 : (BitVec.ofNat 18 Config.faultSaveMsr).toNat = Config.faultSaveMsr := by decide
  have e1 : (BitVec.ofNat 18 Config.faultVectorPtr).toNat = Config.faultVectorPtr := by decide
  obtain ⟨m₁, hs₁, he₁⟩ := runSeq_writeOp (fin := .next) (onFault := .next)
    (addr := fun _ => BitVec.ofNat 18 Config.faultSavePc) (value := fun s => pcToWord s.pc)
    (after := .atFaultEntry 1) (ops := faultEntryOps.drop 1) h (fun _ => rfl) (fun _ => rfl) (by decide)
  obtain ⟨m₂, hs₂, he₂⟩ := runSeq_writeOp (fin := .next) (onFault := .next)
    (addr := fun _ => BitVec.ofNat 18 Config.faultSaveMsr) (value := fun s => pcToWord s.pc)
    (after := .atFaultEntry 2) (ops := faultEntryOps.drop 2) (s := (State.atFaultEntry 1 (s.withMs m₁)).tick) hs₁.1
    (fun _ => rfl) (fun _ => rfl) (by decide)
  obtain ⟨m₃, hs₃, he₃⟩ := runSeq_readOp (fin := .next) (onFault := .next)
    (addr := fun _ => BitVec.ofNat 18 Config.faultVectorPtr) (put := .vectored) (ops := [])
    (s := (State.atFaultEntry 2 ((State.atFaultEntry 1 (s.withMs m₁)).tick.withMs m₂)).tick)
    hs₂.1 (fun _ => rfl) (by decide)
  have hv₁ : ∀ x, m₁.view x = if x = Config.faultSavePc then pcToWord s.pc else s.ms.view x := fun x => by
    rw [hs₁.2 x, e4]
  have hv₂ : ∀ x, m₂.view x = savedAt s.pc s.ms.view x := fun x => by
    have h5 : (State.atFaultEntry 1 (s.withMs m₁)).tick.pc = s.pc := rfl
    have h6 : (State.atFaultEntry 1 (s.withMs m₁)).tick.ms = m₁ := rfl
    simp only [hs₂.2 x, e5, h5, h6, hv₁ x, savedAt]
  refine ⟨m₃, ⟨hs₃.1, fun x => (hs₃.2 x).trans (hv₂ x)⟩, he₁.trans (he₂.trans (he₃.trans ?_))⟩
  have h7 : (State.atFaultEntry 2 ((State.atFaultEntry 1 (s.withMs m₁)).tick.withMs m₂)).tick.ms = m₂ := rfl
  rw [runSeq_nil, h7, hv₂, e1]
  dsimp only [State.vectored, State.atFaultEntry, State.withMs, State.tick]
  rfl

/-- A machine fault raised by a micro-step, with its entry (60_exceptions.md R301, R302). -/
theorem runFaultEntry_raise (h : s.ms.Inv) (kind : FaultKind) :
    ∃ m, m.Shows (savedAt s.pc s.ms.view) ∧ runFaultEntry 0 (s.raiseFault kind).tick =
      .next (s.faultTaken kind (s.ms.view Config.faultVectorPtr) m) := by
  obtain ⟨m, hs, he⟩ := runFaultEntry_spec (s := (s.raiseFault kind).tick) h
  exact ⟨m, hs, he⟩

end Sys2Proof.Machine
end

