-- ==== Sys2Proof/Laws/Host.lean ====
section
/-! SUPPORT. Laws of a load (70_reset_and_hazards.md R341): the words stored directly into a drained memory with the cache
invalidated; and that an assembly's words stand at different addresses (30_encoding.md R134). -/

namespace Sys2Proof.Machine

/-- Storing words in range keeps the canonical form. -/
theorem storeWords_wf : ∀ (ws : List (Nat × Word)) {m : Memory}, m.wf = true →
    (∀ w ∈ ws, w.1 < Config.memWords) → (storeWords ws m).wf = true
  | [], _, h, _ => h
  | w :: ws, _, h, hw =>
    storeWords_wf ws (Memory.wf_write h (hw w (List.mem_cons_self ..)) w.2) (fun x hx => hw x (List.mem_cons_of_mem _ hx))

/-- A word whose address is not among the stored ones keeps its value. -/
theorem storeWords_read_other {a : Nat} : ∀ (ws : List (Nat × Word)) {m : Memory}, m.wf = true →
    (∀ w ∈ ws, w.1 < Config.memWords) → (∀ w ∈ ws, w.1 ≠ a) → (storeWords ws m).read a = m.read a
  | [], _, _, _, _ => rfl
  | w :: ws, m, h, hw, ha => by
    have ih := storeWords_read_other ws (Memory.wf_write h (hw w (List.mem_cons_self ..)) w.2)
      (fun x hx => hw x (List.mem_cons_of_mem _ hx)) (fun x hx => ha x (List.mem_cons_of_mem _ hx))
    refine ih.trans ?_
    rw [Memory.read_write h, if_neg (Ne.symm (ha w (List.mem_cons_self ..)))]

/-- Where the addresses differ, each stored word reads back. -/
theorem storeWords_read : ∀ (ws : List (Nat × Word)) {m : Memory}, m.wf = true →
    (∀ w ∈ ws, w.1 < Config.memWords) → (ws.map Prod.fst).Nodup → ∀ w ∈ ws, (storeWords ws m).read w.1 = w.2
  | [], _, _, _, _, _, hw' => by cases hw'
  | w :: ws, m, h, hw, hn, v, hv => by
    have hwf := Memory.wf_write h (hw w (List.mem_cons_self ..)) w.2
    have hws : ∀ x ∈ ws, x.1 < Config.memWords := fun x hx => hw x (List.mem_cons_of_mem _ hx)
    rw [List.map_cons, List.nodup_cons] at hn
    rcases List.mem_cons.1 hv with rfl | hv
    · refine (storeWords_read_other ws hwf hws fun x hx hc => hn.1 (List.mem_map.2 ⟨x, hx, hc⟩)).trans ?_
      rw [Memory.read_write h, if_pos rfl]
    · exact storeWords_read ws hwf hws hn.2 v hv

/-- The words of a prefetched text: its codes and EOT, one after another from 1000 (70_reset_and_hazards.md R341). -/
theorem mem_prefetchWords {codes : List Nat} {w : Nat × Word} : w ∈ prefetchWords (some codes) ↔
    ∃ j c, (codes ++ [Config.eot])[j]? = some c ∧ w = (Config.prefetchBase + j, BitVec.ofNat 18 c) := by
  simp only [prefetchWords, List.mem_map, Prod.exists, List.mem_zipIdx_iff_getElem?]
  exact ⟨fun ⟨c, j, h, e⟩ => ⟨j, c, h, e.symm⟩, fun ⟨j, c, h, e⟩ => ⟨c, j, h, e.symm⟩⟩

/-- The last of them is EOT. -/
theorem eot_mem_prefetchWords (codes : List Nat) :
    (Config.prefetchBase + codes.length, BitVec.ofNat 18 Config.eot) ∈ prefetchWords (some codes) :=
  mem_prefetchWords.2 ⟨codes.length, Config.eot, by simp, rfl⟩

/-- They stand at different addresses. -/
theorem prefetchWords_distinct (prefetch : Option (List Nat)) : ((prefetchWords prefetch).map Prod.fst).Nodup := by
  cases prefetch with
  | none => exact List.nodup_nil
  | some codes =>
    have e : (prefetchWords (some codes)).map Prod.fst =
        (List.range' 0 (codes ++ [Config.eot]).length).map (Config.prefetchBase + ·) := by
      rw [prefetchWords, List.map_map, ← List.zipIdx_map_snd 0 (codes ++ [Config.eot]), List.map_map]
      rfl
    rw [e]
    exact (List.nodup_range' ..).map fun a b h => Nat.add_left_cancel h

/-- Storing one list of words after another. -/
theorem storeWords_append (ws vs : List (Nat × Word)) (m : Memory) :
    storeWords (ws ++ vs) m = storeWords vs (storeWords ws m) := List.foldl_append

/-- Of two lists of words stored one after the other the second wins where their addresses meet. -/
theorem storeWords_over (ws ds : List (Nat × Word)) {m : Memory} (h : m.wf = true)
    (hw : ∀ w ∈ ws ++ ds, w.1 < Config.memWords) (hd : (ds.map Prod.fst).Nodup) :
    (∀ d ∈ ds, (storeWords (ws ++ ds) m).read d.1 = d.2) ∧
    ((ws.map Prod.fst).Nodup → ∀ w ∈ ws, (∀ d ∈ ds, d.1 ≠ w.1) → (storeWords (ws ++ ds) m).read w.1 = w.2) := by
  have hw₁ : ∀ w ∈ ws, w.1 < Config.memWords := fun w hx => hw w (List.mem_append_left _ hx)
  have hw₂ : ∀ w ∈ ds, w.1 < Config.memWords := fun w hx => hw w (List.mem_append_right _ hx)
  have hwf := storeWords_wf ws h hw₁
  rw [storeWords_append]
  refine ⟨storeWords_read ds hwf hw₂ hd, fun hn w hx hne => ?_⟩
  rw [storeWords_read_other ds hwf hw₂ hne]
  exact storeWords_read ws h hw₁ hn w hx

/-- The instructions of a pass stand at different addresses below the write pointer, at or above the base. -/
structure AsmPass.Placed (base : Nat) (p : AsmPass) : Prop where
  low : base ≤ p.ptr
  inside : ∀ it ∈ p.items, base ≤ it.addr ∧ it.addr < p.ptr
  distinct : (p.items.map AsmItem.addr).Nodup

theorem AsmPass.Placed.push {base : Nat} {p : AsmPass} (h : p.Placed base) (o : Op) (f : AsmFields) :
    AsmPass.Placed base
      { p with items := { addr := p.ptr, op := o, fields := f } :: p.items, ptr := p.ptr + 1 } := by
  refine ⟨Nat.le_succ_of_le h.low, fun it hit => ?_, ?_⟩
  · rcases List.mem_cons.1 hit with rfl | hit
    · exact ⟨h.low, Nat.lt_succ_self _⟩
    · exact ⟨(h.inside it hit).1, Nat.lt_succ_of_lt (h.inside it hit).2⟩
  · refine List.nodup_cons.2 ⟨fun hc => ?_, h.distinct⟩
    obtain ⟨it, hit, he⟩ := List.mem_map.1 hc
    have := (h.inside it hit).2
    simp only [he] at this
    omega

theorem AsmPass.Placed.passBody {base : Nat} {p : AsmPass} (h : p.Placed base) (defined : List (List Char))
    (b : LineBody) : (passBody defined b p).Placed base := by
  unfold Machine.passBody
  cases b with
  | nothing => exact h
  | unknown => exact ⟨h.low, h.inside, h.distinct⟩
  | bad => exact ⟨h.low, h.inside, h.distinct⟩
  | instr o f =>
    dsimp only
    split
    · split
      · exact h.push o f
      · exact ⟨h.low, h.inside, h.distinct⟩
    · exact h.push o f

/-- A line stores at most one word, at the write pointer (30_encoding.md R134). -/
theorem AsmPass.Placed.passLine {base : Nat} {p : AsmPass} (h : p.Placed base) (defined : List (List Char))
    (ln : AsmLine) : (passLine defined p ln).Placed base := by
  have hq : ∀ q : AsmPass, q.Placed base → AsmPass.Placed base { q with line := p.line + 1 } :=
    fun q h => ⟨h.low, h.inside, h.distinct⟩
  unfold Machine.passLine
  cases ln.label with
  | none => exact hq _ (h.passBody defined ln.body)
  | some l =>
    dsimp only
    cases lookupLabel p.labels l with
    | some _ => exact hq _ ⟨h.low, h.inside, h.distinct⟩
    | none =>
      exact hq _ (AsmPass.Placed.passBody (p := { p with labels := (l, p.ptr) :: p.labels })
        ⟨h.low, h.inside, h.distinct⟩ defined ln.body)

theorem AsmPass.Placed.foldLines {base : Nat} (defined : List (List Char)) : ∀ (lines : List AsmLine) {p : AsmPass},
    p.Placed base → (lines.foldl (Machine.passLine defined) p).Placed base
  | [], _, h => h
  | ln :: rest, _, h => AsmPass.Placed.foldLines defined rest (h.passLine defined ln)

/-- The words of an assembly stand at different addresses, from the base on (30_encoding.md R134). -/
theorem assemble_addresses (base : Nat) (source : List String) :
    ((assemble base source).words.map Prod.fst).Nodup ∧ ∀ w ∈ (assemble base source).words, base ≤ w.1 := by
  have h := AsmPass.Placed.foldLines (base := base) ((source.map parseLine).filterMap AsmLine.label)
    (source.map parseLine) (p := { line := 0, ptr := base, labels := [], items := [], errors := [] })
    ⟨Nat.le_refl _, fun _ hit => absurd hit List.not_mem_nil, List.nodup_nil⟩
  refine ⟨?_, fun w hw => ?_⟩
  · have e : ∀ (g : AsmItem → Word) (its : List AsmItem),
        (its.reverse.map fun it => (it.addr, g it)).map Prod.fst = (its.map AsmItem.addr).reverse := fun g its => by
      rw [List.map_map, ← List.map_reverse]; rfl
    rw [assemble, e]
    exact List.nodup_reverse.2 h.distinct
  · simp only [assemble, List.mem_map, List.mem_reverse] at hw
    obtain ⟨it, hit, rfl⟩ := hw
    exact (h.inside it hit).1

/-- Two memory sides that show the same words drain to equal main memories (20_memory.md R79). -/
theorem MemSys.drain_mem_eq {m n : MemSys} (hm : m.Inv) (hn : n.Inv) (h : ∀ a, m.view a = n.view a) :
    m.drain.mem = n.drain.mem := by
  have dm := MemSys.drain_shows hm
  have dn := MemSys.drain_shows hn
  have em := MemSys.drain_empty m
  have en := MemSys.drain_empty n
  refine Memory.ext_of_wf dm.1.memWf dn.1.memWf fun x => ?_
  rw [← MemSys.view_of_drained em.1 em.2, ← MemSys.view_of_drained en.1 en.2, dm.2, dn.2, h]

/-- What a drained main memory holds is what the program saw (20_memory.md R78, R79). -/
theorem MemSys.drain_mem_read {m : MemSys} (h : m.Inv) (a : Nat) : m.drain.mem.read a = m.view a := by
  rw [← MemSys.view_of_drained (MemSys.drain_empty m).1 (MemSys.drain_empty m).2, (MemSys.drain_shows h).2]

/-- The load base, from what the program sees (70_reset_and_hazards.md R342). -/
theorem loadBase_drain {m : MemSys} (h : m.Inv) : loadBase m.drain.mem = if m.view 24 = 0 then 24 else 100 := by
  rw [loadBase, MemSys.drain_mem_read h]

/-- After a load the program sees the stored words over what it saw before (70_reset_and_hazards.md R341). -/
theorem MemSys.loaded_shows {m : MemSys} (h : m.Inv) (ws : List (Nat × Word)) (hw : ∀ w ∈ ws, w.1 < Config.memWords) :
    (m.loaded ws).Shows (storeWords ws m.drain.mem).read :=
  MemSys.invalidated_shows (MemSys.drain_empty m).1 (MemSys.drain_empty m).2
    (storeWords_wf ws (MemSys.drain_shows h).1.memWf hw)

end Sys2Proof.Machine
end

