-- ==== Sys2Proof/Laws/PerInstr.lean ====
section
/-! SUPPORT. The statement made of each instruction as syntax: the decode field registers hold exactly the instruction
(30_encoding.md R122, R123). -/

namespace Sys2Proof

@[simp] theorem ofBool_beq_one (b : Bool) : (BitVec.ofBool b == 1#1) = b := by cases b <;> rfl

theorem checkReserved_of_wellFormed {i : Instr} (h : i.wellFormed = true) : checkReserved i = .ok i := by
  cases i <;> simp_all [checkReserved, reservedError, Instr.wellFormed]

namespace Laws.FieldsRoundTrip

/-- A well-formed instruction is read back from the field registers that its decoding writes. -/
def Statement (i : Instr) : Prop := i.wellFormed = true → instrOfFields (fieldsOf i) = .ok i

theorem ldr (r : BitVec 2) (ix : BitVec 2) (i : Bool) (addr : BitVec 5) : Statement (.ldr r ix i addr) := by
  intro h
  have ho : opOfOpcode (fieldsOf (.ldr r ix i addr)).opcode = some .ldr := rfl
  have hf : instrOf .ldr (fieldsOf (.ldr r ix i addr)) = .ldr r ix i addr := by
    simp [instrOf, fieldsOf, fieldsLS]
  simp only [instrOfFields, ho, hf, checkReserved_of_wellFormed h]

theorem str (r : BitVec 2) (ix : BitVec 2) (i : Bool) (addr : BitVec 5) : Statement (.str r ix i addr) := by
  intro h
  have ho : opOfOpcode (fieldsOf (.str r ix i addr)).opcode = some .str := rfl
  have hf : instrOf .str (fieldsOf (.str r ix i addr)) = .str r ix i addr := by
    simp [instrOf, fieldsOf, fieldsLS]
  simp only [instrOfFields, ho, hf, checkReserved_of_wellFormed h]

theorem lda (r : BitVec 2) (ix : BitVec 2) (i : Bool) (addr : BitVec 5) : Statement (.lda r ix i addr) := by
  intro h
  have ho : opOfOpcode (fieldsOf (.lda r ix i addr)).opcode = some .lda := rfl
  have hf : instrOf .lda (fieldsOf (.lda r ix i addr)) = .lda r ix i addr := by
    simp [instrOf, fieldsOf, fieldsLS]
  simp only [instrOfFields, ho, hf, checkReserved_of_wellFormed h]

theorem ldx (ix : BitVec 2) (i : Bool) (addr : BitVec 5) : Statement (.ldx ix i addr) := by
  intro h
  have ho : opOfOpcode (fieldsOf (.ldx ix i addr)).opcode = some .ldx := rfl
  have hf : instrOf .ldx (fieldsOf (.ldx ix i addr)) = .ldx ix i addr := by
    simp [instrOf, fieldsOf, fieldsLX]
  simp only [instrOfFields, ho, hf, checkReserved_of_wellFormed h]

theorem stx (ix : BitVec 2) (i : Bool) (addr : BitVec 5) : Statement (.stx ix i addr) := by
  intro h
  have ho : opOfOpcode (fieldsOf (.stx ix i addr)).opcode = some .stx := rfl
  have hf : instrOf .stx (fieldsOf (.stx ix i addr)) = .stx ix i addr := by
    simp [instrOf, fieldsOf, fieldsLX]
  simp only [instrOfFields, ho, hf, checkReserved_of_wellFormed h]

theorem jz (r : BitVec 2) (ix : BitVec 2) (i : Bool) (addr : BitVec 5) : Statement (.jz r ix i addr) := by
  intro h
  have ho : opOfOpcode (fieldsOf (.jz r ix i addr)).opcode = some .jz := rfl
  have hf : instrOf .jz (fieldsOf (.jz r ix i addr)) = .jz r ix i addr := by
    simp [instrOf, fieldsOf, fieldsLS]
  simp only [instrOfFields, ho, hf, checkReserved_of_wellFormed h]

theorem jne (r : BitVec 2) (ix : BitVec 2) (i : Bool) (addr : BitVec 5) : Statement (.jne r ix i addr) := by
  intro h
  have ho : opOfOpcode (fieldsOf (.jne r ix i addr)).opcode = some .jne := rfl
  have hf : instrOf .jne (fieldsOf (.jne r ix i addr)) = .jne r ix i addr := by
    simp [instrOf, fieldsOf, fieldsLS]
  simp only [instrOfFields, ho, hf, checkReserved_of_wellFormed h]

theorem jcc (cc : BitVec 2) (ix : BitVec 2) (i : Bool) (addr : BitVec 5) : Statement (.jcc cc ix i addr) := by
  intro h
  have ho : opOfOpcode (fieldsOf (.jcc cc ix i addr)).opcode = some .jcc := rfl
  have hf : instrOf .jcc (fieldsOf (.jcc cc ix i addr)) = .jcc cc ix i addr := by
    simp [instrOf, fieldsOf, fieldsLS]
  simp only [instrOfFields, ho, hf, checkReserved_of_wellFormed h]

theorem jmp (r : BitVec 2) (ix : BitVec 2) (i : Bool) (addr : BitVec 5) : Statement (.jmp r ix i addr) := by
  intro h
  have ho : opOfOpcode (fieldsOf (.jmp r ix i addr)).opcode = some .jmp := rfl
  have hf : instrOf .jmp (fieldsOf (.jmp r ix i addr)) = .jmp r ix i addr := by
    simp [instrOf, fieldsOf, fieldsLS]
  simp only [instrOfFields, ho, hf, checkReserved_of_wellFormed h]

theorem jsr (r : BitVec 2) (ix : BitVec 2) (i : Bool) (addr : BitVec 5) : Statement (.jsr r ix i addr) := by
  intro h
  have ho : opOfOpcode (fieldsOf (.jsr r ix i addr)).opcode = some .jsr := rfl
  have hf : instrOf .jsr (fieldsOf (.jsr r ix i addr)) = .jsr r ix i addr := by
    simp [instrOf, fieldsOf, fieldsLS]
  simp only [instrOfFields, ho, hf, checkReserved_of_wellFormed h]

theorem rfs (r : BitVec 2) (ix : BitVec 2) (i : Bool) (addr : BitVec 5) : Statement (.rfs r ix i addr) := by
  intro h
  have ho : opOfOpcode (fieldsOf (.rfs r ix i addr)).opcode = some .rfs := rfl
  have hf : instrOf .rfs (fieldsOf (.rfs r ix i addr)) = .rfs r ix i addr := by
    simp [instrOf, fieldsOf, fieldsLS]
  simp only [instrOfFields, ho, hf, checkReserved_of_wellFormed h]

theorem sob (r : BitVec 2) (ix : BitVec 2) (i : Bool) (addr : BitVec 5) : Statement (.sob r ix i addr) := by
  intro h
  have ho : opOfOpcode (fieldsOf (.sob r ix i addr)).opcode = some .sob := rfl
  have hf : instrOf .sob (fieldsOf (.sob r ix i addr)) = .sob r ix i addr := by
    simp [instrOf, fieldsOf, fieldsLS]
  simp only [instrOfFields, ho, hf, checkReserved_of_wellFormed h]

theorem jge (r : BitVec 2) (ix : BitVec 2) (i : Bool) (addr : BitVec 5) : Statement (.jge r ix i addr) := by
  intro h
  have ho : opOfOpcode (fieldsOf (.jge r ix i addr)).opcode = some .jge := rfl
  have hf : instrOf .jge (fieldsOf (.jge r ix i addr)) = .jge r ix i addr := by
    simp [instrOf, fieldsOf, fieldsLS]
  simp only [instrOfFields, ho, hf, checkReserved_of_wellFormed h]

theorem amr (r : BitVec 2) (ix : BitVec 2) (i : Bool) (addr : BitVec 5) : Statement (.amr r ix i addr) := by
  intro h
  have ho : opOfOpcode (fieldsOf (.amr r ix i addr)).opcode = some .amr := rfl
  have hf : instrOf .amr (fieldsOf (.amr r ix i addr)) = .amr r ix i addr := by
    simp [instrOf, fieldsOf, fieldsLS]
  simp only [instrOfFields, ho, hf, checkReserved_of_wellFormed h]

theorem smr (r : BitVec 2) (ix : BitVec 2) (i : Bool) (addr : BitVec 5) : Statement (.smr r ix i addr) := by
  intro h
  have ho : opOfOpcode (fieldsOf (.smr r ix i addr)).opcode = some .smr := rfl
  have hf : instrOf .smr (fieldsOf (.smr r ix i addr)) = .smr r ix i addr := by
    simp [instrOf, fieldsOf, fieldsLS]
  simp only [instrOfFields, ho, hf, checkReserved_of_wellFormed h]

theorem air (r : BitVec 2) (addr : BitVec 5) : Statement (.air r addr) := by
  intro h
  have ho : opOfOpcode (fieldsOf (.air r addr)).opcode = some .air := rfl
  have hf : instrOf .air (fieldsOf (.air r addr)) = .air r addr := by
    rfl
  simp only [instrOfFields, ho, hf, checkReserved_of_wellFormed h]

theorem sir (r : BitVec 2) (addr : BitVec 5) : Statement (.sir r addr) := by
  intro h
  have ho : opOfOpcode (fieldsOf (.sir r addr)).opcode = some .sir := rfl
  have hf : instrOf .sir (fieldsOf (.sir r addr)) = .sir r addr := by
    rfl
  simp only [instrOfFields, ho, hf, checkReserved_of_wellFormed h]

theorem mlt (rx : BitVec 2) (ry : BitVec 2) : Statement (.mlt rx ry) := by
  intro h
  have ho : opOfOpcode (fieldsOf (.mlt rx ry)).opcode = some .mlt := rfl
  have hf : instrOf .mlt (fieldsOf (.mlt rx ry)) = .mlt rx ry := by
    rfl
  simp only [instrOfFields, ho, hf, checkReserved_of_wellFormed h]

theorem dvd (rx : BitVec 2) (ry : BitVec 2) : Statement (.dvd rx ry) := by
  intro h
  have ho : opOfOpcode (fieldsOf (.dvd rx ry)).opcode = some .dvd := rfl
  have hf : instrOf .dvd (fieldsOf (.dvd rx ry)) = .dvd rx ry := by
    rfl
  simp only [instrOfFields, ho, hf, checkReserved_of_wellFormed h]

theorem trr (rx : BitVec 2) (ry : BitVec 2) : Statement (.trr rx ry) := by
  intro h
  have ho : opOfOpcode (fieldsOf (.trr rx ry)).opcode = some .trr := rfl
  have hf : instrOf .trr (fieldsOf (.trr rx ry)) = .trr rx ry := by
    rfl
  simp only [instrOfFields, ho, hf, checkReserved_of_wellFormed h]

theorem and (rx : BitVec 2) (ry : BitVec 2) : Statement (.and rx ry) := by
  intro h
  have ho : opOfOpcode (fieldsOf (.and rx ry)).opcode = some .and := rfl
  have hf : instrOf .and (fieldsOf (.and rx ry)) = .and rx ry := by
    rfl
  simp only [instrOfFields, ho, hf, checkReserved_of_wellFormed h]

theorem orr (rx : BitVec 2) (ry : BitVec 2) : Statement (.orr rx ry) := by
  intro h
  have ho : opOfOpcode (fieldsOf (.orr rx ry)).opcode = some .orr := rfl
  have hf : instrOf .orr (fieldsOf (.orr rx ry)) = .orr rx ry := by
    rfl
  simp only [instrOfFields, ho, hf, checkReserved_of_wellFormed h]

theorem not (rx : BitVec 2) : Statement (.not rx) := by
  intro h
  have ho : opOfOpcode (fieldsOf (.not rx)).opcode = some .not := rfl
  have hf : instrOf .not (fieldsOf (.not rx)) = .not rx := by
    rfl
  simp only [instrOfFields, ho, hf, checkReserved_of_wellFormed h]

theorem src (r : BitVec 2) (al : Bool) (lr : Bool) (count : BitVec 4) : Statement (.src r al lr count) := by
  intro h
  have ho : opOfOpcode (fieldsOf (.src r al lr count)).opcode = some .src := rfl
  have hf : instrOf .src (fieldsOf (.src r al lr count)) = .src r al lr count := by
    simp [instrOf, fieldsOf, fieldsShift]
  simp only [instrOfFields, ho, hf, checkReserved_of_wellFormed h]

theorem rrc (r : BitVec 2) (al : Bool) (lr : Bool) (count : BitVec 4) : Statement (.rrc r al lr count) := by
  intro h
  have ho : opOfOpcode (fieldsOf (.rrc r al lr count)).opcode = some .rrc := rfl
  have hf : instrOf .rrc (fieldsOf (.rrc r al lr count)) = .rrc r al lr count := by
    simp [instrOf, fieldsOf, fieldsShift]
  simp only [instrOfFields, ho, hf, checkReserved_of_wellFormed h]

theorem inp (r : BitVec 2) (devid : BitVec 5) : Statement (.inp r devid) := by
  intro h
  have ho : opOfOpcode (fieldsOf (.inp r devid)).opcode = some .inp := rfl
  have hf : instrOf .inp (fieldsOf (.inp r devid)) = .inp r devid := by
    rfl
  simp only [instrOfFields, ho, hf, checkReserved_of_wellFormed h]

theorem out (r : BitVec 2) (devid : BitVec 5) : Statement (.out r devid) := by
  intro h
  have ho : opOfOpcode (fieldsOf (.out r devid)).opcode = some .out := rfl
  have hf : instrOf .out (fieldsOf (.out r devid)) = .out r devid := by
    rfl
  simp only [instrOfFields, ho, hf, checkReserved_of_wellFormed h]

theorem trap (trapcode : BitVec 4) : Statement (.trap trapcode) := by
  intro h
  have ho : opOfOpcode (fieldsOf (.trap trapcode)).opcode = some .trap := rfl
  have hf : instrOf .trap (fieldsOf (.trap trapcode)) = .trap trapcode := by
    rfl
  simp only [instrOfFields, ho, hf, checkReserved_of_wellFormed h]

theorem hlt (r : BitVec 2) (ix : BitVec 2) (i : Bool) (addr : BitVec 5) : Statement (.hlt r ix i addr) := by
  intro h
  have ho : opOfOpcode (fieldsOf (.hlt r ix i addr)).opcode = some .hlt := rfl
  have hf : instrOf .hlt (fieldsOf (.hlt r ix i addr)) = .hlt r ix i addr := by
    simp [instrOf, fieldsOf, fieldsLS]
  simp only [instrOfFields, ho, hf, checkReserved_of_wellFormed h]

end Laws.FieldsRoundTrip

/-- The field registers of any well-formed instruction give it back. -/
theorem instrOfFields_fieldsOf {i : Instr} (h : i.wellFormed = true) : instrOfFields (fieldsOf i) = .ok i := by
  cases i
  case ldr => exact Laws.FieldsRoundTrip.ldr _ _ _ _ h
  case str => exact Laws.FieldsRoundTrip.str _ _ _ _ h
  case lda => exact Laws.FieldsRoundTrip.lda _ _ _ _ h
  case ldx => exact Laws.FieldsRoundTrip.ldx _ _ _ h
  case stx => exact Laws.FieldsRoundTrip.stx _ _ _ h
  case jz => exact Laws.FieldsRoundTrip.jz _ _ _ _ h
  case jne => exact Laws.FieldsRoundTrip.jne _ _ _ _ h
  case jcc => exact Laws.FieldsRoundTrip.jcc _ _ _ _ h
  case jmp => exact Laws.FieldsRoundTrip.jmp _ _ _ _ h
  case jsr => exact Laws.FieldsRoundTrip.jsr _ _ _ _ h
  case rfs => exact Laws.FieldsRoundTrip.rfs _ _ _ _ h
  case sob => exact Laws.FieldsRoundTrip.sob _ _ _ _ h
  case jge => exact Laws.FieldsRoundTrip.jge _ _ _ _ h
  case amr => exact Laws.FieldsRoundTrip.amr _ _ _ _ h
  case smr => exact Laws.FieldsRoundTrip.smr _ _ _ _ h
  case air => exact Laws.FieldsRoundTrip.air _ _ h
  case sir => exact Laws.FieldsRoundTrip.sir _ _ h
  case mlt => exact Laws.FieldsRoundTrip.mlt _ _ h
  case dvd => exact Laws.FieldsRoundTrip.dvd _ _ h
  case trr => exact Laws.FieldsRoundTrip.trr _ _ h
  case and => exact Laws.FieldsRoundTrip.and _ _ h
  case orr => exact Laws.FieldsRoundTrip.orr _ _ h
  case not => exact Laws.FieldsRoundTrip.not _ h
  case src => exact Laws.FieldsRoundTrip.src _ _ _ _ h
  case rrc => exact Laws.FieldsRoundTrip.rrc _ _ _ _ h
  case inp => exact Laws.FieldsRoundTrip.inp _ _ h
  case out => exact Laws.FieldsRoundTrip.out _ _ h
  case trap => exact Laws.FieldsRoundTrip.trap _ h
  case hlt => exact Laws.FieldsRoundTrip.hlt _ _ _ _ h

end Sys2Proof
end

