-- ==== Sys2Proof/Laws/Micro.lean ====
section
/-! SUPPORT. The three kinds of micro-op that the machine is made of, and what one micro-step of each can do: register
transfers, reads and writes of memory, and decode, which is a write or a transfer as the trampoline says. -/

namespace Sys2Proof.Machine

/-- The result of a micro-op with its state changed. -/
def MicroResult.map (g : State → State) : MicroResult → MicroResult
  | .ok s => .ok (g s)
  | .complete s => .complete (g s)
  | .hold h s => .hold h (g s)
  | .raise kind s => .raise kind (g s)

/-- A micro-op that neither reads nor writes the memory side, and holds at most for input. -/
structure Local (op : Micro) : Prop where
  comm : ∀ s m, op (s.withMs m) = (op s).map (·.withMs m)
  holds : ∀ s h s', op s = .hold h s' → h = .inputStall

/-- The micro-ops of the machine, by how they meet the memory side. -/
inductive Plain : Micro → Prop where
  | loc {op : Micro} (h : Local op) : Plain op
  | read {addr : State → Word} {put : Word → State → State} (haddr : ∀ s m, addr (s.withMs m) = addr s)
      (hput : ∀ v s m, put v (s.withMs m) = (put v s).withMs m) : Plain (readOp addr put)
  | write {addr value : State → Word} {after : State → State} (haddr : ∀ s m, addr (s.withMs m) = addr s)
      (hval : ∀ s m, value (s.withMs m) = value s) (hafter : ∀ s m, after (s.withMs m) = (after s).withMs m) :
      Plain (writeOp addr value after)
  | decode (f : DecodeFields) : Plain (decodeStep f)

theorem Local.regOp {f : State → State} (h : ∀ s m, f (s.withMs m) = (f s).withMs m) : Local (regOp f) :=
  ⟨fun s m => by simp only [Machine.regOp, MicroResult.map, h], fun s _ _ hc => by cases hc⟩

theorem Plain.reg {f : State → State} (h : ∀ s m, f (s.withMs m) = (f s).withMs m) : Plain (regOp f) :=
  .loc (.regOp h)

theorem Local.advance {op : Micro} (h : Local op) : Local (thenAdvance op) := by
  refine ⟨fun s m => ?_, fun s hd s' hc => ?_⟩
  · simp only [thenAdvance, h.comm]; cases op s <;> rfl
  · simp only [thenAdvance] at hc
    cases hop : op s <;> rw [hop] at hc <;> cases hc
    exact h.holds s _ _ hop

theorem Local.complete {op : Micro} (h : Local op) : Local (thenComplete op) := by
  refine ⟨fun s m => ?_, fun s hd s' hc => ?_⟩
  · simp only [thenComplete, h.comm]; cases op s <;> rfl
  · simp only [thenComplete] at hc
    cases hop : op s <;> rw [hop] at hc <;> cases hc
    exact h.holds s _ _ hop

/-- The micro-ops that a tail is made of: every kind but decode. -/
inductive TailKind : Micro → Prop where
  | loc {op : Micro} (h : Local op) : TailKind op
  | read {addr : State → Word} {put : Word → State → State} (haddr : ∀ s m, addr (s.withMs m) = addr s)
      (hput : ∀ v s m, put v (s.withMs m) = (put v s).withMs m) : TailKind (readOp addr put)
  | write {addr value : State → Word} {after : State → State} (haddr : ∀ s m, addr (s.withMs m) = addr s)
      (hval : ∀ s m, value (s.withMs m) = value s) (hafter : ∀ s m, after (s.withMs m) = (after s).withMs m) :
      TailKind (writeOp addr value after)

theorem TailKind.advance {op : Micro} (h : TailKind op) : Plain (thenAdvance op) := by
  cases h with
  | loc h => exact .loc h.advance
  | read ha hp => rw [thenAdvance_readOp]; exact .read ha (fun v s m => by rw [hp]; rfl)
  | write ha hv hf => rw [thenAdvance_writeOp]; exact .write ha hv (fun s m => by rw [hf]; rfl)

theorem TailKind.complete {op : Micro} (h : TailKind op) : Plain (thenComplete op) := by
  cases h with
  | loc h => exact .loc h.complete
  | read ha hp => rw [thenComplete_readOp]; exact .read ha (fun v s m => by rw [hp]; rfl)
  | write ha hv hf => rw [thenComplete_writeOp]; exact .write ha hv (fun s m => by rw [hf]; rfl)

theorem TailKind.stepsOf : ∀ {ops : List Micro}, (∀ op ∈ ops, TailKind op) → ∀ op ∈ stepsOf ops, Plain op
  | [], _, op, hop => by cases hop
  | [a], h, op, hop => by
    simp only [Machine.stepsOf, List.mem_singleton] at hop
    subst hop; exact (h a (List.mem_cons_self ..)).complete
  | a :: b :: rest, h, op, hop => by
    simp only [stepsOf_two, List.mem_cons] at hop
    rcases hop with rfl | hop
    · exact (h a (List.mem_cons_self ..)).advance
    · exact TailKind.stepsOf (fun c hc => h c (List.mem_cons_of_mem _ hc)) op (by
        simpa only [List.mem_cons] using hop)

/-! ### The micro-ops of the tails -/

theorem local_dvdOp : Local dvdOp := by
  refine ⟨fun s m => ?_, fun s h s' hc => ?_⟩
  · have : ccFlag (aluDvd (s.withMs m)).cc flagDivzero = ccFlag (aluDvd s).cc flagDivzero := rfl
    simp only [dvdOp, this]; split <;> rfl
  · simp only [dvdOp] at hc; split at hc <;> cases hc

theorem tailKind_dvdOp : TailKind dvdOp := .loc local_dvdOp

theorem tailKind_inRead : TailKind inRead := by
  refine .loc ⟨fun s m => ?_, fun s h s' hc => ?_⟩
  · unfold inRead
    by_cases hd : s.dec.devid.toNat = Config.devKeyboard
    · rw [if_pos hd, if_pos (show (s.withMs m).dec.devid.toNat = _ from hd),
        show (s.withMs m).inbuf[(s.withMs m).ptr]? = s.inbuf[s.ptr]? from rfl]
      cases s.inbuf[s.ptr]? <;> rfl
    · rw [if_neg hd, if_neg (show ¬ (s.withMs m).dec.devid.toNat = _ from hd)]; rfl
  · simp only [inRead] at hc
    split at hc
    · split at hc <;> cases hc; rfl
    · cases hc

theorem tailKind_trapEnter : TailKind trapEnter := by
  refine .loc ⟨fun s m => ?_, fun s h s' hc => ?_⟩
  · unfold trapEnter
    by_cases hz : s.mdr.toNat = 0
    · rw [if_pos hz, if_pos (show (s.withMs m).mdr.toNat = _ from hz)]; rfl
    · rw [if_neg hz, if_neg (show ¬ (s.withMs m).mdr.toNat = _ from hz)]; rfl
  · simp only [trapEnter] at hc; split at hc <;> cases hc

theorem TailKind.reg {f : State → State} (h : ∀ s m, f (s.withMs m) = (f s).withMs m) : TailKind (regOp f) :=
  .loc (.regOp h)

theorem tailKind_outEmit : TailKind outEmit := by
  refine .reg (fun s m => ?_)
  by_cases hd : s.dec.devid.toNat = Config.devConsole
  · rw [if_pos hd, if_pos (show (s.withMs m).dec.devid.toNat = _ from hd)]; rfl
  · rw [if_neg hd, if_neg (show ¬ (s.withMs m).dec.devid.toNat = _ from hd)]

theorem tailKind_mdrFromMem : TailKind mdrFromMem := .read (fun _ _ => rfl) (fun _ _ _ => rfl)

theorem tailKind_memFromMdr : TailKind memFromMdr := .write (fun _ _ => rfl) (fun _ _ => rfl) (fun _ _ => rfl)

theorem tailKind_eaOps {rest : List Micro} (i : Bool) (h : ∀ op ∈ rest, TailKind op) :
    ∀ op ∈ eaOps i ++ rest, TailKind op := by
  intro op hop
  have hr : ∀ f : State → State, (∀ s m, f (s.withMs m) = (f s).withMs m) → TailKind (regOp f) := fun _ => .reg
  rcases List.mem_append.1 hop with hop | hop
  · cases i <;> simp only [eaOps, if_true, if_false, Bool.false_eq_true, List.mem_cons, List.not_mem_nil, or_false] at hop
    · subst hop; exact hr _ (fun _ _ => rfl)
    · rcases hop with rfl | rfl | rfl | rfl
      · exact hr _ (fun _ _ => rfl)
      · exact hr _ (fun _ _ => rfl)
      · exact tailKind_mdrFromMem
      · exact hr _ (fun _ _ => rfl)
  · exact h op hop

/-- Every micro-op of every tail is of one of the three kinds. -/
theorem tailOf_kind (i : Instr) : ∀ op ∈ tailOf i, TailKind op := by
  cases i <;> simp only [tailOf, ldrTail, strTail, ldaTail, ldxTail, stxTail, jzTail, jneTail, jccTail, jmpTail, jsrTail,
    rfsTail, sobTail, jgeTail, amrTail, smrTail, airTail, sirTail, mltTail, dvdTail, trrTail, andTail, orrTail, notTail,
    shiftLatches, srcTail, rrcTail, inTail, outTail, trapTail, hltTail, List.cons_append, List.nil_append]
  all_goals first
    | refine tailKind_eaOps _ ?_
    | skip
  all_goals
    simp only [List.forall_mem_cons, List.not_mem_nil, false_imp_iff, implies_true, and_true]
  all_goals
    repeat' apply And.intro
  all_goals first
    | exact tailKind_dvdOp
    | exact tailKind_inRead
    | exact tailKind_trapEnter
    | exact tailKind_outEmit
    | exact tailKind_mdrFromMem
    | exact tailKind_memFromMdr
    | exact .reg (fun _ _ => rfl)

theorem plain_fetchOps : ∀ op ∈ fetchOps, Plain op := by
  simp only [fetchOps, List.forall_mem_cons, List.not_mem_nil, false_imp_iff, implies_true, and_true]
  exact ⟨.reg (fun _ _ => rfl), .read (fun _ _ => rfl) (fun _ _ _ => rfl), .reg (fun _ _ => rfl)⟩

theorem plain_faultEntryOps : ∀ op ∈ faultEntryOps, Plain op := by
  simp only [faultEntryOps, List.forall_mem_cons, List.not_mem_nil, false_imp_iff, implies_true, and_true]
  exact ⟨.write (fun _ _ => rfl) (fun _ _ => rfl) (fun _ _ => rfl),
    .write (fun _ _ => rfl) (fun _ _ => rfl) (fun _ _ => rfl), .read (fun _ _ => rfl) (fun _ _ _ => rfl)⟩

theorem plain_stepsOf_tailOf (i : Instr) : ∀ op ∈ stepsOf (tailOf i), Plain op := TailKind.stepsOf (tailOf_kind i)

/-! ### Two states that differ only in the memory side, and show the same words -/

/-- Two states with sound memory sides that show the same words, and alike in everything else. -/
structure Sim (s t : State) : Prop where
  left : s.ms.Inv
  right : t.ms.Inv
  rest : t = s.withMs t.ms
  view : ∀ a, s.ms.view a = t.ms.view a

theorem Sim.of {u : State} {m n : MemSys} {f : Nat → Word} (hm : m.Shows f) (hn : n.Shows f) :
    Sim (u.withMs m) (u.withMs n) :=
  ⟨hm.1, hn.1, rfl, fun a => (hm.2 a).trans (hn.2 a).symm⟩

theorem Sim.refl {s : State} (h : s.ms.Inv) : Sim s s := ⟨h, h, rfl, fun _ => rfl⟩

/-- The results of one micro-step in two such states: of the same kind, and again two such states. No micro-step of
theirs is held for ever. -/
inductive ResSim : MicroResult → MicroResult → Prop where
  | ok {a b : State} (h : Sim a b) : ResSim (.ok a) (.ok b)
  | complete {a b : State} (h : Sim a b) : ResSim (.complete a) (.complete b)
  | wait {a b : State} (h : Sim a b) : ResSim (.hold .inputStall a) (.hold .inputStall b)
  | raise {a b : State} (kind : FaultKind) (h : Sim a b) : ResSim (.raise kind a) (.raise kind b)

theorem retryHeld_local {op : Micro} (h : Local op) (s : State) : ∀ n, retryHeld n op s = op s
  | 0 => rfl
  | n + 1 => by
    simp only [retryHeld]
    cases hop : op s with
    | hold hd s' => cases h.holds s _ _ hop; rfl
    | _ => rfl

theorem Local.sim {op : Micro} (h : Local op) {s t : State} (hst : Sim s t) :
    ResSim (microTurn op s) (microTurn op t) := by
  have hs := MemSys.startTurn_shows hst.left
  have ht : t.ms.startTurn.Shows s.ms.view :=
    ⟨(MemSys.startTurn_shows hst.right).1, fun a => by rw [(MemSys.startTurn_shows hst.right).2, hst.view]⟩
  have e : t.withMs t.ms.startTurn = s.withMs t.ms.startTurn := by
    have h : (s.withMs t.ms).withMs t.ms.startTurn = s.withMs t.ms.startTurn := rfl
    rwa [← hst.rest] at h
  rw [microTurn, microTurn, retryHeld_local h, retryHeld_local h, e, h.comm, h.comm]
  cases hop : op s with
  | ok u => exact .ok (Sim.of (u := u.tick) hs ht)
  | complete u => exact .complete (Sim.of (u := u.tick) hs ht)
  | hold hd u => cases h.holds s _ _ hop; exact .wait (Sim.of (u := u) hs ht)
  | raise kind u => exact .raise kind (Sim.of (u := (u.raiseFault kind).tick) hs ht)

theorem Sim.shows {s t : State} (h : Sim s t) : t.ms.Shows s.ms.view := ⟨h.right, fun a => (h.view a).symm⟩

theorem Sim.congr {α : Type} {s t : State} (h : Sim s t) {f : State → α} (hf : ∀ s m, f (s.withMs m) = f s) : f t = f s := by
  rw [h.rest, hf]

theorem Sim.withMs_eq {s t : State} (h : Sim s t) (m : MemSys) : t.withMs m = s.withMs m := by
  have e : (s.withMs t.ms).withMs m = s.withMs m := rfl
  rwa [← h.rest] at e

theorem Plain.read_sim {addr : State → Word} {put : Word → State → State} (haddr : ∀ s m, addr (s.withMs m) = addr s)
    (hput : ∀ v s m, put v (s.withMs m) = (put v s).withMs m) {s t : State} (hst : Sim s t) :
    ResSim (microTurn (readOp addr put) s) (microTurn (readOp addr put) t) := by
  have ha := hst.congr haddr
  by_cases hlt : (addr s).toNat < Config.memWords
  · obtain ⟨m, hm, he⟩ := microTurn_readOp (put := put) hst.left (haddr s) hlt
    obtain ⟨n, hn, he'⟩ := microTurn_readOp (put := put) hst.right (haddr t) (by rw [ha]; exact hlt)
    rw [he, he', ha, ← hst.view, hst.withMs_eq, hput, hput]
    exact .ok (Sim.of (u := (put _ s).tick) hm ⟨hn.1, fun a => (hn.2 a).trans (hst.view a).symm⟩)
  · rw [microTurn_readOp_raise (haddr s) hlt, microTurn_readOp_raise (haddr t) (by rw [ha]; exact hlt), hst.withMs_eq]
    exact .raise _ (Sim.of (u := (s.raiseFault .addressFault).tick) hst.left.shows.startTurn hst.shows.startTurn)

theorem Plain.write_sim {addr value : State → Word} {after : State → State}
    (haddr : ∀ s m, addr (s.withMs m) = addr s) (hval : ∀ s m, value (s.withMs m) = value s)
    (hafter : ∀ s m, after (s.withMs m) = (after s).withMs m) {s t : State} (hst : Sim s t) :
    ResSim (microTurn (writeOp addr value after) s) (microTurn (writeOp addr value after) t) := by
  have ha := hst.congr haddr
  have hv := hst.congr hval
  by_cases hlt : (addr s).toNat < Config.memWords
  · obtain ⟨m, hm, he⟩ := microTurn_writeOp (after := after) hst.left (haddr s) (hval s) hlt
    obtain ⟨n, hn, he'⟩ := microTurn_writeOp (after := after) hst.right (haddr t) (hval t) (by rw [ha]; exact hlt)
    rw [he, he', hst.withMs_eq, hafter, hafter]
    exact .ok (Sim.of (u := (after s).tick) hm ⟨hn.1, fun a => (hn.2 a).trans (by simp only [ha, hv, hst.view])⟩)
  · rw [microTurn_writeOp_raise (haddr s) hlt, microTurn_writeOp_raise (haddr t) (by rw [ha]; exact hlt), hst.withMs_eq]
    exact .raise _ (Sim.of (u := (s.raiseFault .addressFault).tick) hst.left.shows.startTurn hst.shows.startTurn)

/-- The decode step is a transfer or, through the trampoline, a write of mem[8] (41_execution_cycle.md R186). -/
theorem microTurn_decodeStep (f : DecodeFields) (s : State) : microTurn (decodeStep f) s =
    if f.addr.toNat = Config.trampAddr then
      match lookupRef s.labelRefs s.pc with
      | some t => microTurn (writeOp (fun _ => BitVec.ofNat 18 Config.trampAddr) (fun _ => pcToWord t) (.decoded f)) s
      | none => microTurn (regOp (.decoded f)) s
    else microTurn (regOp (.decoded f)) s := by
  have key : ∀ op : Micro, (∀ m, decodeStep f (s.withMs m) = op (s.withMs m)) → microTurn (decodeStep f) s = microTurn op s := by
    intro op h
    have hr : ∀ n m, retryHeld n (decodeStep f) (s.withMs m) = retryHeld n op (s.withMs m) := by
      intro n
      induction n with
      | zero => exact h
      | succ n ih =>
        intro m
        simp only [retryHeld, h]
        cases hop : op (s.withMs m) with
        | hold hd u => cases hd <;> first | exact ih _ | rfl
        | _ => rfl
    simp only [microTurn, hr]
  by_cases hf : f.addr.toNat = Config.trampAddr
  · rw [if_pos hf]
    cases hl : lookupRef s.labelRefs s.pc with
    | some t => exact key _ (fun m => by
        simp only [decodeStep, if_pos hf, State.withMs_labelRefs, State.withMs_pc, hl])
    | none => exact key _ (fun m => by
        simp only [decodeStep, if_pos hf, State.withMs_labelRefs, State.withMs_pc, hl]; rfl)
  · rw [if_neg hf]; exact key _ (fun m => by simp only [decodeStep, if_neg hf]; rfl)

/-- One micro-step of two such states gives two such states: the program cannot tell the memory sides apart
(20_memory.md R75, R78), and the memory side stays sound. -/
theorem Plain.sim {op : Micro} (h : Plain op) {s t : State} (hst : Sim s t) :
    ResSim (microTurn op s) (microTurn op t) := by
  cases h with
  | loc h => exact h.sim hst
  | read ha hp => exact Plain.read_sim ha hp hst
  | write ha hv hf => exact Plain.write_sim ha hv hf hst
  | decode f =>
    rw [microTurn_decodeStep, microTurn_decodeStep, hst.congr (f := State.labelRefs) (fun _ _ => rfl),
      hst.congr (f := State.pc) (fun _ _ => rfl)]
    split
    · split
      · exact Plain.write_sim (fun _ _ => rfl) (fun _ _ => rfl) (fun _ _ => rfl) hst
      · exact (Local.regOp (fun _ _ => rfl)).sim hst
    · exact (Local.regOp (fun _ _ => rfl)).sim hst

/-- The outcomes of two such states: two such states, or the same refusal; never a fault of the model. -/
inductive OutSim : Out → Out → Prop where
  | next {a b : State} (h : Sim a b) : OutSim (.next a) (.next b)
  | refused (r : Refusal) : OutSim (.refused r) (.refused r)

theorem runSeq_sim {fin onFault : State → Out} (hfin : ∀ s t, Sim s t → OutSim (fin s) (fin t))
    (hfault : ∀ s t, Sim s t → OutSim (onFault s) (onFault t)) :
    ∀ {ops : List Micro}, (∀ op ∈ ops, Plain op) → ∀ {s t : State}, Sim s t →
      OutSim (runSeq fin onFault ops s) (runSeq fin onFault ops t)
  | [], _, _, _, hst => hfin _ _ hst
  | op :: ops, h, s, t, hst => by
    have hr := (h op (List.mem_cons_self ..)).sim hst
    have ih : ∀ {s t : State}, Sim s t → OutSim (runSeq fin onFault ops s) (runSeq fin onFault ops t) :=
      runSeq_sim hfin hfault (fun o ho => h o (List.mem_cons_of_mem _ ho))
    simp only [runSeq]
    generalize microTurn op s = x, microTurn op t = y at hr
    cases hr with
    | ok h => exact ih h
    | complete h => exact .next h
    | wait h => exact .next h
    | raise _ h => exact hfault _ _ h

/-! ### The whole engine -/

/-- An outcome related to another is no fault of the model. -/
theorem OutSim.refl_not_fault {o o' : Out} (h : OutSim o o') (f : Fault) : o ≠ .fault f := by
  cases h <;> exact fun hc => by cases hc

theorem plain_of_mem_drop {ops : List Micro} (h : ∀ op ∈ ops, Plain op) (n : Nat) : ∀ op ∈ ops.drop n, Plain op :=
  fun op hop => h op (List.mem_of_mem_drop hop)

theorem next_sim (s t : State) (h : Sim s t) : OutSim (.next s) (.next t) := .next h

theorem runFaultEntry_sim (j : Nat) (s t : State) (h : Sim s t) : OutSim (runFaultEntry j s) (runFaultEntry j t) :=
  runSeq_sim next_sim next_sim (plain_of_mem_drop plain_faultEntryOps j) h

/-- Every meaning is decode, then the tail of its instruction. -/
theorem exec_eq (i : Instr) (s : State) : exec i s = runInstr i (tailOf i) s := by cases i <;> rfl

/-- Two states that show the same words run an instruction alike. -/
theorem exec_sim (i : Instr) (s t : State) (h : Sim s t) : OutSim (exec i s) (exec i t) := by
  rw [exec_eq, exec_eq]; unfold runInstr
  split
  · exact .refused _
  · refine runSeq_sim next_sim (runFaultEntry_sim 0) ?_ h
    intro op hop
    rcases List.mem_cons.1 hop with rfl | hop
    · exact .decode _
    · exact plain_stepsOf_tailOf i op hop

theorem tailAt_plain {s : State} {ops} (h : tailAt s = .ok ops) : ∀ op ∈ ops, Plain op := by
  unfold tailAt at h
  split at h
  · cases h
  · next i _ =>
    split at h
    · cases h
    · next op' ops' hd =>
      cases h
      rw [← hd]
      exact plain_of_mem_drop (plain_stepsOf_tailOf i) _

theorem tailAt_ne {s : State} {ops} (h : tailAt s = .ok ops) : ops ≠ [] := by
  unfold tailAt at h
  split at h
  · cases h
  · next i _ =>
    split at h
    · cases h
    · cases h; simp

/-- Every micro-op that a micro-step runs is one of the kinds. -/
theorem microOpAt_plain {s : State} {op} (h : microOpAt s = .ok op) : Plain op := by
  unfold microOpAt at h
  split at h
  · next j _ =>
    split at h
    · cases h
    · next o ho => cases h; exact plain_faultEntryOps _ (List.mem_of_getElem? ho)
  · split at h
    · next o ho => cases h; exact plain_fetchOps _ (List.mem_of_getElem? ho)
    · split at h
      · split at h
        · cases h
        · cases h; exact .decode _
      · split at h
        · cases h
        · next ops ho =>
          cases h
          cases ops with
          | nil => exact absurd rfl (tailAt_ne ho)
          | cons a b => exact tailAt_plain ho a (List.mem_cons_self ..)

theorem microOpAt_sim {s t : State} (h : Sim s t) : microOpAt t = microOpAt s := 
  h.congr (f := microOpAt) (fun _ _ => rfl)

/-- A refusal marks two such states alike. -/
theorem Sim.refuse {s t : State} (h : Sim s t) (r : Refusal) : OutSim (.next (s.refuse r)) (.next (t.refuse r)) := by
  have e : t.refuse r = (s.withMs t.ms).refuse r := congrArg (State.refuse · r) h.rest
  rw [e]
  exact .next (Sim.of (u := s.refuse r) h.left.shows h.shows)

theorem engineMicro_sim {s t : State} (h : Sim s t) : OutSim (engineMicro s) (engineMicro t) := by
  unfold engineMicro
  rw [microOpAt_sim h]
  split
  · exact h.refuse _
  · next op ho =>
    refine runSeq_sim next_sim next_sim ?_ h
    intro o ho'
    rw [List.mem_singleton] at ho'; subst ho'
    exact microOpAt_plain ho

theorem engineMacro_sim {s t : State} (h : Sim s t) : OutSim (engineMacro s) (engineMacro t) := by
  have hda : ∀ s t, Sim s t → OutSim (decodeAndExec s) (decodeAndExec t) := by
    intro s t h
    unfold decodeAndExec
    rw [h.congr (f := State.ir) (fun _ _ => rfl)]
    split
    · exact h.refuse _
    · exact exec_sim _ _ _ h
  unfold engineMacro
  rw [h.congr (f := State.phase) (fun _ _ => rfl)]
  split
  · exact runFaultEntry_sim _ _ _ h
  · rw [h.congr (f := State.k) (fun _ _ => rfl)]
    split
    · exact runSeq_sim hda (runFaultEntry_sim 0) (plain_of_mem_drop plain_fetchOps _) h
    · unfold resumeTail
      rw [h.congr (f := tailAt) (fun _ _ => rfl)]
      split
      · exact h.refuse _
      · next ops ho => exact runSeq_sim next_sim (runFaultEntry_sim 0) (tailAt_plain ho) h

theorem runByMode_sim (s t : State) (h : Sim s t) : OutSim (runByMode s) (runByMode t) := by
  unfold runByMode
  rw [h.congr (f := State.execMode) (fun _ _ => rfl)]
  split
  · exact engineMicro_sim h
  · exact engineMacro_sim h
  · exact engineMacro_sim h

theorem settled_sim {o o' : Out} (h : OutSim o o') : OutSim (settled o) (settled o') := by
  cases h with
  | @next a b h =>
    have e : b.settle = (a.withMs b.ms).settle := congrArg State.settle h.rest
    simp only [settled]; rw [e]
    exact .next (Sim.of (u := a.settle) h.left.shows h.shows)
  | refused r => exact .refused r

/-- The engine's turn in two such states: neither can tell the memory sides apart. After a shutdown only the drain
shows, which the program does not see any more. -/
theorem engineTurn_sim {run : State → Out} (hrun : ∀ s t, Sim s t → OutSim (run s) (run t)) {s t : State} (h : Sim s t)
    (ht : s.terminated = false) : OutSim (engineTurn run s) (engineTurn run t) := by
  unfold engineTurn
  rw [h.congr (f := State.refused) (fun _ _ => rfl), h.congr (f := State.terminated) (fun _ _ => rfl),
    h.congr (f := State.refusal) (fun _ _ => rfl), h.congr (f := State.executing) (fun _ _ => rfl),
    h.congr (f := State.canRun) (fun _ _ => rfl), ht]
  simp only [Bool.false_eq_true, if_false]
  split
  · exact .refused _
  · split
    · exact settled_sim (hrun _ _ h)
    · have e : idleStep t = .next (s.withMs t.ms.startTurn) := congrArg Host.Outcome.next (h.withMs_eq _)
      rw [e]
      exact .next (Sim.of (u := s) h.left.shows.startTurn h.shows.startTurn)

/-- A step of the controller alone in two such states. -/
theorem controllerStep_sim {s t : State} (h : Sim s t) : OutSim (controllerStep s) (controllerStep t) := by
  have e : controllerStep t = .next (s.withMs t.ms.ctrlMove) := congrArg Host.Outcome.next (h.withMs_eq _)
  rw [e]
  have hc := MemSys.ctrlMove_shows h.right
  exact .next (Sim.of (u := s) (MemSys.ctrlMove_shows h.left) ⟨hc.1, fun a => (hc.2 a).trans (h.view a).symm⟩)

/-- No turn of the engine ends in a fault of the model, for a sound memory side. -/
theorem engineTurn_ne_fault {run : State → Out} (hrun : ∀ s t, Sim s t → OutSim (run s) (run t)) {s : State}
    (h : s.ms.Inv) (f : Fault) : engineTurn run s ≠ .fault f := by
  unfold engineTurn idleStep
  split
  · exact fun h => by cases h
  · split
    · split <;> exact fun h => by cases h
    · split
      · exact (settled_sim (hrun s s (Sim.refl h))).refl_not_fault f
      · exact fun h => by cases h

end Sys2Proof.Machine
end

