-- ==== Sys2Proof/Laws/Instr.lean ====
section
/-! SUPPORT. How an instruction's meaning, and a step around it, are run: the sequence of its micro-steps, the last
micro-ops of the tails that are not plain transfers, the fetch, and which turn a step of the engine takes. -/

namespace Sys2Proof.Machine

variable {g f : Nat → Word} {X : MemSys → Out} {s : State}

/-- The meaning of a well-formed instruction is its micro-steps from decode on. -/
theorem exec_runSeq (i : Instr) (h : i.wellFormed = true) (s : State) :
    exec i s = runSeq .next (runFaultEntry 0) (decodeStep (fieldsOf i) :: stepsOf (tailOf i)) s := by
  have hr : reservedError i = none := by cases i <;> simp_all [reservedError, Instr.wellFormed]
  rw [exec_eq, runInstr, hr]

/-- An instruction whose word has no ADDR field leaves what the program sees alone at decode (41_execution_cycle.md
R186). -/
theorem State.seen_zero (s : State) : s.seen 0 = s.ms.view := by
  funext a
  rw [State.seen, if_neg (fun hc => absurd hc.2 (by decide))]

/-! ### The last micro-op of a tail -/

/-- A last micro-op that is taken. -/
theorem Reaches.lastOk {onFault : State → Out} {op : Micro} {u : State → State} (h : s.ms.Shows g)
    (hop : ∀ m, op (s.withMs m) = .ok (u (s.withMs m)))
    (next : ∀ m, m.Shows g → Reaches (.next (u (s.withMs m)).completed.tick) f X) :
    Reaches (runSeq .next onFault (stepsOf [op]) s) f X := by
  have ht : ∀ m, thenComplete op (s.withMs m) = .ok (u (s.withMs m)).completed := fun m => by
    simp only [thenComplete, hop]
  rw [stepsOf_one, runSeq, microTurn, retryHeld_of_ok (ht _)]
  exact next _ h.startTurn

/-- A micro-op that completes the instruction by itself. -/
theorem Reaches.lastComplete {onFault : State → Out} {op : Micro} {u : State → State} (h : s.ms.Shows g)
    (hop : ∀ m, op (s.withMs m) = .complete (u (s.withMs m)))
    (next : ∀ m, m.Shows g → Reaches (.next (u (s.withMs m)).completed.tick) f X) :
    Reaches (runSeq .next onFault (stepsOf [op]) s) f X := by
  have ht : ∀ n m, retryHeld n (thenComplete op) (s.withMs m) = .complete (u (s.withMs m)).completed := fun n m => by
    cases n <;> simp only [retryHeld, thenComplete, hop]
  rw [stepsOf_one, runSeq, microTurn, ht]
  exact next _ h.startTurn

/-- A last micro-op that raises a machine fault. -/
theorem Reaches.lastRaise {onFault : State → Out} {op : Micro} {kind : FaultKind} (h : s.ms.Shows g)
    (hop : ∀ m, op (s.withMs m) = .raise kind (s.withMs m))
    (next : ∀ m, m.Shows g → Reaches (onFault ((s.withMs m).raiseFault kind).tick) f X) :
    Reaches (runSeq .next onFault (stepsOf [op]) s) f X := by
  have ht : ∀ m, thenComplete op (s.withMs m) = .raise kind (s.withMs m) := fun m => by
    simp only [thenComplete, hop]
  rw [stepsOf_one, runSeq, microTurn, retryHeld_of_raise (ht _)]
  exact next _ h.startTurn

/-- A micro-op that waits for input. -/
theorem Reaches.lastWait {onFault : State → Out} {op : Micro} {u : State → State} (h : s.ms.Shows g)
    (hop : ∀ m, op (s.withMs m) = .hold .inputStall (u (s.withMs m)))
    (next : ∀ m, m.Shows g → Reaches (.next (u (s.withMs m))) f X) :
    Reaches (runSeq .next onFault (stepsOf [op]) s) f X := by
  have ht : ∀ n m, retryHeld n (thenComplete op) (s.withMs m) = .hold .inputStall (u (s.withMs m)) := fun n m => by
    cases n <;> simp only [retryHeld, thenComplete, hop]
  rw [stepsOf_one, runSeq, microTurn, ht]
  exact next _ h.startTurn

/-- A machine fault and its entry, from what the program saw (60_exceptions.md R301). -/
theorem Reaches.faultEntry {kind : FaultKind} (h : s.ms.Shows g)
    (hX : ∀ m, X m = .next (s.faultTaken kind (g Config.faultVectorPtr) m)) :
    Reaches (runFaultEntry 0 (s.raiseFault kind).tick) (savedAt s.pc g) X := by
  obtain ⟨m, hm, he⟩ := runFaultEntry_raise h.1 kind
  refine ⟨m, ⟨hm.1, fun x => ?_⟩, ?_⟩
  · rw [hm.2 x]; simp only [savedAt, h.2]
  · rw [he, hX, h.2]

/-! ### The micro-ops that can end an instruction early -/

/-- IN from the keyboard with a character at the pointer (45_io_trap_halt.md R280). -/
theorem inRead_char {c : CharCode} (hd : s.dec.devid = 0) (hc : s.inbuf[s.ptr]? = some c) :
    inRead s = .ok ((s.setR s.dec.r (c.setWidth 18)).consumeChar) := by
  have : s.dec.devid.toNat = Config.devKeyboard := by rw [hd]; rfl
  simp only [inRead, if_pos this, hc]

/-- IN from the keyboard with nothing left to read. -/
theorem inRead_empty (hd : s.dec.devid = 0) (hc : s.inbuf[s.ptr]? = none) :
    inRead s = .hold .inputStall { s with waitForInterrupt := true } := by
  have : s.dec.devid.toNat = Config.devKeyboard := by rw [hd]; rfl
  simp only [inRead, if_pos this, hc]

/-- IN from another device. -/
theorem inRead_other (hd : s.dec.devid ≠ 0) : inRead s = .complete s := by
  have : ¬ s.dec.devid.toNat = Config.devKeyboard := fun h => hd (BitVec.eq_of_toNat_eq h)
  simp only [inRead, if_neg this]

/-- The last step of TRAP with an empty entry (45_io_trap_halt.md R282). -/
theorem trapEnter_empty (h : s.mdr = 0) : trapEnter s = .raise .illegalTrap s := by
  have : s.mdr.toNat = 0 := by rw [h]; rfl
  simp only [trapEnter, if_pos this]

/-- The last step of TRAP with an entry. -/
theorem trapEnter_jump (h : s.mdr ≠ 0) : trapEnter s = .ok (s.jump s.mdr) := by
  have : ¬ s.mdr.toNat = 0 := fun hc => h (BitVec.eq_of_toNat_eq hc)
  simp only [trapEnter, if_neg this]

/-- The ALU step of DVD by 0 completes the instruction (44_arith_logic.md R255). -/
theorem dvdOp_zero (h : s.op2 = 0) : dvdOp s = .complete (aluDvd s) := by
  have : ccFlag (aluDvd s).cc flagDivzero = true := by
    simp only [aluDvd, dvdFlags, h]; decide
  simp only [dvdOp, this, if_true]

/-- The ALU step of DVD by a divisor that is not 0. -/
theorem dvdOp_nonzero (h : s.op2 ≠ 0) : dvdOp s = .ok (aluDvd s) := by
  have h0 : s.op2.toNat ≠ 0 := fun hc => h (BitVec.eq_of_toNat_eq hc)
  have : ccFlag (aluDvd s).cc flagDivzero = false := by
    simp only [aluDvd, dvdFlags, decide_eq_false h0]; decide
  simp only [dvdOp, this]; rfl

/-! ### The turn of the engine -/

/-- An active engine runs, and the `execute` is over or not. -/
theorem engineTurn_active (run : State → Out) (h : s.Active) : engineTurn run s = settled (run s) := by
  obtain ⟨h1, h2, h3, h4, h5⟩ := h
  have hc : s.canRun = true := by rw [State.canRun, h2, h3, h4, h5]; rfl
  rw [engineTurn, h1, h2, h3, hc]; rfl

theorem State.Active.turns (h : s.Active) (r : List Turn) : State.Active { s with turns := r } :=
  ⟨h.1, h.2, h.3, h.4, h.5⟩

/-- An active engine is stopped by nothing. -/
theorem State.Active.canRun (h : s.Active) : s.canRun = true := by
  rw [State.canRun, h.2, h.3, h.4, h.5]; rfl

/-- After a micro-step inside an instruction the `execute` goes on, but for mode micro (60_exceptions.md R317). -/
theorem State.settle_inside (hc : s.canRun = true) (hp : s.phase = .run) (hk : s.k ≠ 0) :
    s.settle = { s with executing := decide (s.execMode ≠ .micro) } := by
  rw [State.settle, State.goesOn, hc, hp, decide_eq_false hk]
  cases s.execMode <;> rfl

/-- Inside fault entry the `execute` goes on in every mode (60_exceptions.md R319). -/
theorem State.settle_faultEntry (hc : s.canRun = true) (hp : s.phase ≠ .run) : s.settle = { s with executing := true } := by
  rw [State.settle, State.goesOn, hc, decide_eq_true hp, decide_eq_false hp]
  cases s.execMode <;> rfl

/-- Mode continue goes on until the engine has no step (60_exceptions.md R317). -/
theorem State.settle_continue (hc : s.canRun = true) (hm : s.execMode = .continue) :
    s.settle = { s with executing := true } := by
  rw [State.settle, State.goesOn, hc, hm]; rfl

/-- Where the engine has no step the `execute` is over (60_exceptions.md R317). -/
theorem State.settle_stopped (hc : s.canRun = false) : s.settle = { s with executing := false } := by
  rw [State.settle, State.goesOn, hc]; rfl

/-- What micro-steps of the engine reach, the `execute` over or not. -/
theorem Reaches.settled {o : Out} (h : Reaches o f X) : Reaches (settled o) f (fun m => Machine.settled (X m)) := by
  obtain ⟨m, hm, he⟩ := h
  exact ⟨m, hm, congrArg Machine.settled he⟩

/-- The engine's next step is one micro-step. -/
theorem step_micro (h : s.MicroNext) : step s = settled (engineMicro { s with turns := s.turns.tail }) := by
  rcases h.turn with ⟨ht, hm⟩ | ht
  · have hs : ({ s with turns := s.turns.tail } : State) = s := by rw [ht, List.tail_nil, ← ht]
    rw [hs, step, ht]
    show engineTurn runByMode s = _
    rw [engineTurn_active _ h.active, runByMode, hm]
  · cases hs : s.turns with
    | nil => rw [hs] at ht; cases ht
    | cons a rest =>
      have ha : a = .micro := by rw [hs] at ht; exact Option.some.inj ht
      subst ha
      rw [step, hs]
      exact engineTurn_active _ (h.active.turns rest)

/-- The engine's next step is an instruction, or the rest of one. -/
theorem step_macro (h : s.Running) (hm : s.execMode ≠ .micro) :
    step s = settled (engineMacro { s with turns := s.turns.tail }) := by
  have run : ∀ t : State, t.execMode = s.execMode → t.Active → engineStep t = settled (engineMacro t) := fun t he ha => by
    rw [engineStep, engineTurn_active _ ha, runByMode, he]
    cases hm' : s.execMode with
    | micro => exact absurd hm' hm
    | _ => rfl
  rcases h.turn with ht | ht
  · have hs : ({ s with turns := s.turns.tail } : State) = s := by rw [ht, List.tail_nil, ← ht]
    rw [hs, step, ht]
    exact run s rfl h.active
  · cases hs : s.turns with
    | nil => rw [hs] at ht; cases ht
    | cons a rest =>
      have ha : a = .engine := by rw [hs] at ht; exact Option.some.inj ht
      subst ha
      rw [step, hs]
      exact run _ rfl (h.active.turns rest)

/-- An instruction begins with the three steps of fetch (41_execution_cycle.md R180). -/
theorem engineMacro_fetch (hp : s.phase = .run) (hk : s.k = 0) :
    engineMacro s = runSeq decodeAndExec (runFaultEntry 0) fetchOps s := by
  rw [engineMacro, hp, hk]; rfl

/-- Past decode the rest of the tail is run. -/
theorem engineMacro_resume {ops : List Micro} (hp : s.phase = .run) (hk : ¬ s.k ≤ 3) (ht : tailAt s = .ok ops) :
    engineMacro s = runSeq .next (runFaultEntry 0) ops s := by
  rw [engineMacro, hp]
  dsimp only
  rw [if_neg hk, resumeTail, ht]

theorem pcToWord_toNat (p : PcWord) : (pcToWord p).toNat = p.toNat := by
  have := p.isLt
  rw [pcToWord, BitVec.toNat_setWidth]
  exact Nat.mod_eq_of_lt (by omega)

/-- The three steps of fetch at an in-range PC (41_execution_cycle.md R182 to R184). -/
theorem runSeq_fetch {fin onFault : State → Out} (h : s.ms.Inv) (hlt : s.pc.toNat < Config.memWords) :
    ∃ m, m.Shows s.ms.view ∧ runSeq fin onFault fetchOps s = fin { s with
      mar := pcToWord s.pc, mdr := s.ms.view s.pc.toNat, ir := s.ms.view s.pc.toNat, k := 3
      cycleCount := s.cycleCount + 3, ms := m } := by
  show Reaches _ _ (fun m => fin _)
  unfold fetchOps
  refine Reaches.regOp h.shows fun m₁ h₁ => ?_
  refine Reaches.readOp h₁ (fun _ => rfl) (by show (pcToWord s.pc).toNat < _; rw [pcToWord_toNat]; exact hlt)
    fun m₂ h₂ => ?_
  refine Reaches.regOp h₂ fun m₃ h₃ => ⟨m₃, h₃, ?_⟩
  dsimp only [State.withMs, State.tick]
  rw [pcToWord_toNat]
  rfl

end Sys2Proof.Machine
end

