-- ==== Sys2Proof/Laws/Tails.lean ====
section
/-! SUPPORT. What the micro-ops of the tails keep: the field registers, the step counter, the phase, MSR and MFR, and the
conditions that `State.Inv` puts on CC and the input buffer; which of them jump, halt or wait. -/

namespace Sys2Proof.Machine

/-- What a micro-op of a tail leaves alone. -/
structure Kept (s t : State) : Prop where
  dec : t.dec = s.dec
  k : t.k = s.k
  phase : t.phase = s.phase
  wait : t.waitForInterrupt = s.waitForInterrupt
  msr : t.msr = s.msr
  mfr : t.mfr = s.mfr
  loaded : t.labelRefs = s.labelRefs ∧ t.refused = s.refused
  cc : ccAtMostOne s.cc = true → ccAtMostOne t.cc = true
  ptr : (s.ptr < s.inbuf.length ∨ (s.inbuf = [] ∧ s.ptr = 0)) → (t.ptr < t.inbuf.length ∨ (t.inbuf = [] ∧ t.ptr = 0))

/-- What a micro-op of a tail can do to the state it runs in. -/
inductive KeptBy (s : State) : MicroResult → Prop where
  | ok {t} (h : Kept s t) : KeptBy s (.ok t)
  | complete {t} (h : Kept s t) : KeptBy s (.complete t)
  | wait : KeptBy s (.hold .inputStall { s with waitForInterrupt := true })
  | hold (h : Hold) {t} (hi : h ≠ .inputStall) : KeptBy s (.hold h t)
  | raise (kind : FaultKind) : KeptBy s (.raise kind s)

/-- The micro-op leaves alone what a tail leaves alone, in every state. -/
def Keeps (op : Micro) : Prop := ∀ s, KeptBy s (op s)

theorem Kept.of {s t : State} (h1 : t.dec = s.dec) (h2 : t.k = s.k) (h3 : t.phase = s.phase)
    (h4 : t.waitForInterrupt = s.waitForInterrupt) (h5 : t.msr = s.msr) (h6 : t.mfr = s.mfr) (h7 : t.cc = s.cc)
    (h8 : t.ptr = s.ptr) (h9 : t.inbuf = s.inbuf) (h10 : (t.labelRefs, t.refused) = (s.labelRefs, s.refused)) :
    Kept s t :=
  ⟨h1, h2, h3, h4, h5, h6, by simpa using h10, fun h => h7 ▸ h, fun h => by rw [h8, h9]; exact h⟩

theorem Keeps.reg {f : State → State} (h : ∀ s, Kept s (f s)) : Keeps (regOp f) := fun s => .ok (h s)

/-- A memory access never waits for input. -/
theorem memRead_ne {m : MemSys} {a} : m.memRead a ≠ .hold .inputStall := by
  unfold MemSys.memRead; split
  · split
    · exact fun h => by cases h
    · split <;> exact fun h => by cases h
  · exact fun h => by cases h

/-- A memory access never waits for input. -/
theorem memWrite_ne {m : MemSys} {a w} : m.memWrite a w ≠ .hold .inputStall := by
  unfold MemSys.memWrite; split
  · split
    · exact fun h => by cases h
    · split <;> exact fun h => by cases h
  · exact fun h => by cases h

theorem Keeps.read {addr : State → Word} {put : Word → State → State}
    (h : ∀ v s m, Kept s (put v (s.withMs m))) : Keeps (readOp addr put) := by
  intro s
  unfold readOp
  cases hr : s.ms.memRead (addr s) with
  | got v m => exact .ok (h v s m)
  | hold hd => exact .hold _ (by rintro rfl; exact memRead_ne hr)
  | raise => exact .raise _

theorem Keeps.write {addr value : State → Word} {after : State → State}
    (h : ∀ s m, Kept s (after (s.withMs m))) : Keeps (writeOp addr value after) := by
  intro s
  unfold writeOp
  cases hr : s.ms.memWrite (addr s) (value s) with
  | done m => exact .ok (h s m)
  | hold hd => exact .hold _ (by rintro rfl; exact memWrite_ne hr)
  | raise => exact .raise _

/-- One flag or none (40_alu.md R151, R163). -/
theorem ccWhen_one (j : BitVec 2) (b : Bool) : ccAtMostOne (ccWhen j b) = true := by
  revert j b; decide

/-- An ALU operation that leaves at most one flag (40_alu.md R163). -/
theorem kept_alu {f : State → State}
    (h : ∀ s, f s = { s with result := (f s).result, result2 := (f s).result2, cc := (f s).cc })
    (hc : ∀ s, ccAtMostOne (f s).cc = true) (s : State) : Kept s (f s) := by
  rw [h s]
  exact ⟨rfl, rfl, rfl, rfl, rfl, rfl, ⟨rfl, rfl⟩, fun _ => hc s, id⟩

theorem kept_add (s : State) : Kept s (aluAdd s) :=
  kept_alu (f := aluAdd) (fun _ => rfl)
    (fun s => by simp only [aluAdd, addFlags]; split; exacts [rfl, ccWhen_one _ _]) s

theorem kept_sub (s : State) : Kept s (aluSub s) :=
  kept_alu (f := aluSub) (fun _ => rfl)
    (fun s => by simp only [aluSub, subFlags]; split; exacts [rfl, ccWhen_one _ _]) s

theorem kept_mlt (s : State) : Kept s (aluMlt s) := kept_alu (f := aluMlt) (fun _ => rfl) (fun _ => ccWhen_one _ _) s

theorem kept_dvd (s : State) : Kept s (aluDvd s) := kept_alu (f := aluDvd) (fun _ => rfl) (fun _ => ccWhen_one _ _) s

theorem kept_trr (s : State) : Kept s (aluTrr s) := kept_alu (f := aluTrr) (fun _ => rfl) (fun _ => ccWhen_one _ _) s

theorem keeps_dvdOp : Keeps dvdOp := by
  intro s; unfold dvdOp; split
  · exact .complete (kept_dvd s)
  · exact .ok (kept_dvd s)

theorem keeps_inRead : Keeps inRead := by
  intro s; unfold inRead; split
  · cases hc : s.inbuf[s.ptr]? with
    | none => exact .wait
    | some c =>
      refine .ok ⟨rfl, rfl, rfl, rfl, rfl, rfl, ⟨rfl, rfl⟩, id, fun _ => ?_⟩
      obtain ⟨hl, -⟩ := List.getElem?_eq_some_iff.1 hc
      show (if s.ptr + 1 = s.inbuf.length then 0 else s.ptr + 1) <
          (if s.ptr + 1 = s.inbuf.length then [] else s.inbuf).length ∨
        (if s.ptr + 1 = s.inbuf.length then [] else s.inbuf) = [] ∧
          (if s.ptr + 1 = s.inbuf.length then 0 else s.ptr + 1) = 0
      by_cases he : s.ptr + 1 = s.inbuf.length
      · simp only [if_pos he]; exact .inr ⟨trivial, trivial⟩
      · simp only [if_neg he]; left; omega
  · exact .complete (Kept.of rfl rfl rfl rfl rfl rfl rfl rfl rfl rfl)

theorem keeps_trapEnter : Keeps trapEnter := by
  intro s; unfold trapEnter; split
  · exact .raise _
  · exact .ok (Kept.of rfl rfl rfl rfl rfl rfl rfl rfl rfl rfl)

theorem keeps_outEmit : Keeps outEmit := by
  refine .reg (fun s => ?_)
  split <;> exact Kept.of rfl rfl rfl rfl rfl rfl rfl rfl rfl rfl

theorem keeps_mdrFromMem : Keeps mdrFromMem := .read (fun _ _ _ => Kept.of rfl rfl rfl rfl rfl rfl rfl rfl rfl rfl)

theorem keeps_memFromMdr : Keeps memFromMdr := .write (fun _ _ => Kept.of rfl rfl rfl rfl rfl rfl rfl rfl rfl rfl)

theorem Keeps.quiet {f : State → State} (h : ∀ s, (f s).dec = s.dec ∧ (f s).k = s.k ∧ (f s).phase = s.phase ∧
    (f s).waitForInterrupt = s.waitForInterrupt ∧ (f s).msr = s.msr ∧ (f s).mfr = s.mfr ∧ (f s).cc = s.cc ∧
    (f s).ptr = s.ptr ∧ (f s).inbuf = s.inbuf ∧ ((f s).labelRefs, (f s).refused) = (s.labelRefs, s.refused)) : Keeps (regOp f) :=
  .reg fun s => by
    obtain ⟨h1, h2, h3, h4, h5, h6, h7, h8, h9, h10⟩ := h s
    exact Kept.of h1 h2 h3 h4 h5 h6 h7 h8 h9 h10

theorem keeps_eaOps {rest : List Micro} (i : Bool) (h : ∀ op ∈ rest, Keeps op) :
    ∀ op ∈ eaOps i ++ rest, Keeps op := by
  intro op hop
  rcases List.mem_append.1 hop with hop | hop
  · cases i <;>
      simp only [eaOps, if_true, if_false, Bool.false_eq_true, List.mem_cons, List.not_mem_nil, or_false] at hop
    · subst hop; exact Keeps.quiet (fun _ => ⟨rfl, rfl, rfl, rfl, rfl, rfl, rfl, rfl, rfl, rfl⟩)
    · rcases hop with rfl | rfl | rfl | rfl
      · exact Keeps.quiet (fun _ => ⟨rfl, rfl, rfl, rfl, rfl, rfl, rfl, rfl, rfl, rfl⟩)
      · exact Keeps.quiet (fun _ => ⟨rfl, rfl, rfl, rfl, rfl, rfl, rfl, rfl, rfl, rfl⟩)
      · exact keeps_mdrFromMem
      · exact Keeps.quiet (fun _ => ⟨rfl, rfl, rfl, rfl, rfl, rfl, rfl, rfl, rfl, rfl⟩)
  · exact h op hop

/-- Every micro-op of every tail leaves alone what a tail leaves alone. -/
theorem tailOf_keeps (i : Instr) : ∀ op ∈ tailOf i, Keeps op := by
  cases i <;> simp only [tailOf, ldrTail, strTail, ldaTail, ldxTail, stxTail, jzTail, jneTail, jccTail, jmpTail, jsrTail,
    rfsTail, sobTail, jgeTail, amrTail, smrTail, airTail, sirTail, mltTail, dvdTail, trrTail, andTail, orrTail, notTail,
    shiftLatches, srcTail, rrcTail, inTail, outTail, trapTail, hltTail, List.cons_append, List.nil_append]
  all_goals first
    | refine keeps_eaOps _ ?_
    | skip
  all_goals
    simp only [List.forall_mem_cons, List.not_mem_nil, false_imp_iff, implies_true, and_true]
  all_goals
    repeat' apply And.intro
  all_goals first
    | exact keeps_dvdOp
    | exact keeps_inRead
    | exact keeps_trapEnter
    | exact keeps_outEmit
    | exact keeps_mdrFromMem
    | exact keeps_memFromMdr
    | exact Keeps.quiet (fun _ => ⟨rfl, rfl, rfl, rfl, rfl, rfl, rfl, rfl, rfl, rfl⟩)
    | exact .reg kept_add
    | exact .reg kept_sub
    | exact .reg kept_mlt
    | exact .reg kept_trr

/-- A micro-op that is retried runs in the end once, over some memory side. -/
theorem retryHeld_ex (op : Micro) : ∀ n (s : State), ∃ m, retryHeld n op s = op (s.withMs m)
  | 0, s => ⟨s.ms, rfl⟩
  | n + 1, s => by
    simp only [retryHeld]
    cases hop : op s with
    | hold h u =>
      cases h with
      | inputStall => exact ⟨s.ms, hop.symm⟩
      | bufferFull => exact retryHeld_ex op n (s.withMs s.ms.ctrlMove)
      | cacheStall => exact retryHeld_ex op n (s.withMs s.ms.ctrlMove)
    | _ => exact ⟨s.ms, hop.symm⟩

/-- A micro-step is its micro-op once, over some memory side. -/
theorem microTurn_ex (op : Micro) (s : State) : ∃ m, microTurn op s = account (op (s.withMs m)) := by
  obtain ⟨m, h⟩ := retryHeld_ex op s.ms.startTurn.pendingMoves (s.withMs s.ms.startTurn)
  exact ⟨m, by rw [microTurn, h]; rfl⟩

theorem Kept.base {s t : State} {m} (h : Kept (s.withMs m) t) : Kept s t :=
  ⟨h.dec, h.k, h.phase, h.wait, h.msr, h.mfr, h.loaded, h.cc, h.ptr⟩

/-- The place of a micro-op in its tail: inside it, or last. -/
inductive TailPlace where
  | inside
  | last

/-- The micro-step that a tail makes of a micro-op at this place. -/
def TailPlace.wrap : TailPlace → Micro → Micro
  | .inside, op => thenAdvance op
  | .last, op => thenComplete op

/-- What the place adds to the state once the micro-op is taken. -/
def TailPlace.after : TailPlace → State → State
  | .inside, s => s.nextK
  | .last, s => s.completed

/-- What one micro-step of a tail can give. -/
inductive TailTurn (w : TailPlace) (op : Micro) (s : State) : MicroResult → Prop where
  | ok {m t} (hop : op (s.withMs m) = .ok t) (h : Kept s t) : TailTurn w op s (.ok (w.after t).tick)
  | complete {m t} (hop : op (s.withMs m) = .complete t) (h : Kept s t) :
      TailTurn w op s (.complete t.completed.tick)
  | wait {m t} (hop : ∃ u, op (s.withMs m) = .hold .inputStall u)
      (ht : t = { s.withMs m with waitForInterrupt := true }) : TailTurn w op s (.hold .inputStall t)
  | raise (kind m) : TailTurn w op s (.raise kind ((s.withMs m).raiseFault kind).tick)
  | stuck (h) (t) (hs : h ≠ .inputStall) : TailTurn w op s (.hold h t)

theorem tailTurn (w : TailPlace) {op : Micro} (h : Keeps op) (s : State) :
    TailTurn w op s (microTurn (w.wrap op) s) := by
  obtain ⟨m, e⟩ := microTurn_ex (w.wrap op) s
  rw [e]
  have hk := h (s.withMs m)
  have : w.wrap op (s.withMs m) = match op (s.withMs m) with
      | .ok t => .ok (w.after t)
      | .complete t => .complete t.completed
      | .hold h t => .hold h t
      | .raise k t => .raise k t := by
    cases w <;> rfl
  rw [this]
  generalize hy : op (s.withMs m) = y at hk
  cases hk with
  | ok h => exact .ok hy h.base
  | complete h => exact .complete hy h.base
  | wait => exact .wait (m := m) ⟨_, hy⟩ rfl
  | hold h hi => exact .stuck _ _ hi
  | raise k => exact .raise k m

theorem stepsOf_length : ∀ ops, (stepsOf ops).length = ops.length
  | [] => rfl
  | [_] => rfl
  | a :: b :: r => by rw [stepsOf_two, List.length_cons, stepsOf_length (b :: r)]; rfl

/-- The micro-step at a place of a tail. -/
theorem stepsOf_get : ∀ (ops : List Micro) (j : Nat) (h : j < ops.length),
   (stepsOf ops)[j]? = some (if j + 1 = ops.length then thenComplete ops[j] else thenAdvance ops[j])
  | [a], 0, _ => rfl
  | a :: b :: r, 0, _ => by simp
  | a :: b :: r, j+1, h => by
    rw [stepsOf_two, List.getElem?_cons_succ, stepsOf_get (b :: r) j (by simpa using h)]
    simp

/-- No tail has more than 10 micro-steps (41_execution_cycle.md R187). -/
theorem tail_len (i : Instr) : (tailOf i).length ≤ 10 := by
  cases i <;> first | exact of_decide_eq_true rfl | (rename_i b _; cases b <;> exact of_decide_eq_true rfl)

theorem tail_pos (i : Instr) : 0 < (tailOf i).length := by
  cases i <;> first | exact of_decide_eq_true rfl | (rename_i b _; cases b <;> exact of_decide_eq_true rfl)

/-- A micro-op that, where it is taken, sets neither jump_taken nor halted nor PC. -/
def Calm (op : Micro) : Prop := ∀ s t, op s = .ok t → t.jumpTaken = s.jumpTaken ∧ t.halted = s.halted ∧ t.pc = s.pc

theorem Calm.reg {f : State → State}
    (h : ∀ s, (f s).jumpTaken = s.jumpTaken ∧ (f s).halted = s.halted ∧ (f s).pc = s.pc) : Calm (regOp f) := by
  intro s t ht; cases ht; exact h s

theorem calm_mdr : Calm mdrFromMem := by
  intro s t ht; simp only [mdrFromMem, readOp] at ht; split at ht <;> cases ht; exact ⟨rfl, rfl, rfl⟩

theorem calm_mem : Calm memFromMdr := by
  intro s t ht; simp only [memFromMdr, writeOp] at ht; split at ht <;> cases ht; exact ⟨rfl, rfl, rfl⟩

theorem calm_dvd : Calm dvdOp := by
  intro s t ht; simp only [dvdOp] at ht; split at ht <;> cases ht; exact ⟨rfl, rfl, rfl⟩

/-- Only the last micro-op of a tail jumps, halts or writes PC. -/
theorem tail_calm (i : Instr) : ∀ op ∈ (tailOf i).dropLast, Calm op := by
  cases i
  all_goals try (rename_i b _; cases b)
  all_goals simp only [tailOf, ldrTail, strTail, ldaTail, ldxTail, stxTail, jzTail, jneTail, jccTail, jmpTail, jsrTail,
    rfsTail, sobTail, jgeTail, amrTail, smrTail, airTail, sirTail, mltTail, dvdTail, trrTail, andTail, orrTail, notTail,
    shiftLatches, srcTail, rrcTail, inTail, outTail, trapTail, hltTail, List.cons_append, List.nil_append, eaOps,
    if_true, if_false, Bool.false_eq_true, List.dropLast_cons_cons, List.dropLast_singleton]
  all_goals
    simp only [List.forall_mem_cons, List.not_mem_nil, false_imp_iff, implies_true, and_true]
  all_goals
    repeat' apply And.intro
  all_goals first
    | exact calm_mdr
    | exact calm_mem
    | exact calm_dvd
    | exact .reg (fun _ => ⟨rfl, rfl, rfl⟩)

theorem calm_at (i : Instr) {j} (h : j + 1 < (tailOf i).length) :
    Calm ((tailOf i)[j]'(by omega)) := by
  apply tail_calm i
  have : j < (tailOf i).dropLast.length := by rw [List.length_dropLast]; omega
  have e : (tailOf i).dropLast[j] = (tailOf i)[j] := List.getElem_dropLast _
  rw [← e]; exact List.getElem_mem _

/-- A micro-op of a tail that writes no memory. -/
inductive NoStore : Micro → Prop where
  | loc {op : Micro} (h : Local op) : NoStore op
  | read {addr : State → Word} {put : Word → State → State} (haddr : ∀ s m, addr (s.withMs m) = addr s)
      (hput : ∀ v s m, put v (s.withMs m) = (put v s).withMs m) : NoStore (readOp addr put)

/-- A micro-step of a tail that writes no memory leaves what the program sees alone. -/
theorem NoStore.advance_view {op : Micro} (h : NoStore op) {s t : State} (hs : s.ms.Inv)
    (ht : microTurn (thenAdvance op) s = .ok t) (a : Nat) : t.ms.view a = s.ms.view a := by
  cases h with
  | loc h =>
    rw [microTurn, retryHeld_local h.advance, h.advance.comm] at ht
    cases hop : thenAdvance op s with
    | ok u =>
      rw [hop] at ht
      simp only [MicroResult.map, account] at ht
      cases ht
      exact (MemSys.startTurn_shows hs).2 a
    | _ => rw [hop] at ht; cases ht
  | @read addr put ha hp =>
    rw [thenAdvance_readOp] at ht
    by_cases hlt : (addr s).toNat < Config.memWords
    · obtain ⟨m, hm, he⟩ := microTurn_readOp (put := fun v s => (put v s).nextK) hs (ha s) hlt
      rw [he] at ht
      have et : t = ((put (s.ms.view (addr s).toNat) (s.withMs m)).nextK).tick := by injection ht with h; exact h.symm
      rw [hp] at et
      rw [et]; exact hm.2 a
    · rw [microTurn_readOp_raise (ha s) hlt] at ht; cases ht

/-- Only the last micro-op of a tail writes memory, but for TRAP's (45_io_trap_halt.md R282). -/
theorem tail_noStore (i : Instr) : (∃ c, i = .trap c) ∨ ∀ op ∈ (tailOf i).dropLast, NoStore op := by
  cases i
  case trap c => exact .inl ⟨c, rfl⟩
  all_goals right
  all_goals try (rename_i b _; cases b)
  all_goals simp only [tailOf, ldrTail, strTail, ldaTail, ldxTail, stxTail, jzTail, jneTail, jccTail, jmpTail, jsrTail,
    rfsTail, sobTail, jgeTail, amrTail, smrTail, airTail, sirTail, mltTail, dvdTail, trrTail, andTail, orrTail, notTail,
    shiftLatches, srcTail, rrcTail, inTail, outTail, hltTail, List.cons_append, List.nil_append, eaOps,
    if_true, if_false, Bool.false_eq_true, List.dropLast_cons_cons, List.dropLast_singleton]
  all_goals
    simp only [List.forall_mem_cons, List.not_mem_nil, false_imp_iff, implies_true, and_true]
  all_goals
    repeat' apply And.intro
  all_goals first
    | exact .read (fun _ _ => rfl) (fun _ _ _ => rfl)
    | exact .loc (.regOp fun _ _ => rfl)
    | exact .loc local_dvdOp

/-- A step inside a tail leaves mem[8] as the program sees it, where the ADDR field is 8 (41_execution_cycle.md R186). -/
theorem inside_tramp (i : Instr) {j} (h : j + 1 < (tailOf i).length) {s t : State} (hs : s.ms.Inv)
    (hd : s.dec = fieldsOf i) (ha : s.dec.addr.toNat = Config.trampAddr)
    (ht : microTurn (thenAdvance ((tailOf i)[j]'(by omega))) s = .ok t) (a : Nat) : t.ms.view a = s.ms.view a := by
  rcases tail_noStore i with ⟨c, rfl⟩ | hn
  · rw [hd] at ha; exact absurd ha (by decide : ¬ (0#5).toNat = 8)
  · have hl : j < (tailOf i).dropLast.length := by rw [List.length_dropLast]; omega
    have e : (tailOf i).dropLast[j] = (tailOf i)[j] := List.getElem_dropLast _
    exact (hn _ (e ▸ List.getElem_mem hl)).advance_view hs ht a

/-- A micro-op that never waits for input. -/
def NoWait (op : Micro) : Prop := ∀ s t, op s ≠ .hold .inputStall t

theorem NoWait.reg (f : State → State) : NoWait (regOp f) := fun s t h => by cases h

theorem nowait_mdr : NoWait mdrFromMem := by
  intro s t ht; simp only [mdrFromMem, readOp] at ht
  cases hr : s.ms.memRead s.mar <;> rw [hr] at ht <;> cases ht
  exact memRead_ne hr

theorem nowait_mem : NoWait memFromMdr := by
  intro s t ht; simp only [memFromMdr, writeOp] at ht
  cases hr : s.ms.memWrite s.mar s.mdr <;> rw [hr] at ht <;> cases ht
  exact memWrite_ne hr

theorem nowait_dvd : NoWait dvdOp := by
  intro s t ht; simp only [dvdOp] at ht; split at ht <;> cases ht

theorem nowait_trap : NoWait trapEnter := by
  intro s t ht; simp only [trapEnter] at ht; split at ht <;> cases ht

/-- Only IN waits (45_io_trap_halt.md R280). -/
theorem tail_nowait (i : Instr) : (∃ r d, i = .inp r d) ∨ ∀ op ∈ tailOf i, NoWait op := by
  cases i
  case inp r d => exact .inl ⟨r, d, rfl⟩
  all_goals right
  all_goals try (rename_i b _; cases b)
  all_goals simp only [tailOf, ldrTail, strTail, ldaTail, ldxTail, stxTail, jzTail, jneTail, jccTail, jmpTail, jsrTail,
    rfsTail, sobTail, jgeTail, amrTail, smrTail, airTail, sirTail, mltTail, dvdTail, trrTail, andTail, orrTail, notTail,
    shiftLatches, srcTail, rrcTail, outTail, trapTail, hltTail, List.cons_append, List.nil_append, eaOps, if_true,
    if_false, Bool.false_eq_true]
  all_goals
    simp only [List.forall_mem_cons, List.not_mem_nil, false_imp_iff, implies_true, and_true]
  all_goals
    repeat' apply And.intro
  all_goals first
    | exact nowait_mdr
    | exact nowait_mem
    | exact nowait_dvd
    | exact nowait_trap
    | exact .reg _

/-- The step that waits is the first of the tail of an IN, k = 4 (41_execution_cycle.md R195). -/
theorem wait_first {i : Instr} {j : Nat} (h : j < (tailOf i).length) {s : State}
    (hw : ∃ m, (tailOf i)[j] s = .hold .inputStall m) : j = 0 ∧ ∃ r d, i = .inp r d := by
  rcases tail_nowait i with ⟨r, d, rfl⟩ | h'
  · exact ⟨by simpa [tailOf, inTail] using h, r, d, rfl⟩
  · obtain ⟨m, hm⟩ := hw
    exact absurd hm (h' _ (List.getElem_mem h) _ _)

end Sys2Proof.Machine
end

