-- ==== Sys2Proof/Laws/Steps.lean ====
section
/-! SUPPORT. An instruction and its micro-steps: from each step of fetch, decode, a tail and fault entry on, what a step in a
mode that runs whole instructions gives is what micro-steps give one by one (60_exceptions.md R317). -/

namespace Sys2Proof.Machine

/-- What `microSteps` does after one micro-step has given a state. -/
def afterMicro (n : Nat) (t : State) : Out :=
  if t.betweenInstrs || t.waitForInterrupt || t.refused then .next t else microSteps n t

theorem afterMicro_stop (n : Nat) {t : State} (h : t.betweenInstrs = true ∨ t.waitForInterrupt = true ∨ t.refused = true) :
    afterMicro n t = .next t := by
  unfold afterMicro; rw [if_pos (by simpa [or_assoc] using h)]

theorem afterMicro_go (n : Nat) {t : State} (h : t.betweenInstrs = false) (h' : t.waitForInterrupt = false)
    (h'' : t.refused = false) : afterMicro n t = microSteps n t := by
  unfold afterMicro; rw [if_neg (by simp [h, h', h''])]

theorem microSteps_succ (n s) : microSteps (n+1) s = match engineMicro s with
    | .next t => afterMicro n t
    | .fault f => .fault f
    | .refused r => .refused r := rfl

theorem between_completed {s t : State} (h : Kept s t) (hp : s.phase = .run) : t.completed.tick.betweenInstrs = true := by
  have : t.completed.tick.phase = .run := h.phase.trans hp
  have h2 : t.completed.tick.k = 0 := rfl
  unfold State.betweenInstrs; rw [this, h2]; rfl

/-- No micro-step of the machine is held but for input, when the memory side is sound (20_memory.md R76). -/
theorem microTurn_not_stuck {op : Micro} (h : Plain op) {s : State} (hs : s.ms.Inv) :
    ∀ hd t, microTurn op s = .hold hd t → hd = .inputStall := by
  intro hd t he
  have := h.sim (Sim.refl hs)
  rw [he] at this
  cases this; rfl

/-- A micro-step keeps the memory side sound. -/
theorem microTurn_inv {op : Micro} (h : Plain op) {s : State} (hs : s.ms.Inv) : match microTurn op s with
  | .ok t => t.ms.Inv | .complete t => t.ms.Inv | .hold _ t => t.ms.Inv | .raise _ t => t.ms.Inv := by
  have := h.sim (Sim.refl hs)
  revert this
  generalize microTurn op s = y
  intro this
  cases this with
  | ok h => exact h.left
  | complete h => exact h.left
  | wait h => exact h.left
  | raise _ h => exact h.left

/-- One micro-step of fault entry: the next one, or the machine runs on (60_exceptions.md R301). -/
theorem microTurn_faultEntry (s : State) (hs : s.ms.Inv) (j : Fin 3) :
    ∃ op, faultEntryOps.drop j.val = op :: faultEntryOps.drop (j.val + 1) ∧ faultEntryOps[j.val]? = some op ∧ ∃ t,
      microTurn op s = .ok t ∧ (t.waitForInterrupt = s.waitForInterrupt ∧ t.refused = s.refused) ∧ t.ms.Inv ∧ t.inbuf = s.inbuf ∧
      t.ptr = s.ptr ∧ t.cc = s.cc ∧ t.msr = s.msr ∧ t.mfr = s.mfr ∧ t.halted = s.halted ∧
      (if h : j.val + 1 < 3 then t.phase = .faultEntry ⟨j.val + 1, h⟩ ∧ t.k = s.k ∧ t.jumpTaken = s.jumpTaken
       else t.phase = .run ∧ t.k = 0 ∧ t.jumpTaken = false) := by
  have : j.val = 0 ∨ j.val = 1 ∨ j.val = 2 := by omega
  rcases this with h | h | h
  · refine ⟨_, by rw [h]; rfl, by rw [h]; rfl, ?_⟩
    obtain ⟨m, hm, he⟩ := microTurn_writeOp (addr := fun _ => BitVec.ofNat 18 Config.faultSavePc)
      (value := fun s => pcToWord s.pc) (after := .atFaultEntry 1) hs (fun _ => rfl) (fun _ => rfl) (by decide)
    refine ⟨_, he, ⟨rfl, rfl⟩, hm.1, rfl, rfl, rfl, rfl, rfl, rfl, ?_⟩
    rw [dif_pos (by omega)]
    exact ⟨by simp only [h]; rfl, rfl, rfl⟩
  · refine ⟨_, by rw [h]; rfl, by rw [h]; rfl, ?_⟩
    obtain ⟨m, hm, he⟩ := microTurn_writeOp (addr := fun _ => BitVec.ofNat 18 Config.faultSaveMsr)
      (value := fun s => pcToWord s.pc) (after := .atFaultEntry 2) hs (fun _ => rfl) (fun _ => rfl) (by decide)
    refine ⟨_, he, ⟨rfl, rfl⟩, hm.1, rfl, rfl, rfl, rfl, rfl, rfl, ?_⟩
    rw [dif_pos (by omega)]
    exact ⟨by simp only [h]; rfl, rfl, rfl⟩
  · refine ⟨_, by rw [h]; rfl, by rw [h]; rfl, ?_⟩
    obtain ⟨m, hm, he⟩ := microTurn_readOp (addr := fun _ => BitVec.ofNat 18 Config.faultVectorPtr)
      (put := .vectored) hs (fun _ => rfl) (by decide)
    refine ⟨_, he, ⟨rfl, rfl⟩, hm.1, rfl, rfl, rfl, rfl, rfl, rfl, ?_⟩
    rw [dif_neg (by omega)]
    exact ⟨rfl, rfl, rfl⟩

theorem engineMicro_of {s op} (h : microOpAt s = .ok op) : engineMicro s = runSeq .next .next [op] s := by
  unfold engineMicro; rw [h]

/-- Fault entry is its micro-steps. -/
theorem faultEntry_microSteps (d : Nat) : ∀ (j : Fin 3) (s : State) (n : Nat), j.val + d = 2 → s.ms.Inv →
    s.waitForInterrupt = false → s.refused = false → s.phase = .faultEntry j → d < n → runFaultEntry j.val s = microSteps n s := by
  induction d with
  | zero =>
    intro j s n hd hs hw hr hp hn
    obtain ⟨n, rfl⟩ : ∃ k, n = k + 1 := ⟨n - 1, by omega⟩
    obtain ⟨op, h1, h2, t, h3, h4, h5, -, -, -, -, -, -, h6⟩ := microTurn_faultEntry s hs j
    have hm : microOpAt s = .ok op := by unfold microOpAt; rw [hp]; simp only [h2]
    rw [dif_neg (by omega)] at h6
    rw [microSteps_succ, engineMicro_of hm, runFaultEntry, h1]
    have : faultEntryOps.drop (j.val+1) = [] := by have : j.val = 2 := by omega
                                                   rw [this]; rfl
    rw [this]
    simp only [runSeq, h3]
    exact (afterMicro_stop n (.inl (by unfold State.betweenInstrs; rw [h6.1, h6.2.1]; rfl))).symm
  | succ d ih =>
    intro j s n hd hs hw hr hp hn
    obtain ⟨n, rfl⟩ : ∃ k, n = k + 1 := ⟨n - 1, by omega⟩
    obtain ⟨op, h1, h2, t, h3, h4, h5, -, -, -, -, -, -, h6⟩ := microTurn_faultEntry s hs j
    have hm : microOpAt s = .ok op := by unfold microOpAt; rw [hp]; simp only [h2]
    rw [dif_pos (by omega)] at h6
    rw [microSteps_succ, engineMicro_of hm, runFaultEntry, h1]
    simp only [runSeq, h3]
    refine Eq.trans ?_ (afterMicro_go n (by unfold State.betweenInstrs; rw [h6.1]; rfl) (h4.1.trans hw)
      (h4.2.trans hr)).symm
    exact ih ⟨j.val+1, by omega⟩ t n (by simp; omega) h5 (h4.1.trans hw) (h4.2.trans hr) h6.1 (by omega)

theorem raise_microSteps {s : State} {k m} (hs : m.Inv) (hw : s.waitForInterrupt = false) (hr : s.refused = false) (n : Nat) (hn : 2 < n) :
    runFaultEntry 0 ((s.withMs m).raiseFault k).tick = microSteps n ((s.withMs m).raiseFault k).tick :=
  faultEntry_microSteps 2 0 _ n rfl hs hw hr rfl hn

/-- A machine fault and its entry are their micro-steps. -/
theorem raise_afterMicro {s : State} {k m} (hs : m.Inv) (hw : s.waitForInterrupt = false) (hr : s.refused = false) (n : Nat) (hn : 2 < n) :
    runFaultEntry 0 ((s.withMs m).raiseFault k).tick = afterMicro n ((s.withMs m).raiseFault k).tick := by
  have h1 : ((s.withMs m).raiseFault k).tick.phase = .faultEntry 0 := rfl
  have h2 : ((s.withMs m).raiseFault k).tick.waitForInterrupt = s.waitForInterrupt := rfl
  have h3 : ((s.withMs m).raiseFault k).tick.refused = s.refused := rfl
  rw [raise_microSteps hs hw hr n hn]
  generalize ((s.withMs m).raiseFault k).tick = t at *
  exact (afterMicro_go n (by unfold State.betweenInstrs; rw [h1]; rfl) (h2.trans hw) (h3.trans hr)).symm

theorem between_of_k {t : State} (h : t.k ≠ 0) : t.betweenInstrs = false := by
  unfold State.betweenInstrs; simp [h]

/-- The micro-steps to come at k = 4 + j. -/
theorem tailAt_of {s : State} {i} (h : instrOfFields s.dec = .ok i) {j} (hk : s.k = 4 + j) (hj : j < (tailOf i).length) :
    ∃ op ops, (stepsOf (tailOf i)).drop j = op :: ops ∧ tailAt s = .ok (op :: ops) ∧
      (stepsOf (tailOf i))[j]? = some op := by
  have hl : j < (stepsOf (tailOf i)).length := by rw [stepsOf_length]; exact hj
  refine ⟨(stepsOf (tailOf i))[j], (stepsOf (tailOf i)).drop (j+1), List.drop_eq_getElem_cons hl, ?_,
    List.getElem?_eq_getElem hl⟩
  unfold tailAt; rw [h]; simp only [hk, Nat.add_sub_cancel_left]
  rw [List.drop_eq_getElem_cons hl]

theorem microOpAt_tail {s : State} (hp : s.phase = .run) (hk : 4 ≤ s.k) {op ops} (h : tailAt s = .ok (op :: ops)) :
    microOpAt s = .ok op := by
  unfold microOpAt; rw [hp]
  have : fetchOps[s.k]? = none := List.getElem?_eq_none (by simp [fetchOps]; omega)
  simp only [this, if_neg (show ¬ s.k = 3 by omega), h]; rfl

/-- The rest of a tail, with the fault entry it may raise, is its micro-steps. -/
theorem tail_microSteps (d : Nat) : ∀ (i : Instr) (j : Nat) (s : State) (n : Nat), j + d + 1 = (tailOf i).length → s.ms.Inv →
   s.waitForInterrupt = false → s.refused = false → s.phase = .run → s.k = 4 + j → instrOfFields s.dec = .ok i → d + 4 < n →
   runSeq .next (runFaultEntry 0) ((stepsOf (tailOf i)).drop j) s = microSteps n s := by
  induction d with
  | zero =>
    intro i j s n hd hs hw hr hp hk hi hn
    obtain ⟨n, rfl⟩ : ∃ k, n = k + 1 := ⟨n - 1, by omega⟩
    obtain ⟨op, ops, h1, h2, h3⟩ := tailAt_of hi hk (by omega)
    have hm := microOpAt_tail hp (by omega) h2
    have hplain := microOpAt_plain hm
    rw [stepsOf_get _ _ (by omega), if_pos (by omega)] at h3
    cases h3
    have hops : ops = [] := by
      have := congrArg List.length h1
      rw [List.length_drop, stepsOf_length] at this
      simp only [List.length_cons] at this
      exact List.length_eq_zero_iff.1 (by omega)
    rw [microSteps_succ, engineMicro_of hm, h1, hops]
    have ht := tailTurn .last (tailOf_keeps i _ (List.getElem_mem (by omega : j < (tailOf i).length))) s
    have hns := microTurn_not_stuck hplain hs
    have hinv := microTurn_inv hplain hs
    simp only [TailPlace.wrap] at ht
    simp only [runSeq]
    revert hns hinv
    generalize microTurn (thenComplete (tailOf i)[j]) s = y at ht
    intro hns hinv
    cases ht with
    | ok hop h => exact (afterMicro_stop n (.inl (between_completed h hp))).symm
    | complete hop h => exact (afterMicro_stop n (.inl (between_completed h hp))).symm
    | wait _ ht => exact (afterMicro_stop n (.inr (.inl (by rw [ht])))).symm
    | raise k m =>
      exact raise_afterMicro hinv hw hr n (by omega)
    | stuck h t hne => exact absurd (hns _ _ rfl) hne
  | succ d ih =>
    intro i j s n hd hs hw hr hp hk hi hn
    obtain ⟨n, rfl⟩ : ∃ k, n = k + 1 := ⟨n - 1, by omega⟩
    obtain ⟨op, ops, h1, h2, h3⟩ := tailAt_of hi hk (by omega)
    have hm := microOpAt_tail hp (by omega) h2
    have hplain := microOpAt_plain hm
    rw [stepsOf_get _ _ (by omega), if_neg (by omega)] at h3
    cases h3
    have hops : ops = (stepsOf (tailOf i)).drop (j+1) := by
      rw [← List.tail_drop, h1]; rfl
    rw [microSteps_succ, engineMicro_of hm, h1, hops]
    have ht := tailTurn .inside (tailOf_keeps i _ (List.getElem_mem (by omega : j < (tailOf i).length))) s
    have hns := microTurn_not_stuck hplain hs
    have hinv := microTurn_inv hplain hs
    simp only [TailPlace.wrap] at ht
    simp only [runSeq]
    revert hns hinv
    generalize microTurn (thenAdvance (tailOf i)[j]) s = y at ht
    intro hns hinv
    cases ht with
    | @ok m t hop h =>
      simp only [TailPlace.after] at hinv ⊢
      have hk' : t.nextK.tick.k = 4 + (j+1) := by show t.k + 1 = _; rw [h.k, hk]; omega
      refine Eq.trans ?_ (afterMicro_go n (t := t.nextK.tick) (between_of_k (by rw [hk']; omega)) (h.wait.trans hw)
        (h.loaded.2.trans hr)).symm
      exact ih i (j+1) _ n (by omega) hinv (h.wait.trans hw) (h.loaded.2.trans hr) (h.phase.trans hp) hk'
        (by rw [← hi, ← h.dec]; rfl) (by omega)
    | complete hop h => exact (afterMicro_stop n (.inl (between_completed h hp))).symm
    | wait _ ht => exact (afterMicro_stop n (.inr (.inl (by rw [ht])))).symm
    | raise k m =>
      exact raise_afterMicro hinv hw hr n (by omega)
    | stuck h t hne => exact absurd (hns _ _ rfl) hne

/-- A decoded instruction is well-formed. -/
theorem decode_wf {w i} (h : decode w = .ok i) : reservedError i = none ∧ i.wellFormed = true := by
  unfold decode at h
  split at h
  · cases h
  · unfold checkReserved at h
    split at h
    · next hn => cases h; refine ⟨hn, ?_⟩
                 generalize instrOf _ _ = i at hn
                 cases i <;> simp_all [reservedError, Instr.wellFormed]
    · cases h

theorem resumeTail_microSteps {s : State} (hs : s.ms.Inv) (hp : s.phase = .run) (hw : s.waitForInterrupt = false) (hr : s.refused = false)
    (hk : 4 ≤ s.k) (n : Nat) (hn : 14 < n) : resumeTail s = microSteps n s := by
  unfold resumeTail
  cases h : tailAt s with
  | error r =>
    have : microOpAt s = .error r := by
      unfold microOpAt; rw [hp]
      have : fetchOps[s.k]? = none := List.getElem?_eq_none (by simp [fetchOps]; omega)
      simp only [this, if_neg (show ¬ s.k = 3 by omega), h]
    obtain ⟨n, rfl⟩ : ∃ k, n = k + 1 := ⟨n - 1, by omega⟩
    rw [microSteps_succ]; unfold engineMicro; rw [this]
    exact (afterMicro_stop n (.inr (.inr rfl))).symm
  | ok ops =>
    show runSeq _ _ ops s = _
    unfold tailAt at h
    split at h
    · cases h
    next i hi =>
    split at h
    · cases h
    next op ops' hd =>
    cases h
    have hlt : s.k - 4 < (tailOf i).length := by
      by_contra hc
      rw [List.drop_eq_nil_of_le (by rw [stepsOf_length]; omega)] at hd; cases hd
    have := tail_len i
    rw [← hd]
    exact tail_microSteps ((tailOf i).length - (s.k - 4) - 1) i (s.k-4) s n (by omega) hs hw hr hp (by omega) hi (by omega)

/-- The decode step is always taken: it neither holds nor raises (41_execution_cycle.md R185, R186). -/
theorem microTurn_decodeStep_ok {s : State} (hs : s.ms.Inv) (f : DecodeFields) :
    ∃ t, microTurn (decodeStep f) s = .ok t := by
  rw [microTurn_decodeStep]
  split
  · split
    · next v _ =>
      obtain ⟨m, -, e⟩ := microTurn_writeOp (addr := fun _ => BitVec.ofNat 18 Config.trampAddr)
        (value := fun _ => pcToWord v) (after := .decoded f) hs (fun _ => rfl) (fun _ => rfl) (by decide)
      exact ⟨_, e⟩
    · exact ⟨_, microTurn_regOp _ _⟩
  · exact ⟨_, microTurn_regOp _ _⟩

/-- The micro-op at k = 3 (41_execution_cycle.md R185, R194). -/
theorem microOpAt_decode {s : State} (hp : s.phase = .run) (hk : s.k = 3) : microOpAt s = match decode s.ir with
    | .error e => .error (decodeRefusal e)
    | .ok i => .ok (decodeStep (fieldsOf i)) := by
  have hf : fetchOps[s.k]? = none := by rw [hk]; rfl
  unfold microOpAt
  rw [hp]
  simp only [hf, if_pos hk]
  all_goals (cases decode s.ir <;> rfl)

/-- Decode and the instruction are their micro-steps. -/
theorem decodeAndExec_microSteps {s : State} (hs : s.ms.Inv) (hp : s.phase = .run) (hw : s.waitForInterrupt = false) (hr : s.refused = false)
    (hk : s.k = 3) (n : Nat) (hn : 15 < n) : decodeAndExec s = microSteps n s := by
  obtain ⟨n, rfl⟩ : ∃ k, n = k + 1 := ⟨n - 1, by omega⟩
  rw [microSteps_succ]
  unfold decodeAndExec engineMicro
  have hm := microOpAt_decode hp hk
  rw [hm]
  cases hd : decode s.ir with
  | error e => exact (afterMicro_stop n (.inr (.inr rfl))).symm
  | ok i =>
    obtain ⟨h1, h2⟩ := decode_wf hd
    show exec i s = _
    rw [exec_eq]; unfold runInstr; rw [h1]
    obtain ⟨m, hm, he⟩ := runSeq_decodeStep (fin := .next) (onFault := .next) (ops := []) hs (fieldsOf i)
    show runSeq _ _ _ s = (match runSeq .next .next [decodeStep (fieldsOf i)] s with
      | .next t => afterMicro n t
      | .fault f => .fault f
      | .refused r => .refused r)
    simp only [runSeq] at he ⊢
    cases ht : microTurn (decodeStep (fieldsOf i)) s with
    | ok t =>
      rw [ht] at he
      have et : t = { s with dec := fieldsOf i, k := 4, cycleCount := s.cycleCount + 1, ms := m } := by injection he
      show runSeq _ _ (stepsOf (tailOf i)) t = afterMicro n t
      have hk : t.k = 4 := by rw [et]
      have hw' : t.waitForInterrupt = false := by rw [et]; exact hw
      have hr' : t.refused = false := by rw [et]; exact hr
      rw [afterMicro_go n (between_of_k (by rw [hk]; omega)) hw' hr']
      have := tail_len i
      have := tail_pos i
      exact tail_microSteps ((tailOf i).length - 1) i 0 t n (by omega) (by rw [et]; exact hm.1) hw' hr'
        (by rw [et]; exact hp) hk (by rw [et]; exact instrOfFields_fieldsOf h2) (by omega)
    | complete u => obtain ⟨v, hv⟩ := microTurn_decodeStep_ok hs (fieldsOf i); rw [hv] at ht; cases ht
    | hold h u => obtain ⟨v, hv⟩ := microTurn_decodeStep_ok hs (fieldsOf i); rw [hv] at ht; cases ht
    | raise k u => obtain ⟨v, hv⟩ := microTurn_decodeStep_ok hs (fieldsOf i); rw [hv] at ht; cases ht

theorem microOp_fetch {s : State} (hp : s.phase = .run) {j op} (hk : s.k = j) (hf : fetchOps[j]? = some op) :
    microOpAt s = .ok op := by
  unfold microOpAt; rw [hp]; simp only [hk, hf]

theorem fetch2_microSteps {s : State} (hs : s.ms.Inv) (hp : s.phase = .run) (hw : s.waitForInterrupt = false) (hr : s.refused = false)
    (hk : s.k = 2) (n : Nat) (hn : 16 < n) :
    runSeq decodeAndExec (runFaultEntry 0) (fetchOps.drop 2) s = microSteps n s := by
  obtain ⟨n, rfl⟩ : ∃ k, n = k + 1 := ⟨n - 1, by omega⟩
  rw [microSteps_succ, engineMicro_of (microOp_fetch hp hk rfl)]
  show runSeq _ _ (regOp _ :: []) s = _
  rw [runSeq_regOp, runSeq_regOp, runSeq_nil, runSeq_nil]
  have key : ∀ t : State, t.ms.Inv → t.phase = .run → t.waitForInterrupt = false → t.refused = false → t.k = 3 →
      decodeAndExec t = afterMicro n t := fun t h1 h2 h3 h4 h5 =>
    (decodeAndExec_microSteps h1 h2 h3 h4 h5 n (by omega)).trans (afterMicro_go n (between_of_k (by omega)) h3 h4).symm
  exact key _ (MemSys.startTurn_shows hs).1 hp hw hr rfl

theorem fetch1_microSteps {s : State} (hs : s.ms.Inv) (hp : s.phase = .run) (hw : s.waitForInterrupt = false) (hr : s.refused = false)
    (hk : s.k = 1) (n : Nat) (hn : 17 < n) :
    runSeq decodeAndExec (runFaultEntry 0) (fetchOps.drop 1) s = microSteps n s := by
  obtain ⟨n, rfl⟩ : ∃ k, n = k + 1 := ⟨n - 1, by omega⟩
  rw [microSteps_succ, engineMicro_of (microOp_fetch hp hk rfl)]
  show runSeq _ _ (readOp (fun s => s.mar) (fun v s => { s with mdr := v, k := 2 }) :: fetchOps.drop 2) s = _
  by_cases hlt : s.mar.toNat < Config.memWords
  · obtain ⟨m, hm, he⟩ := microTurn_readOp (addr := fun s => s.mar) (put := fun v s => { s with mdr := v, k := 2 }) hs
      (fun _ => rfl) hlt
    rw [runSeq, he, runSeq, he]
    have key : ∀ t : State, t.ms.Inv → t.phase = .run → t.waitForInterrupt = false → t.refused = false → t.k = 2 →
        runSeq decodeAndExec (runFaultEntry 0) (fetchOps.drop 2) t = afterMicro n t := fun t h1 h2 h3 h4 h5 =>
      (fetch2_microSteps h1 h2 h3 h4 h5 n (by omega)).trans (afterMicro_go n (between_of_k (by omega)) h3 h4).symm
    exact key _ hm.1 hp hw hr rfl
  · have he := microTurn_readOp_raise (s := s) (addr := fun s => s.mar) (put := fun v s => { s with mdr := v, k := 2 })
      (fun _ => rfl) hlt
    rw [runSeq, he, runSeq, he]
    exact raise_afterMicro (MemSys.startTurn_shows hs).1 hw hr n (by omega)

theorem fetch0_microSteps {s : State} (hs : s.ms.Inv) (hp : s.phase = .run) (hw : s.waitForInterrupt = false) (hr : s.refused = false)
    (hk : s.k = 0) (n : Nat) (hn : 18 < n) :
    runSeq decodeAndExec (runFaultEntry 0) (fetchOps.drop 0) s = microSteps n s := by
  obtain ⟨n, rfl⟩ : ∃ k, n = k + 1 := ⟨n - 1, by omega⟩
  rw [microSteps_succ, engineMicro_of (microOp_fetch hp hk rfl)]
  show runSeq _ _ (regOp _ :: fetchOps.drop 1) s = _
  rw [runSeq_regOp, runSeq_regOp, runSeq_nil]
  have key : ∀ t : State, t.ms.Inv → t.phase = .run → t.waitForInterrupt = false → t.refused = false → t.k = 1 →
      runSeq decodeAndExec (runFaultEntry 0) (fetchOps.drop 1) t = afterMicro n t := fun t h1 h2 h3 h4 h5 =>
    (fetch1_microSteps h1 h2 h3 h4 h5 n (by omega)).trans (afterMicro_go n (between_of_k (by omega)) h3 h4).symm
  exact key _ (MemSys.startTurn_shows hs).1 hp hw hr rfl

end Sys2Proof.Machine
end

