-- ==== Sys2Proof/Laws/Invariant.lean ====
section
/-! SUPPORT. The invariant of the state through one micro-step of the engine, by what the micro-step did. -/

namespace Sys2Proof.Machine

variable {s t u : State} {i : Instr}

/-- A completed instruction: the step counter is 0 and no jump is pending (41_execution_cycle.md R190). -/
theorem State.CoreInv.completed (h : s.CoreInv) (hw : s.waitForInterrupt = false) (hp : s.phase = .run) (k : Kept s u)
    (hm : u.ms.Inv) : u.completed.tick.CoreInv :=
  ⟨hm, k.cc h.ccOne, k.msr.trans h.msrZero, k.mfr.trans h.mfrZero, rfl, k.ptr h.ptrInside,
    fun hc => absurd (k.wait.symm.trans hc) (by rw [hw]; decide), fun _ => ⟨k.phase.trans hp, rfl⟩,
    fun _ hk => absurd hk (by show ¬ 4 ≤ 0; omega), fun _ hk => absurd hk (by show ¬ 4 ≤ 0; omega)⟩

/-- A micro-step inside a tail (41_execution_cycle.md R187). -/
theorem State.CoreInv.advanced (h : s.CoreInv) (hh : s.halted = false) (hw : s.waitForInterrupt = false) (k : Kept s u)
    (hc : u.jumpTaken = s.jumpTaken ∧ u.halted = s.halted ∧ u.pc = s.pc) (hp : s.phase = .run)
    (hi : i.wellFormed = true ∧ s.dec = fieldsOf i) (hk4 : 4 ≤ s.k) (hlt : s.k - 4 + 1 < (tailOf i).length)
    (hv : s.dec.addr.toNat = Config.trampAddr → ∀ a, u.ms.view a = s.ms.view a) (hm : u.ms.Inv) : u.nextK.tick.CoreInv := by
  have hk : u.nextK.tick.k = s.k + 1 := congrArg (· + 1) k.k
  refine ⟨hm, k.cc h.ccOne, k.msr.trans h.msrZero, k.mfr.trans h.mfrZero, hc.1.trans h.noJump, k.ptr h.ptrInside,
    fun hc' => absurd (k.wait.symm.trans hc') (by rw [hw]; decide), fun hc' => ?_, fun _ _ => ⟨i, hi.1, ?_, ?_⟩,
    fun _ _ ha v hl => ?_⟩
  · exact absurd (hc.2.1.symm.trans hc') (by rw [hh]; decide)
  · exact k.dec.trans hi.2
  · rw [hk]; omega
  · have ha' : s.dec.addr.toNat = Config.trampAddr := by rw [← k.dec]; exact ha
    have hl' : lookupRef s.labelRefs s.pc = some v := by rw [← k.loaded.1, ← hc.2.2]; exact hl
    exact (hv ha' _).trans (h.trampoline hp hk4 ha' v hl')

/-- A machine fault raised (60_exceptions.md R301). -/
theorem State.CoreInv.raised (h : s.CoreInv) (hh : s.halted = false) (hw : s.waitForInterrupt = false) (kind : FaultKind)
    {m : MemSys} (hm : m.Inv) : State.CoreInv ((s.withMs m).raiseFault kind).tick :=
  ⟨hm, h.ccOne, h.msrZero, h.mfrZero, h.noJump, h.ptrInside,
    fun hc => absurd (show s.waitForInterrupt = true from hc) (by rw [hw]; decide),
    fun hc => absurd (show s.halted = true from hc) (by rw [hh]; decide), (fun hc => by cases hc),
    fun hc => by cases hc⟩

/-- An IN that waits (45_io_trap_halt.md R280). -/
theorem State.CoreInv.waiting (h : s.CoreInv) (hh : s.halted = false) (hp : s.phase = .run) (hk : s.k = 4)
    (ha : s.dec.addr = 0) {m : MemSys} (hm : m.Inv) : State.CoreInv { s.withMs m with waitForInterrupt := true } :=
  ⟨hm, h.ccOne, h.msrZero, h.mfrZero, h.noJump, h.ptrInside, fun _ => ⟨hp, hk⟩,
    fun hc => absurd (show s.halted = true from hc) (by rw [hh]; decide), fun hp' hk' => h.inTail hp' hk',
    fun _ _ ha' => absurd (show s.dec.addr.toNat = 8 from ha') (by rw [ha]; decide)⟩

/-- A step of fetch (41_execution_cycle.md R182 to R184). -/
theorem State.CoreInv.fetched (h : s.CoreInv) (hh : s.halted = false) (hw : s.waitForInterrupt = false) (hm : u.ms.Inv)
    (hcc : u.cc = s.cc) (hmsr : u.msr = s.msr) (hmfr : u.mfr = s.mfr) (hj : u.jumpTaken = s.jumpTaken)
    (hin : u.inbuf = s.inbuf) (hptr : u.ptr = s.ptr) (hwait : u.waitForInterrupt = s.waitForInterrupt)
    (hhalt : u.halted = s.halted) (hk : u.k < 4) : u.CoreInv :=
  ⟨hm, by rw [hcc]; exact h.ccOne, hmsr.trans h.msrZero, hmfr.trans h.mfrZero, hj.trans h.noJump,
    by rw [hin, hptr]; exact h.ptrInside, fun hc => absurd (hwait.symm.trans hc) (by rw [hw]; decide),
    fun hc => absurd (hhalt.symm.trans hc) (by rw [hh]; decide), fun _ hk' => absurd hk' (by omega),
    fun _ hk' => absurd hk' (by omega)⟩

/-- A micro-step of fault entry keeps the invariant (60_exceptions.md R301). -/
theorem State.CoreInv.faultEntry (h : s.CoreInv) (hh : s.halted = false) (hw : s.waitForInterrupt = false) {j : Fin 3}
    (hp : s.phase = .faultEntry j) (he : engineMicro s = .next t) : t.CoreInv := by
  obtain ⟨op, -, h2, u, h3, ⟨a0, -⟩, hm, a1, a2, a3, a4, a5, a6, h6⟩ := microTurn_faultEntry s h.ms j
  have hop : microOpAt s = .ok op := by unfold microOpAt; rw [hp]; simp only [h2]
  rw [engineMicro_of hop] at he
  simp only [runSeq, h3] at he
  cases he
  have hcc : ccAtMostOne t.cc = true := by rw [a3]; exact h.ccOne
  have hptr : t.ptr < t.inbuf.length ∨ (t.inbuf = [] ∧ t.ptr = 0) := by rw [a1, a2]; exact h.ptrInside
  have hwait : t.waitForInterrupt = true → t.phase = .run ∧ t.k = 4 := fun hc =>
    absurd (a0.symm.trans hc) (by rw [hw]; decide)
  have hhalt : t.halted = true → t.phase = .run ∧ t.k = 0 := fun hc => absurd (a6.symm.trans hc) (by rw [hh]; decide)
  by_cases hj : j.val + 1 < 3
  · rw [dif_pos hj] at h6
    exact ⟨hm, hcc, a4.trans h.msrZero, a5.trans h.mfrZero, h6.2.2.trans h.noJump, hptr, hwait, hhalt,
      (fun hc => by rw [h6.1] at hc; cases hc), fun hc => by rw [h6.1] at hc; cases hc⟩
  · rw [dif_neg hj] at h6
    exact ⟨hm, hcc, a4.trans h.msrZero, a5.trans h.mfrZero, h6.2.2, hptr, hwait, hhalt,
      (fun _ hk => by rw [h6.2.1] at hk; omega), fun _ hk => by rw [h6.2.1] at hk; omega⟩

/-- A micro-step of a tail keeps the invariant (41_execution_cycle.md R187). -/
theorem State.CoreInv.tailStep (h : s.CoreInv) (hh : s.halted = false) (hw : s.waitForInterrupt = false)
    (hp : s.phase = .run) (hk4 : 4 ≤ s.k) (he : engineMicro s = .next t) : t.CoreInv := by
  obtain ⟨i, hwf, hd, hlt⟩ := h.inTail hp hk4
  have hi : instrOfFields s.dec = .ok i := by rw [hd]; exact instrOfFields_fieldsOf hwf
  obtain ⟨op, ops, -, h2, h3⟩ := tailAt_of hi (j := s.k - 4) (by omega) hlt
  have hop := microOpAt_tail hp hk4 h2
  have hplain := microOpAt_plain hop
  rw [engineMicro_of hop] at he
  have hm := microTurn_inv hplain h.ms
  have hns := microTurn_not_stuck hplain h.ms
  rw [stepsOf_get _ _ hlt] at h3
  simp only [runSeq] at he
  have hkeep := tailOf_keeps i _ (List.getElem_mem hlt)
  obtain ⟨w, hwr⟩ : ∃ w : TailPlace, op = w.wrap (tailOf i)[s.k - 4] ∧
      (w = .inside → s.k - 4 + 1 < (tailOf i).length) := by
    by_cases hl : s.k - 4 + 1 = (tailOf i).length
    · rw [if_pos hl] at h3; cases h3; exact ⟨.last, rfl, fun hc => by cases hc⟩
    · rw [if_neg hl] at h3; cases h3; exact ⟨.inside, rfl, fun _ => by omega⟩
  have ht := tailTurn w hkeep s
  rw [← hwr.1] at ht
  generalize hy : microTurn op s = y at ht hm hns he
  cases ht with
  | @ok m u hu k =>
    cases w with
    | inside =>
      have e : t = u.nextK.tick := by cases he; rfl
      rw [e]
      exact h.advanced hh hw k (calm_at i (hwr.2 rfl) (s.withMs m) u hu) hp ⟨hwf, hd⟩ hk4 (hwr.2 rfl)
        (fun ha => inside_tramp i (hwr.2 rfl) h.ms hd ha (t := u.nextK.tick) (by rw [hwr.1] at hy; exact hy)) hm
    | last =>
      have e : t = u.completed.tick := by cases he; rfl
      rw [e]; exact h.completed hw hp k hm
  | @complete m u hu k =>
    have e : t = u.completed.tick := by cases he; rfl
    rw [e]; exact h.completed hw hp k hm
  | @wait m u hu e' =>
    have e : t = u := by cases he; rfl
    obtain ⟨hj, r, d, hin⟩ := wait_first hlt hu
    have hm' : u.ms.Inv := hm
    rw [e'] at hm'
    rw [e, e']; exact h.waiting hh hp (by omega) (by rw [hd, hin]; rfl) hm'
  | raise kind m =>
    have e : t = ((s.withMs m).raiseFault kind).tick := by cases he; rfl
    rw [e]; exact h.raised hh hw kind hm
  | stuck hd u hne => exact absurd (hns _ _ rfl) hne

/-- A turn of the engine over, with its `execute` or inside it (60_exceptions.md R317). -/
theorem State.CoreInv.settled (h : s.CoreInv) : s.settle.Inv :=
  ⟨⟨h.ms, h.ccOne, h.msrZero, h.mfrZero, h.noJump, h.ptrInside, h.waitsAtIn, h.haltsBetween, h.inTail, h.trampoline⟩,
    fun hc => by
      have h' : s.goesOn = true := hc
      rw [State.goesOn, Bool.and_eq_true] at h'
      exact h'.1⟩

/-- A refusal changes nothing that the invariant of the engine speaks of. -/
theorem State.CoreInv.refuse (h : s.CoreInv) (r : Refusal) : (s.refuse r).CoreInv :=
  ⟨h.ms, h.ccOne, h.msrZero, h.mfrZero, h.noJump, h.ptrInside, h.waitsAtIn, h.haltsBetween, h.inTail, h.trampoline⟩

/-- Decode keeps the invariant, and mem[8] holds the label's address from there on (41_execution_cycle.md R185, R186). -/
theorem State.CoreInv.decodeStep (h : s.CoreInv) (hh : s.halted = false) (hw : s.waitForInterrupt = false)
    (hp : s.phase = .run) (hk : s.k = 3) (he : engineMicro s = .next t) : t.CoreInv := by
  have hop := microOpAt_decode hp hk
  cases hd : decode s.ir with
  | error e =>
    rw [hd] at hop
    rw [engineMicro, hop] at he
    cases he
    exact h.refuse _
  | ok i =>
    rw [hd] at hop
    obtain ⟨-, hwf⟩ := decode_wf hd
    rw [engineMicro_of hop] at he
    obtain ⟨m, hm, he'⟩ := runSeq_decodeStep (fin := .next) (onFault := .next) (ops := []) h.ms (fieldsOf i)
    rw [he', runSeq_nil] at he
    cases he
    refine ⟨hm.1, h.ccOne, h.msrZero, h.mfrZero, h.noJump, h.ptrInside,
      fun hc => absurd (show s.waitForInterrupt = true from hc) (by rw [hw]; decide),
      fun hc => absurd (show s.halted = true from hc) (by rw [hh]; decide), fun _ _ => ⟨i, hwf, rfl, tail_pos i⟩,
      fun _ _ ha v hl => (hm.2 Config.trampAddr).trans ?_⟩
    rw [State.seen, if_pos ⟨rfl, ha⟩, show lookupRef s.labelRefs s.pc = some v from hl]

/-- A step of fetch keeps the invariant, in range or not (41_execution_cycle.md R182 to R184). -/
theorem State.CoreInv.fetchStep (h : s.CoreInv) (hh : s.halted = false) (hw : s.waitForInterrupt = false)
    (hp : s.phase = .run) (hk : s.k < 3) (he : engineMicro s = .next t) : t.CoreInv := by
  have hms := (MemSys.startTurn_shows h.ms).1
  have hk' : s.k = 0 ∨ s.k = 1 ∨ s.k = 2 := by omega
  rcases hk' with hk | hk | hk <;> rw [engineMicro_of (microOp_fetch hp hk rfl)] at he
  · rw [runSeq_regOp, runSeq_nil] at he
    cases he
    exact h.fetched hh hw hms rfl rfl rfl rfl rfl rfl rfl rfl (by show 1 < 4; omega)
  · by_cases hlt : s.mar.toNat < Config.memWords
    · obtain ⟨m, hm, he'⟩ := microTurn_readOp (addr := fun s => s.mar) (put := fun v s => { s with mdr := v, k := 2 })
        h.ms (fun _ => rfl) hlt
      rw [runSeq, he'] at he
      cases he
      exact h.fetched hh hw hm.1 rfl rfl rfl rfl rfl rfl rfl rfl (by show 2 < 4; omega)
    · have he' := microTurn_readOp_raise (s := s) (addr := fun s => s.mar)
        (put := fun v s => { s with mdr := v, k := 2 }) (fun _ => rfl) hlt
      rw [runSeq, he'] at he
      cases he
      exact h.raised hh hw _ hms
  · rw [runSeq_regOp, runSeq_nil] at he
    cases he
    exact h.fetched hh hw hms rfl rfl rfl rfl rfl rfl rfl rfl (by show 3 < 4; omega)

/-- One micro-step of the engine keeps the invariant, whatever it is. -/
theorem State.CoreInv.microStep (h : s.CoreInv) (hh : s.halted = false) (hw : s.waitForInterrupt = false)
    (he : engineMicro s = .next t) : t.CoreInv := by
  cases hp : s.phase with
  | faultEntry j => exact h.faultEntry hh hw hp he
  | run =>
    rcases (by omega : s.k < 3 ∨ s.k = 3 ∨ 4 ≤ s.k) with hk | hk | hk
    · exact h.fetchStep hh hw hp hk he
    · exact h.decodeStep hh hw hp hk he
    · exact h.tailStep hh hw hp hk he

end Sys2Proof.Machine
end

