-- ==== Sys2Proof/Laws/Unread.lean ====
section
/-! SUPPORT. MSR and MFR (10_state.md R29, R30): no micro-op reads or writes them, so micro-steps from two states that differ
only there lead to states that differ only there. -/

namespace Sys2Proof.Machine

/-- A state with these values in MSR and MFR. -/
def State.withMsrMfr (msr : Word) (mfr : BitVec 4) (s : State) : State := { s with msr := msr, mfr := mfr }

/-- An outcome with its state changed. -/
def outMap (g : State → State) : Out → Out
  | .next s => .next (g s)
  | .fault f => .fault f
  | .refused r => .refused r

/-- A micro-op that neither reads nor writes MSR and MFR. -/
def Unread (op : Micro) : Prop :=
  ∀ msr mfr s, op (s.withMsrMfr msr mfr) = (op s).map (State.withMsrMfr msr mfr)

theorem Unread.reg {f : State → State} (h : ∀ msr mfr s, f (s.withMsrMfr msr mfr) = (f s).withMsrMfr msr mfr) :
    Unread (regOp f) := fun msr mfr s => by
  simp only [regOp, MicroResult.map, h]

theorem Unread.read {addr : State → Word} {put : Word → State → State}
    (ha : ∀ msr mfr s, addr (s.withMsrMfr msr mfr) = addr s)
    (hp : ∀ v msr mfr s, put v (s.withMsrMfr msr mfr) = (put v s).withMsrMfr msr mfr) : Unread (readOp addr put) :=
  fun msr mfr s => by
    simp only [readOp, ha]
    show (match s.ms.memRead _ with
      | .got v m => MicroResult.ok (put v ((s.withMs m).withMsrMfr msr mfr))
      | .hold h => _
      | .raise => _) = _
    cases s.ms.memRead (addr s) <;> simp only [hp] <;> rfl

theorem Unread.write {addr value : State → Word} {after : State → State}
    (ha : ∀ msr mfr s, addr (s.withMsrMfr msr mfr) = addr s) (hv : ∀ msr mfr s, value (s.withMsrMfr msr mfr) = value s)
    (hp : ∀ msr mfr s, after (s.withMsrMfr msr mfr) = (after s).withMsrMfr msr mfr) :
    Unread (writeOp addr value after) := fun msr mfr s => by
  simp only [writeOp, ha, hv]
  show (match s.ms.memWrite _ _ with
    | .done m => MicroResult.ok (after ((s.withMs m).withMsrMfr msr mfr))
    | .hold h => _
    | .raise => _) = _
  cases s.ms.memWrite (addr s) (value s) <;> simp only [hp] <;> rfl

theorem Unread.advance {op : Micro} (h : Unread op) : Unread (thenAdvance op) := fun msr mfr s => by
  simp only [thenAdvance, h msr mfr s]; cases op s <;> rfl

theorem Unread.complete {op : Micro} (h : Unread op) : Unread (thenComplete op) := fun msr mfr s => by
  simp only [thenComplete, h msr mfr s]; cases op s <;> rfl

theorem Unread.stepsOf : ∀ {ops : List Micro}, (∀ op ∈ ops, Unread op) → ∀ op ∈ stepsOf ops, Unread op
  | [], _ => fun op h => by cases h
  | [x], h => fun op h' => by
    rw [Machine.stepsOf, List.mem_singleton] at h'
    subst h'
    exact (h x (List.mem_cons_self ..)).complete
  | x :: y :: ops, h => fun op h' => by
    rw [Machine.stepsOf] at h'
    · rcases List.mem_cons.1 h' with rfl | h'
      · exact (h x (List.mem_cons_self ..)).advance
      · exact Unread.stepsOf (fun z hz => h z (List.mem_cons_of_mem _ hz)) op h'
    · exact fun hc => by cases hc

/-! ### The micro-ops of the machine -/

theorem unread_decodeStep (f : DecodeFields) : Unread (decodeStep f) := fun msr mfr s => by
  unfold decodeStep
  split
  · show (match lookupRef s.labelRefs s.pc with
      | some t => writeOp _ _ _ (s.withMsrMfr msr mfr)
      | none => _) = _
    cases lookupRef s.labelRefs s.pc with
    | none => rfl
    | some t =>
      exact Unread.write (addr := fun _ => BitVec.ofNat 18 Config.trampAddr) (value := fun _ => pcToWord t)
        (after := .decoded f) (fun _ _ _ => rfl) (fun _ _ _ => rfl) (fun _ _ _ => rfl) msr mfr s
  · rfl

theorem unread_dvdOp : Unread dvdOp := fun msr mfr s => by
  have : ccFlag (aluDvd (s.withMsrMfr msr mfr)).cc flagDivzero = ccFlag (aluDvd s).cc flagDivzero := rfl
  simp only [dvdOp, this]; split <;> rfl

theorem unread_inRead : Unread inRead := fun msr mfr s => by
  unfold inRead
  by_cases hd : s.dec.devid.toNat = Config.devKeyboard
  · rw [if_pos hd, if_pos (show (s.withMsrMfr msr mfr).dec.devid.toNat = _ from hd),
      show (s.withMsrMfr msr mfr).inbuf[(s.withMsrMfr msr mfr).ptr]? = s.inbuf[s.ptr]? from rfl]
    cases s.inbuf[s.ptr]? <;> rfl
  · rw [if_neg hd, if_neg (show ¬ (s.withMsrMfr msr mfr).dec.devid.toNat = _ from hd)]; rfl

theorem unread_trapEnter : Unread trapEnter := fun msr mfr s => by
  unfold trapEnter
  by_cases hz : s.mdr.toNat = 0
  · rw [if_pos hz, if_pos (show (s.withMsrMfr msr mfr).mdr.toNat = _ from hz)]; rfl
  · rw [if_neg hz, if_neg (show ¬ (s.withMsrMfr msr mfr).mdr.toNat = _ from hz)]; rfl

theorem unread_outEmit : Unread outEmit := .reg fun msr mfr s => by
  by_cases hd : s.dec.devid.toNat = Config.devConsole
  · rw [if_pos hd, if_pos (show (s.withMsrMfr msr mfr).dec.devid.toNat = _ from hd)]; rfl
  · rw [if_neg hd, if_neg (show ¬ (s.withMsrMfr msr mfr).dec.devid.toNat = _ from hd)]

/-- Every micro-op of every tail. -/
theorem tailOf_unread (i : Instr) : ∀ op ∈ tailOf i, Unread op := by
  cases i
  all_goals try (rename_i b _; cases b)
  all_goals simp only [tailOf, ldrTail, strTail, ldaTail, ldxTail, stxTail, jzTail, jneTail, jccTail, jmpTail, jsrTail,
    rfsTail, sobTail, jgeTail, amrTail, smrTail, airTail, sirTail, mltTail, dvdTail, trrTail, andTail, orrTail, notTail,
    shiftLatches, srcTail, rrcTail, inTail, outTail, trapTail, hltTail, List.cons_append, List.nil_append, eaOps,
    if_true, if_false, Bool.false_eq_true]
  all_goals
    simp only [List.forall_mem_cons, List.not_mem_nil, false_imp_iff, implies_true, and_true]
  all_goals
    repeat' apply And.intro
  all_goals first
    | exact unread_dvdOp
    | exact unread_inRead
    | exact unread_trapEnter
    | exact unread_outEmit
    | exact .read (fun _ _ _ => rfl) (fun _ _ _ _ => rfl)
    | exact .write (fun _ _ _ => rfl) (fun _ _ _ => rfl) (fun _ _ _ => rfl)
    | exact .reg (fun _ _ _ => rfl)

theorem fetchOps_unread : ∀ op ∈ fetchOps, Unread op := by
  simp only [fetchOps, List.forall_mem_cons, List.not_mem_nil, false_imp_iff, implies_true, and_true]
  exact ⟨.reg (fun _ _ _ => rfl), .read (fun _ _ _ => rfl) (fun _ _ _ _ => rfl), .reg (fun _ _ _ => rfl)⟩

theorem faultEntryOps_unread : ∀ op ∈ faultEntryOps, Unread op := by
  simp only [faultEntryOps, List.forall_mem_cons, List.not_mem_nil, false_imp_iff, implies_true, and_true]
  exact ⟨.write (fun _ _ _ => rfl) (fun _ _ _ => rfl) (fun _ _ _ => rfl),
    .write (fun _ _ _ => rfl) (fun _ _ _ => rfl) (fun _ _ _ => rfl), .read (fun _ _ _ => rfl) (fun _ _ _ _ => rfl)⟩

/-! ### Micro-steps -/

variable {msr : Word} {mfr : BitVec 4}

theorem retryHeld_unread {op : Micro} (h : Unread op) : ∀ n s,
    retryHeld n op (s.withMsrMfr msr mfr) = (retryHeld n op s).map (State.withMsrMfr msr mfr)
  | 0, s => h msr mfr s
  | n + 1, s => by
    simp only [retryHeld, h msr mfr s]
    cases op s with
    | hold hd u =>
      cases hd with
      | inputStall => rfl
      | _ => exact retryHeld_unread h n (s.withMs s.ms.ctrlMove)
    | _ => rfl

theorem microTurn_unread {op : Micro} (h : Unread op) (s : State) :
    microTurn op (s.withMsrMfr msr mfr) = (microTurn op s).map (State.withMsrMfr msr mfr) := by
  show account (retryHeld s.ms.startTurn.pendingMoves op ((s.withMs s.ms.startTurn).withMsrMfr msr mfr)) = _
  rw [retryHeld_unread h, microTurn]
  cases retryHeld s.ms.startTurn.pendingMoves op (s.withMs s.ms.startTurn) <;> rfl

/-- Micro-steps from two states that differ only in MSR and MFR. -/
theorem runSeq_unread {fin onFault : State → Out}
    (hf : ∀ s, fin (s.withMsrMfr msr mfr) = outMap (State.withMsrMfr msr mfr) (fin s))
    (ho : ∀ s, onFault (s.withMsrMfr msr mfr) = outMap (State.withMsrMfr msr mfr) (onFault s)) :
    ∀ ops, (∀ op ∈ ops, Unread op) → ∀ s,
      runSeq fin onFault ops (s.withMsrMfr msr mfr) = outMap (State.withMsrMfr msr mfr) (runSeq fin onFault ops s)
  | [], _, s => hf s
  | op :: ops, h, s => by
    simp only [runSeq, microTurn_unread (h op (List.mem_cons_self ..)) s]
    cases microTurn op s with
    | ok u => exact runSeq_unread hf ho ops (fun x hx => h x (List.mem_cons_of_mem _ hx)) u
    | complete u => rfl
    | hold hd u => cases hd <;> rfl
    | raise kind u => exact ho u

/-- The meaning of an instruction, from two such states. -/
theorem exec_unread (i : Instr) (s : State) :
    exec i (s.withMsrMfr msr mfr) = outMap (State.withMsrMfr msr mfr) (exec i s) := by
  have entry : ∀ s : State,
      runFaultEntry 0 (s.withMsrMfr msr mfr) = outMap (State.withMsrMfr msr mfr) (runFaultEntry 0 s) :=
    runSeq_unread (fun _ => rfl) (fun _ => rfl) _ faultEntryOps_unread
  rw [exec_eq, exec_eq, runInstr, runInstr]
  split
  · rfl
  · refine runSeq_unread (fun _ => rfl) entry _ (fun op h => ?_) s
    rcases List.mem_cons.1 h with rfl | h
    · exact unread_decodeStep _
    · exact Unread.stepsOf (tailOf_unread i) op h

end Sys2Proof.Machine
end

