-- ==== Sys2Proof/Tests/Slice0.lean ====
section
/-! SUPPORT. Tests of the model: words written out from the spec's encodings, single steps whose expected values are the spec's own
vectors (95_test_vectors.md) or hand calculation from its rules, and, in Tests/Witnesses.lean, a witness for each statement. -/

namespace Sys2Proof.Tests

open Sys2Proof Sys2Proof.Machine

/-! ### WellFormed (30_encoding.md R127): each check refuses an ill-formed term -/

theorem test_ldx_index_zero_ill_formed : (Instr.ldx 0 false 4).wellFormed = false := by decide
theorem test_stx_index_zero_ill_formed : (Instr.stx 0 false 4).wellFormed = false := by decide
theorem test_mlt_odd_pair_ill_formed : (Instr.mlt 1 2).wellFormed = false := by decide
theorem test_dvd_odd_pair_ill_formed : (Instr.dvd 3 3).wellFormed = false := by decide
theorem test_well_formed_terms : (Instr.ldx 1 false 20).wellFormed = true ∧ (Instr.stx 3 true 5).wellFormed = true ∧
    (Instr.mlt 0 2).wellFormed = true ∧ (Instr.dvd 2 3).wellFormed = true := by decide

/-! ### Decode: a word for every constructor, bit by bit from 30_encoding.md R113 to R120 and R124, the values of
95_test_vectors.md Parts 1 to 3 -/

/-- What decode reads, none where it refuses. -/
def read (w : Word) : Option Instr := (decode w).toOption

/-- The name under which decode refuses a word. -/
def refusal (w : Word) : Option DecodeError :=
  match decode w with
  | .ok _ => none
  | .error e => some e

theorem test_decode_ldr : read 0b000001_01_00_0_10100_00#18 = some (.ldr 1 0 false 20) := by decide
theorem test_decode_str : read 0b000010_00_01_0_01100_00#18 = some (.str 0 1 false 12) := by decide
theorem test_decode_lda : read 0b000011_10_00_0_11111_00#18 = some (.lda 2 0 false 31) := by decide
theorem test_decode_ldx : read 0b100001_01_0_10100_0000#18 = some (.ldx 1 false 20) := by decide
theorem test_decode_stx : read 0b100010_10_1_00101_0000#18 = some (.stx 2 true 5) := by decide
theorem test_decode_jz : read 0b001000_00_00_1_01000_00#18 = some (.jz 0 0 true 8) := by decide
theorem test_decode_jne : read 0b001001_01_10_0_00011_00#18 = some (.jne 1 2 false 3) := by decide
theorem test_decode_jne_unused_bits : read 0b001001_01_10_0_00011_11#18 = some (.jne 1 2 false 3) := by decide
theorem test_decode_jcc : read 0b001010_11_00_0_10000_00#18 = some (.jcc 3 0 false 16) := by decide
theorem test_decode_jmp : read 0b001011_00_00_1_01000_00#18 = some (.jmp 0 0 true 8) := by decide
theorem test_decode_jsr : read 0b001100_00_00_0_10100_00#18 = some (.jsr 0 0 false 20) := by decide
theorem test_decode_rfs : read 0b001101_00_00_0_00101_00#18 = some (.rfs 0 0 false 5) := by decide
theorem test_decode_sob : read 0b001110_00_00_0_10100_00#18 = some (.sob 0 0 false 20) := by decide
theorem test_decode_jge : read 0b001111_10_01_0_00100_00#18 = some (.jge 2 1 false 4) := by decide
theorem test_decode_amr : read 0b000100_00_01_0_01011_00#18 = some (.amr 0 1 false 11) := by decide
theorem test_decode_smr : read 0b000101_01_00_0_10100_00#18 = some (.smr 1 0 false 20) := by decide
theorem test_decode_air : read 0b000110_00_00101_00000#18 = some (.air 0 5) := by decide
theorem test_decode_sir : read 0b000111_11_11111_00000#18 = some (.sir 3 31) := by decide
theorem test_decode_mlt : read 0b010000_00_10_00000000#18 = some (.mlt 0 2) := by decide
theorem test_decode_dvd : read 0b010001_10_11_00000000#18 = some (.dvd 2 3) := by decide
theorem test_decode_trr : read 0b010010_01_10_00000000#18 = some (.trr 1 2) := by decide
theorem test_decode_and : read 0b010011_00_01_00000000#18 = some (.and 0 1) := by decide
theorem test_decode_orr : read 0b010100_10_11_00000000#18 = some (.orr 2 3) := by decide
theorem test_decode_not : read 0b010101_01_0000000000#18 = some (.not 1) := by decide
theorem test_decode_src : read 0b011001_00_1_1_0010_0000#18 = some (.src 0 true true 2) := by decide
theorem test_decode_rrc : read 0b011010_10_0_1_0001_0000#18 = some (.rrc 2 false true 1) := by decide
theorem test_decode_in : read 0b110001_00_00011_00000#18 = some (.inp 0 3) := by decide
theorem test_decode_out : read 0b110010_01_00001_00000#18 = some (.out 1 1) := by decide
theorem test_decode_trap : read 0b011000_0001_00000000#18 = some (.trap 1) := by decide
theorem test_decode_hlt : read 0x00FFF#18 = some (.hlt 3 3 true 31) := by decide
theorem test_decode_illegal_22 : refusal 0x16000#18 = some .illegalOpcode := by decide
theorem test_decode_illegal_63 : refusal 0x3FFFF#18 = some .illegalOpcode := by decide
theorem test_decode_mlt_odd : refusal 0x10600#18 = some .mulDivOddRx := by decide
theorem test_decode_dvd_odd : refusal 0x11F00#18 = some .mulDivOddRx := by decide
theorem test_decode_ldx_index_zero : refusal 0x21040#18 = some .indexZeroLX := by decide
theorem test_encode_words : encode (.ldr 1 0 false 20) = 0x01450#18 ∧ encode (.jne 1 2 false 3) = 0x0960C#18 ∧
    encode (.rrc 2 false true 1) = 0x1A910#18 ∧ encode (.out 1 1) = 0x32420#18 := by decide
theorem test_decode_table_word : decodeTableWord 18 0x01450 = some (.ldr 1 0 false 20) ∧
    decodeTableWord 18 0x16000 = none := by decide

/-! ### Single steps -/

/-- A state between instructions at 100, inside `execute(continue)`, with these main-memory cells and nothing cached. -/
def start (cells : Memory) : State :=
  { State.reset with pc := 100, execMode := .continue, executing := true, ms := { MemSys.reset with mem := cells } }

/-- One step of a state with an instruction word where it fetches. -/
def runWord (w : Nat) (s : State) : Option State :=
  match step (s.withFetchWord 18 w) with
  | .next t => some t
  | _ => none

/-- A field of the state that one step gives, none where it stops. -/
def after (w : Nat) (s : State) {α : Type} (f : State → α) : Option α := (runWord w s).map f

-- 95_test_vectors.md 2.2, 2.5
theorem test_ldr : after 0x01450 (start [(20, 190)]) (fun t => (t.r1, t.pc, t.cycleCount)) = some (190, 101, 8) := by decide
theorem test_ldr_negative_index :
    after 0x01214 { start [(4, 9)] with x2 := 0x3FFFF } (fun t => (t.r0, t.ea)) = some (9, 4) := by decide
theorem test_str : after 0x02130 { start [] with x1 := 190, r0 := 1234 } (fun t => (t.ms.view 202, t.pc)) =
    some (1234, 101) := by decide
theorem test_str_miss_fills_line : after 0x0210C { start [] with x1 := 200, r0 := 5 } (fun t => lookup t.ms.l1 203) =
    some (some { tag := 200, words := [0, 0, 0, 5, 0, 0, 0, 0], writes := 1 }) := by decide
theorem test_lda : after 0x0387C (start []) (fun t => (t.r2, t.pc, t.cycleCount)) = some (31, 101, 6) := by decide
theorem test_lda_no_range_check : after 0x03200 { start [] with x2 := 0x3FFFF } (fun t => (t.r0, t.faultLog)) =
    some (0x3FFFF, []) := by decide
theorem test_ldx_not_indexed : after 0x21540 { start [(20, 500)] with x1 := 100 } (fun t => (t.x1, t.ea)) =
    some (500, 20) := by decide
theorem test_stx_indirect : after 0x22A50 { start [(5, 300)] with x2 := 7 } (fun t => (t.ms.view 300, t.cycleCount)) =
    some (7, 11) := by decide

-- 95_test_vectors.md 2.4
theorem test_jz_trampoline : after 0x080A0 { start [] with labelRefs := [(100, 200)] } (fun t =>
    (t.ms.view 8, t.cc, t.pc, t.cycleCount)) = some (200, 0b0001#4, 200, 12) := by decide
theorem test_jz_not_taken : after 0x080A0 { start [] with labelRefs := [(100, 200)], r0 := 5 } (fun t =>
    (t.ms.view 8, t.cc, t.pc)) = some (200, 0b0000#4, 101) := by decide
theorem test_jne_taken : after 0x0960C { start [] with x2 := 100, r1 := 5 } (fun t => (t.cc, t.pc)) =
    some (0b0000#4, 103) := by decide
theorem test_jne_zero : after 0x0960C { start [] with x2 := 100 } (fun t => (t.cc, t.pc)) =
    some (0b0001#4, 101) := by decide
theorem test_jcc_equal : after 0x0AC40 { start [] with cc := 0b0001#4 } (fun t => (t.cc, t.pc)) =
    some (0b0001#4, 16) := by decide
theorem test_jcc_overflow_clear : after 0x0A040 { start [] with cc := 0b0001#4 } (fun t => t.pc) = some 101 := by decide
theorem test_jmp_low_12_bits : after 0x0B17C { start [] with x1 := 0x0FFF0 } (fun t => (t.ea, t.pc)) =
    some (0x1000F, 15) := by decide
theorem test_jmp_indirect : after 0x0B090 (start [(4, 150)]) (fun t => (t.pc, t.jumpTaken)) = some (150, false) := by decide
theorem test_jsr : after 0x0C0A0 { start [] with pc := 120, labelRefs := [(120, 300)] } (fun t =>
    (t.ms.view 8, t.r3, t.pc, t.cycleCount)) = some (300, 121, 300, 10) := by decide
theorem test_rfs : after 0x0D01C { start [] with r3 := 0x3F065 } (fun t => (t.r0, t.pc, t.cycleCount)) =
    some (7, 101, 6) := by decide
theorem test_sob_to_minus_one : after 0x0E050 (start []) (fun t => (t.r0, t.cc, t.pc)) =
    some (0x3FFFF, 0b0000#4, 101) := by decide
theorem test_sob_wraps_positive : after 0x0E050 { start [] with r0 := 0x20000 } (fun t => (t.r0, t.pc)) =
    some (0x1FFFF, 20) := by decide
theorem test_jge_zero : after 0x0F910 { start [] with x1 := 96 } (fun t => t.pc) = some 100 := by decide
theorem test_jge_negative : after 0x0F910 { start [] with x1 := 96, r2 := 0x20000 } (fun t => t.pc) = some 101 := by decide

-- 95_test_vectors.md 2.3
theorem test_amr_plus_zero : after 0x0402C { start [] with r0 := 0x3FFFF, cc := 0b0100#4 } (fun t => (t.r0, t.cc)) =
    some (0x3FFFF, 0b0000#4) := by decide
theorem test_amr_indexed : after 0x0412C { start [(201, 234)] with x1 := 190, r0 := 1000 } (fun t =>
    (t.r0, t.cc, t.cycleCount)) = some (1234, 0b0000#4, 11) := by decide
theorem test_smr_borrow : after 0x05450 { start [(20, 5)] with r1 := 3 } (fun t => (t.r1, t.cc)) =
    some (0x3FFFE, 0b0100#4) := by decide
theorem test_smr_equal : after 0x05450 { start [(20, 7)] with r1 := 7 } (fun t => (t.r1, t.cc)) =
    some (0, 0b0000#4) := by decide
theorem test_air_carry : after 0x063E0 { start [] with r0 := 0x3FFE1 } (fun t => (t.r0, t.cc, t.cycleCount)) =
    some (0, 0b1000#4, 8) := by decide
theorem test_air_zero_clears_flags : after 0x06800 { start [] with r2 := 9, cc := 0b1000#4 } (fun t => (t.r2, t.cc)) =
    some (9, 0b0000#4) := by decide
theorem test_sir_borrow : after 0x07FE0 { start [] with r3 := 0x0000A } (fun t => (t.r3, t.cc)) =
    some (0x3FFEB, 0b0100#4) := by decide
theorem test_mlt_halves : after 0x10200 { start [] with r0 := 0x3FFFF, r2 := 0x3FFFF } (fun t =>
    (t.r0, t.r1, t.r2, t.cc)) = some (0x3FFFE, 1, 0x3FFFF, 0b0000#4) := by decide
theorem test_mlt_source_is_destination : after 0x10100 { start [] with r0 := 4, r1 := 5 } (fun t => (t.r0, t.r1)) =
    some (0, 20) := by decide
theorem test_dvd_by_zero : after 0x11200 { start [] with r0 := 5, r1 := 77 } (fun t =>
    (t.r0, t.r1, t.cc, t.cycleCount)) = some (5, 77, 0b0010#4, 7) := by decide
theorem test_dvd_itself : after 0x11A00 { start [] with r2 := 9 } (fun t => (t.r2, t.r3, t.cc)) =
    some (1, 0, 0b0000#4) := by decide
theorem test_trr_equal : after 0x12600 { start [] with r1 := 7, r2 := 7 } (fun t => (t.cc, t.r1)) =
    some (0b0001#4, 7) := by decide
theorem test_trr_clears_flag : after 0x12600 { start [] with r1 := 7, r2 := 8, cc := 0b1000#4 } (fun t => t.cc) =
    some 0b0000#4 := by decide
theorem test_and_keeps_flags : after 0x13100 { start [] with r0 := 0x0F0F0, r1 := 0x00FF0, cc := 0b1000#4 } (fun t =>
    (t.r0, t.cc)) = some (0x000F0, 0b1000#4) := by decide
theorem test_orr : after 0x14B00 { start [] with r2 := 0x0F0F0, r3 := 0x00FF0 } (fun t => t.r2) = some 0x0FFF0 := by decide
theorem test_not : after 0x15400 { start [] with r1 := 0x2AAAA } (fun t => (t.r1, t.cc)) =
    some (0x15555, 0b0000#4) := by decide
theorem test_src_arithmetic_right : after 0x19430 { start [] with r1 := 0x20000 } (fun t => t.r1) =
    some 0x3C000 := by decide
theorem test_src_left : after 0x19320 { start [] with r0 := 5 } (fun t => (t.r0, t.cycleCount)) = some (0x14, 10) := by decide
theorem test_rrc_left : after 0x1A910 { start [] with r2 := 0x20001 } (fun t => t.r2) = some 3 := by decide
theorem test_rrc_right_15 : after 0x1A0F0 { start [] with r0 := 1 } (fun t => t.r0) = some 8 := by decide

-- 95_test_vectors.md 2.7
theorem test_in_last_character : after 0x31000 { start [] with inbuf := [65, 66], ptr := 1 } (fun t =>
    (t.r0, t.inbuf, t.ptr, t.cycleCount)) = some (66, [], 0, 5) := by decide
theorem test_in_waits : after 0x31000 { start [] with r0 := 66 } (fun t =>
    (t.waitForInterrupt, t.k, t.r0, t.cycleCount)) = some (true, 4, 66, 4) := by decide
theorem test_out : after 0x32420 { start [] with r1 := 0x00141 } (fun t => (t.terminal, t.r1)) =
    some ([0x41], 0x00141) := by decide
theorem test_out_other_device : after 0x32400 { start [] with r1 := 0x00141 } (fun t => (t.terminal, t.cycleCount)) =
    some ([], 5) := by decide
theorem test_trap : after 0x18100 { start [(0, 50), (51, 300)] with pc := 110 } (fun t =>
    (t.ms.view 2, t.pc, t.cycleCount, t.faultLog)) = some (110, 300, 12, []) := by decide
theorem test_trap_empty_entry : after 0x18200 { start [(0, 50), (1, 400)] with pc := 110 } (fun t =>
    (t.ms.view 2, t.ms.view 4, t.pc, t.cycleCount, t.faultLog)) =
    some (110, 110, 400, 15, [{ kind := .illegalTrap, pc := 110, mar := 52 }]) := by decide
theorem test_hlt : after 0x00000 { start [] with pc := 102 } (fun t => (t.halted, t.pc, t.cycleCount)) =
    some (true, 103, 5) := by decide

-- 95_test_vectors.md 2.2 and P9: the data read of `LDR 0,0,8,1` through a pointer to 3000
theorem test_address_fault : after 0x010A0 (start [(1, 400), (8, 3000)]) (fun t =>
    (t.r0, t.ms.view 4, t.ms.view 5, t.pc, t.cycleCount, t.execMode)) = some (0, 100, 100, 400, 13, .continue) := by decide

-- 95_test_vectors.md 2.6.3, 2.6.2: a fifth store holds until the controller has taken an element
theorem test_full_buffer_holds :
    (match ({ MemSys.reset with wb := List.replicate 4 { address := 0, word := 1, lineTag := 0 } } : MemSys).memWrite 5 9 with
      | .hold h => some h
      | _ => none) = some .bufferFull := by decide

/-- A field of the state that one step gives. -/
def stepField {α : Type} (s : State) (f : State → α) : Option α :=
  match step s with
  | .next t => some (f t)
  | _ => none

-- 60_exceptions.md R316, R317: no engine step outside an execute, one instruction in execute(macro)
theorem test_engine_idles_after_construction : stepField State.reset (fun t => (t.pc, t.k, t.cycleCount)) =
    some (24, 0, 0) := by decide
theorem test_execute_macro_ends : after 0x060A0 { start [] with execMode := .macroStep } (fun t =>
    (t.r0, t.executing)) = some (5, false) := by decide
theorem test_execute_continue_ends_at_hlt : after 0x00000 (start []) (fun t => (t.halted, t.executing)) =
    some (true, false) := by decide

-- 41_execution_cycle.md R194, 30_encoding.md R127: a refused word marks the state, and nothing past the fetch is done
theorem test_refused_word_marks_state : after 0x16000 (start []) (fun t =>
    (t.refused, t.refusal, t.executing, t.pc, t.cycleCount)) = some (true, some .illegalOpcode, false, 100, 3) := by decide

-- 20_memory.md R75: the engine takes one micro-step of an instruction, and the controller retires a pending write alone
theorem test_micro_turn : stepField { start [] with turns := [.micro] } (fun t => (t.k, t.mar, t.executing)) =
    some (1, 100, true) := by decide
theorem test_controller_turn : stepField { start [] with
      turns := [.controller]
      ms := { MemSys.reset with
        l1 := [{ tag := 0, words := [9, 0, 0, 0, 0, 0, 0, 0], writes := 1 }]
        inflight := some { address := 0, word := 9, lineTag := 0 } } } (fun t =>
    (t.ms.hostView 0, t.ms.inflight, (t.ms.l1.map Line.writes), t.cycleCount)) = some (9, none, [0], 0) := by decide

/-! ### The host and the assembler -/

-- 95_test_vectors.md S3: JMP 0,TARGET; AIR 0,1; TARGET: AIR 0,10; HLT at 100
theorem test_assemble_forward_jump :
    assemble 100 ["JMP 0,TARGET", "AIR 0,1", "TARGET: AIR 0,10", "HLT"] =
      { words := [(100, 0x0B0A0), (101, 0x06020), (102, 0x06140), (103, 0)], refs := [(100, 102)], errors := [] } := by
  decide

-- 30_encoding.md R130, R133: a literal is truncated, an unknown mnemonic stores nothing
theorem test_assemble_errors : assemble 100 ["STR 0,0,200 / comment", "FOO 1", "LDX 1,20"] =
    { words := [(100, 0x02020), (101, 0x21540)], refs := [], errors := [.unknownMnemonic 1] } := by decide

/-- A state whose host loads a program first. -/
def loading (source : List String) (cells : Memory) : State :=
  { start cells with turns := [.act (.loadRom source none)] }

theorem test_load_boot : stepField (loading ["AIR 0,5", "HLT"] []) (fun t =>
    (t.pc, t.programKind, t.ms.hostView 24, t.ms.hostView 25)) = some (24, .boot, 0x060A0, 0) := by decide
-- 60_exceptions.md R316: no load in the middle of an instruction
theorem test_load_mid_instruction : stepField { loading ["HLT"] [] with k := 2 } (fun t => (t.refusal, t.k)) =
    some (some .loadMidInstruction, 2) := by decide
theorem test_load_user : stepField (loading ["AIR 0,5"] [(24, 1)]) (fun t =>
    (t.pc, t.programKind, t.ms.hostView 24, t.ms.hostView 100)) = some (100, .user, 1, 0x060A0) := by decide

end Sys2Proof.Tests
end

