-- ==== Sys2Proof/Tests/Witnesses.lean ====
section
/-! SUPPORT. For each statement with hypotheses, a concrete state and operands that meet all of them together, for each clause
and at the boundary of its range. -/

namespace Sys2Proof.Tests

open Sys2Proof Sys2Proof.Machine

/-! ### States that meet the invariants -/

/-- A memory side with these cells, nothing cached and nothing pending. -/
theorem cells_inv {cells : Memory} (h : cells.wf = true) : MemSys.Inv { MemSys.reset with mem := cells } :=
  (MemSys.invalidated_shows (m := MemSys.reset) rfl rfl h).1

theorem start_ms {cells : Memory} (h : cells.wf = true) : (start cells).ms.Inv := cells_inv h

/-- A state between instructions with this memory side. -/
theorem withSide_inv {m : MemSys} (h : m.Inv) : State.Inv { start [] with ms := m } :=
  ⟨⟨h, rfl, rfl, rfl, rfl, .inr ⟨rfl, rfl⟩, (fun hc => by cases hc), (fun hc => by cases hc),
    fun _ hk => absurd (show 4 ≤ 0 from hk) (by decide), fun _ hk => absurd (show 4 ≤ 0 from hk) (by decide)⟩, fun _ => rfl⟩

theorem start_inv {cells : Memory} (h : cells.wf = true) : (start cells).Inv := withSide_inv (cells_inv h)

theorem start_running (cells : Memory) : (start cells).Running := ⟨⟨rfl, rfl, rfl, rfl, rfl⟩, .inl rfl⟩

/-- A memory side with one dirty line at 2040: an element in flight and three or four in the buffer. -/
def pendingSide (n : Nat) : MemSys :=
  { MemSys.reset with
    l1 := [{ tag := 2040, words := [0, 0, 0, 0, 0, 0, 0, 9], writes := n + 1 }]
    wb := List.replicate n { address := 2047, word := 9, lineTag := 2040 }
    inflight := some { address := 2047, word := 5, lineTag := 2040 } }

theorem pendingSide_inv_three : (pendingSide 3).Inv :=
  ⟨by decide, by decide, by decide, by decide, by decide, by decide, by decide, by decide⟩

theorem pendingSide_inv_full : (pendingSide 4).Inv :=
  ⟨by decide, by decide, by decide, by decide, by decide, by decide, by decide, by decide⟩

/-- A full cache: 16 clean lines, all of them of words 0. -/
def fullSide : MemSys :=
  { MemSys.reset with
    l1 := (List.range 16).map fun j => { tag := 8 * j, words := List.replicate 8 0, writes := 0 } }

/-! ### Encoding -/

theorem witness_DecodeOfEncode : (Instr.mlt 2 3).wellFormed = true ∧ (Instr.ldx 1 true 31).wellFormed = true := by decide
theorem witness_OpcodeIsTopSixBits : read 0x00FFF#18 = some (.hlt 3 3 true 31) := by decide
theorem witness_UnusedBitsIgnored : opOfOpcode (opcodeField 0x0960C) = some .jne ∧
    (0x0960C#18) >>> unusedBits (formatOf .jne) = (0x0960F#18) >>> unusedBits (formatOf .jne) := by decide
theorem witness_ReservedWordsRefused : refusal 0x16000#18 = some .illegalOpcode ∧
    refusal 0x10600#18 = some .mulDivOddRx ∧ refusal 0x21040#18 = some .indexZeroLX := by decide

/-! ### ALU -/

theorem witness_AluMulDiv : ({ start [] with op2 := 1 } : State).op2 ≠ 0 ∧ (start []).op2 = 0 := by decide
theorem witness_AluShiftRotate : ({ start [] with op2 := 15 } : State).op2.toNat < 16 := by decide

/-! ### Memory -/

theorem witness_MemoryCanonical : Memory.wf [(5, 1), (2047, 2)] = true ∧ 2047 < Config.memWords := by decide
theorem witness_CacheReadWrite : (pendingSide 3).Inv ∧ (lookup (pendingSide 3).l1 2047).isSome = true ∧
    (lookup (pendingSide 3).l1 2040).isSome = true ∧ lookup (pendingSide 3).l1 2039 = none ∧
    lookup (pendingSide 3).l1 2048 = none := ⟨pendingSide_inv_three, by decide, by decide, by decide, by decide⟩
theorem witness_EvictionKeepsDirty :
    (fullSide.cacheAdd { tag := 2040, words := List.replicate 8 0, writes := 0 }).isSome = true ∧
    ((pendingSide 3).cacheAdd { tag := 0, words := List.replicate 8 0, writes := 0 }).isSome = true := by decide
theorem witness_TakeStep : ({ pendingSide 4 with inflight := none } : MemSys).take.isSome = true ∧
    ({ pendingSide 4 with inflight := none } : MemSys).wb.length ≤ Config.wbCap := by decide
theorem witness_RetireStep : (pendingSide 4).Inv ∧
    (pendingSide 4).inflight = some { address := 2047, word := 5, lineTag := 2040 } ∧
    (pendingSide 4).retire.isSome = true := ⟨pendingSide_inv_full, by decide, by decide⟩
theorem witness_DrainSynchronises : (pendingSide 4).Inv ∧ (pendingSide 4).drain.cacheRead 2047 = some 9 :=
  ⟨pendingSide_inv_full, by decide⟩
theorem witness_EngineAccesses_room : (pendingSide 3).Inv ∧ (2047#18).toNat < Config.memWords ∧
    (pendingSide 3).wb.length < Config.wbCap := ⟨pendingSide_inv_three, by decide, by decide⟩
theorem witness_EngineAccesses_full : (pendingSide 4).Inv ∧ (2047#18).toNat < Config.memWords ∧
    (pendingSide 4).wb.length = Config.wbCap := ⟨pendingSide_inv_full, by decide, by decide⟩
theorem witness_EngineAccesses_raise : (pendingSide 4).Inv ∧ Config.memWords ≤ (2048#18).toNat :=
  ⟨pendingSide_inv_full, by decide⟩

/-! ### Instructions -/

/-- A state whose effective addresses reach the ends of memory: X1 = 2016 and a pointer at 2047. -/
def reach : State := { start [(8, 7), (2047, 2047)] with x1 := 2016, r1 := 5 }

theorem reach_ms : reach.ms.Inv := start_ms (cells := [(8, 7), (2047, 2047)]) (by decide)

theorem reach_readable (lx : Bool) (ix : BitVec 2) (i : Bool) (addr : BitVec 5)
    (h : (reach.eaBase lx ix addr).toNat < Config.memWords) : reach.eaReadable lx ix i addr := fun _ => h

theorem witness_LdrLoads : reach.ms.Inv ∧ reach.jumpTaken = false ∧ reach.eaReadable false 1 true 31 ∧
    2047#18 = reach.effAddr false 1 true 31 ∧ (2047#18).toNat < Config.memWords ∧ 2047#18 = reach.seen 31 2047 :=
  ⟨reach_ms, rfl, reach_readable _ _ _ _ (by decide), by decide, by decide, by decide⟩
theorem witness_LdrLoads_direct : reach.ms.Inv ∧ reach.jumpTaken = false ∧ reach.eaReadable false 0 false 8 ∧
    8#18 = reach.effAddr false 0 false 8 ∧ (8#18).toNat < Config.memWords ∧ 7#18 = reach.seen 8 8 :=
  ⟨reach_ms, rfl, reach_readable _ _ _ _ (by decide), by decide, by decide, by decide⟩
theorem witness_LdxLoads : reach.ms.Inv ∧ reach.jumpTaken = false ∧ (1#2) ≠ 0 ∧ reach.eaReadable true 1 false 31 ∧
    31#18 = reach.effAddr true 1 false 31 ∧ (31#18).toNat < Config.memWords ∧ 0#18 = reach.seen 31 31 :=
  ⟨reach_ms, rfl, by decide, reach_readable _ _ _ _ (by decide), by decide, by decide, by decide⟩
theorem witness_StrStores : reach.ms.Inv ∧ reach.jumpTaken = false ∧ reach.eaReadable false 1 false 31 ∧
    2047#18 = reach.effAddr false 1 false 31 ∧ (2047#18).toNat < Config.memWords :=
  ⟨reach_ms, rfl, reach_readable _ _ _ _ (by decide), by decide, by decide⟩
theorem witness_StxStores : reach.ms.Inv ∧ reach.jumpTaken = false ∧ reach.getX 1 = some 2016 ∧
    reach.eaReadable true 1 true 8 ∧ 7#18 = reach.effAddr true 1 true 8 ∧ (7#18).toNat < Config.memWords :=
  ⟨reach_ms, rfl, by decide, reach_readable _ _ _ _ (by decide), by decide, by decide⟩
theorem witness_LdaLoadsAddress : reach.ms.Inv ∧ reach.jumpTaken = false ∧ reach.eaReadable false 1 true 31 :=
  ⟨reach_ms, rfl, reach_readable _ _ _ _ (by decide)⟩
theorem witness_JzJneJump : reach.ms.Inv ∧ reach.jumpTaken = false ∧ reach.eaReadable false 0 true 8 ∧
    reach.getR 0 = 0 ∧ reach.getR 1 ≠ 0 :=
  ⟨reach_ms, rfl, reach_readable _ _ _ _ (by decide), by decide, by decide⟩
theorem witness_JccJumps : reach.ms.Inv ∧ reach.jumpTaken = false ∧ reach.eaReadable false 3 false 31 :=
  ⟨reach_ms, rfl, reach_readable _ _ _ _ (by decide)⟩
theorem witness_JmpJsrJump : reach.ms.Inv ∧ reach.eaReadable false 1 true 31 :=
  ⟨reach_ms, reach_readable _ _ _ _ (by decide)⟩
theorem witness_RfsReturns : reach.ms.Inv := reach_ms
theorem witness_SobJgeJump : reach.ms.Inv ∧ reach.jumpTaken = false ∧ reach.eaReadable false 0 true 8 ∧
    (reach.getR 0 - 1).msb = true ∧ (reach.getR 1).msb = false :=
  ⟨reach_ms, rfl, reach_readable _ _ _ _ (by decide), by decide, by decide⟩
theorem witness_AmrSmrCompute : reach.ms.Inv ∧ reach.jumpTaken = false ∧ reach.eaReadable false 1 false 31 ∧
    2047#18 = reach.effAddr false 1 false 31 ∧ (2047#18).toNat < Config.memWords ∧ 2047#18 = reach.seen 31 2047 :=
  ⟨reach_ms, rfl, reach_readable _ _ _ _ (by decide), by decide, by decide, by decide⟩
theorem witness_AirSirCompute : reach.ms.Inv ∧ reach.jumpTaken = false ∧ 31#18 = (31#5).setWidth 18 :=
  ⟨reach_ms, rfl, by decide⟩

/-- A state with the largest operands of MLT. -/
def largest : State := { start [] with r0 := 0x3FFFF, r2 := 0x3FFFF }

theorem witness_MltMultiplies : largest.ms.Inv ∧ largest.jumpTaken = false ∧ (2#2 = 0 ∨ 2#2 = 2) ∧
    (0x3FFFE#18).toNat * 2 ^ 18 + (1#18).toNat = (largest.getR 2).toNat * (largest.getR 0).toNat :=
  ⟨start_ms (cells := []) rfl, rfl, by decide, by decide⟩
theorem witness_DvdDivides : largest.ms.Inv ∧ largest.jumpTaken = false ∧ (0#2 = 0 ∨ 0#2 = 2) ∧ largest.getR 2 ≠ 0 ∧
    largest.getR 1 = 0 := ⟨start_ms (cells := []) rfl, rfl, by decide, by decide, by decide⟩
theorem witness_LogicComputes : largest.ms.Inv ∧ largest.jumpTaken = false ∧ largest.getR 0 = largest.getR 2 ∧
    largest.getR 0 ≠ largest.getR 1 := ⟨start_ms (cells := []) rfl, rfl, by decide, by decide⟩
theorem witness_SrcRrcCompute : largest.ms.Inv ∧ largest.jumpTaken = false ∧ 0x3FFFF#18 = largest.getR 2 :=
  ⟨start_ms (cells := []) rfl, rfl, by decide⟩

/-- A state with two characters to read, the second of them next. -/
def typed : State := { start [] with inbuf := [65, 66], ptr := 1, r1 := 0x00141 }

theorem witness_InReadsOrWaits_last : typed.ms.Inv ∧ typed.jumpTaken = false ∧ 0#5 = 0 ∧ typed.inbuf[typed.ptr]? = some 66 :=
  ⟨start_ms (cells := []) rfl, rfl, by decide, by decide⟩
theorem witness_InReadsOrWaits_first : ({ typed with ptr := 0 } : State).ms.Inv ∧
    ({ typed with ptr := 0 } : State).inbuf[0]? = some 65 := ⟨start_ms (cells := []) rfl, by decide⟩
theorem witness_InReadsOrWaits_other_device : typed.ms.Inv ∧ typed.jumpTaken = false ∧ 1#5 ≠ 0 :=
  ⟨start_ms (cells := []) rfl, rfl, by decide⟩
theorem witness_InReadsOrWaits_empty : (start []).ms.Inv ∧ (start []).ptr = (start []).inbuf.length :=
  ⟨start_ms (cells := []) rfl, rfl⟩

/-- The state of a waiting IN once the host has given a character and has restarted the engine. -/
def resumed : State := { start [] with k := 4, dec := fieldsOf (.inp 2 0), inbuf := [67] }

theorem witness_InResumes : resumed.ms.Inv ∧ resumed.jumpTaken = false ∧ resumed.Running ∧ resumed.execMode ≠ .micro ∧
    resumed.phase = .run ∧ resumed.k = 4 ∧ resumed.dec = fieldsOf (.inp 2 0) ∧ resumed.inbuf[resumed.ptr]? = some 67 :=
  ⟨start_ms (cells := []) rfl, rfl, ⟨⟨rfl, rfl, rfl, rfl, rfl⟩, .inl rfl⟩, by decide, rfl, rfl, rfl, by decide⟩
theorem witness_OutEmits : typed.ms.Inv ∧ typed.jumpTaken = false := ⟨start_ms (cells := []) rfl, rfl⟩

/-- A trap table that ends at the last word of memory: the entry of code 15 stands at 2047. -/
def tabled : State := start [(0, 2032), (2047, 300)]

theorem tabled_ms : tabled.ms.Inv := start_ms (cells := [(0, 2032), (2047, 300)]) (by decide)

theorem witness_TrapTransfersOrFaults_transfer : tabled.ms.Inv ∧ 2047#18 = tabled.trapEntryAddr 15 ∧
    (2047#18).toNat < Config.memWords ∧ 300#18 = tabled.trapSaved 2047 ∧ 300#18 ≠ 0 :=
  ⟨tabled_ms, by decide, by decide, by decide, by decide⟩
theorem witness_TrapTransfersOrFaults_empty : tabled.ms.Inv ∧ 2046#18 = tabled.trapEntryAddr 14 ∧
    (2046#18).toNat < Config.memWords ∧ tabled.trapSaved 2046 = 0 := ⟨tabled_ms, by decide, by decide, by decide⟩
theorem witness_TrapTransfersOrFaults_range : (start [(0, 2033)]).ms.Inv ∧ 2048#18 = (start [(0, 2033)]).trapEntryAddr 15 ∧
    Config.memWords ≤ (2048#18).toNat := ⟨start_ms (cells := [(0, 2033)]) (by decide), by decide, by decide⟩
theorem witness_HltHalts : reach.ms.Inv ∧ reach.jumpTaken = false := ⟨reach_ms, rfl⟩

/-! ### Machine faults -/

/-- A state whose X1 leads one word past the memory. -/
def past : State := { start [(8, 2048)] with x1 := 2017, r1 := 5 }

theorem past_ms : past.ms.Inv := start_ms (cells := [(8, 2048)]) (by decide)

theorem witness_IndirectReadFaults : past.ms.Inv ∧ (Instr.jmp 0 1 true 31).wellFormed = true ∧
    eaOperands (.jmp 0 1 true 31) = some (false, 1, true, 31) ∧ 2048#18 = past.eaBase false 1 31 ∧
    Config.memWords ≤ (2048#18).toNat := ⟨past_ms, by decide, by decide, by decide, by decide⟩
theorem witness_DataReadFaults : past.ms.Inv ∧ past.eaReadable false 1 false 31 ∧
    2048#18 = past.effAddr false 1 false 31 ∧ Config.memWords ≤ (2048#18).toNat :=
  ⟨past_ms, (fun hc => by cases hc), by decide, by decide⟩
theorem witness_DataReadFaults_ldx : past.ms.Inv ∧ (1#2) ≠ 0 ∧ past.eaReadable true 1 true 8 ∧
    2048#18 = past.effAddr true 1 true 8 ∧ Config.memWords ≤ (2048#18).toNat :=
  ⟨past_ms, by decide, fun _ => by decide, by decide, by decide⟩
theorem witness_DataWriteFaults : past.ms.Inv ∧ 5#18 = past.getR 1 ∧ past.eaReadable false 1 false 31 ∧
    2048#18 = past.effAddr false 1 false 31 ∧ Config.memWords ≤ (2048#18).toNat :=
  ⟨past_ms, by decide, (fun hc => by cases hc), by decide, by decide⟩
theorem witness_DataWriteFaults_stx : past.ms.Inv ∧ past.getX 1 = some 2017 ∧ past.eaReadable true 1 true 8 ∧
    2048#18 = past.effAddr true 1 true 8 ∧ Config.memWords ≤ (2048#18).toNat :=
  ⟨past_ms, by decide, fun _ => by decide, by decide, by decide⟩
theorem witness_ReservedOperandsRefused : (1#2 = 1 ∨ 1#2 = 3) ∧ (3#2 = 1 ∨ 3#2 = 3) := by decide

/-! ### Steps of the engine -/

/-- A state in micro mode at a step of fetch. -/
def fetching (k : Nat) (mar : Word) : State := { start [] with execMode := .micro, k := k, mar := mar }

theorem fetching_next (k : Nat) (mar : Word) : (fetching k mar).MicroNext := ⟨⟨rfl, rfl, rfl, rfl, rfl⟩, .inl ⟨rfl, rfl⟩⟩

/-- A state in the middle of a fetch whose next turn is one micro-step, in mode continue. -/
def fetchingTurn : State := { start [] with k := 1, mar := 2047, turns := [.micro, .controller] }

theorem witness_FetchTransferSteps : (fetching 0 0).ms.Inv ∧ (fetching 0 0).MicroNext ∧ (fetching 0 0).phase = .run ∧
    (fetching 0 0).k = 0 ∧ (fetching 2 0).MicroNext ∧ (fetching 2 0).k = 2 :=
  ⟨start_ms (cells := []) rfl, fetching_next 0 0, rfl, rfl, fetching_next 2 0, rfl⟩
theorem witness_FetchReadStep : (fetching 1 2047).ms.Inv ∧ (fetching 1 2047).MicroNext ∧
    (fetching 1 2047).mar.toNat < Config.memWords ∧ ¬ (fetching 1 2048).mar.toNat < Config.memWords :=
  ⟨start_ms (cells := []) rfl, fetching_next 1 2047, by decide, by decide⟩
theorem witness_FetchReadStep_turn : fetchingTurn.ms.Inv ∧ fetchingTurn.MicroNext ∧ fetchingTurn.phase = .run ∧
    fetchingTurn.k = 1 ∧ fetchingTurn.execMode ≠ .micro :=
  ⟨start_ms (cells := []) rfl, ⟨⟨rfl, rfl, rfl, rfl, rfl⟩, .inr rfl⟩, rfl, rfl, by decide⟩

/-- A state in micro mode with this word in IR at k = 3, its address holding a reference to a label at 200. -/
def decoding (w : Word) : State := { fetching 3 0 with ir := w, labelRefs := [(100, 200)] }

theorem witness_DecodeStep : (decoding 0x0B0A0).ms.Inv ∧ (decoding 0x0B0A0).MicroNext ∧ (decoding 0x0B0A0).phase = .run ∧
    (decoding 0x0B0A0).k = 3 ∧ read (decoding 0x0B0A0).ir = some (.jmp 0 0 true 8) ∧ (decoding 0x0B0A0).seen 8 8 = 200 ∧
    refusal (decoding 0x16000).ir = some .illegalOpcode :=
  ⟨start_ms (cells := []) rfl, ⟨⟨rfl, rfl, rfl, rfl, rfl⟩, .inl ⟨rfl, rfl⟩⟩, rfl, rfl, by decide, by decide, by decide⟩

/-- A state in micro mode at a step of fault entry. -/
def entering (j : Fin 3) : State := { start [(1, 400)] with execMode := .micro, phase := .faultEntry j }

theorem witness_FaultEntrySteps (j : Fin 3) : (entering j).ms.Inv ∧ (entering j).MicroNext ∧
    (entering j).phase = .faultEntry j :=
  ⟨start_ms (cells := [(1, 400)]) (by decide), ⟨⟨rfl, rfl, rfl, rfl, rfl⟩, .inl ⟨rfl, rfl⟩⟩, rfl⟩

/-- A state whose PC is the last word of memory, or the first address past it. -/
def atPc (pc : PcWord) (w : Word) : State := { start [(2047, w)] with pc := pc }

theorem atPc_running (pc : PcWord) (w : Word) : (atPc pc w).Running := ⟨⟨rfl, rfl, rfl, rfl, rfl⟩, .inl rfl⟩

theorem witness_StepRunsDecoded : (atPc 2047 0x060A0).ms.Inv ∧ (atPc 2047 0x060A0).Running ∧
    (atPc 2047 0x060A0).execMode ≠ .micro ∧ (atPc 2047 0x060A0).phase = .run ∧ (atPc 2047 0x060A0).k = 0 ∧
    (atPc 2047 0x060A0).pc.toNat < Config.memWords ∧
    read ((atPc 2047 0x060A0).ms.view (atPc 2047 0x060A0).pc.toNat) = some (.air 0 5) :=
  ⟨start_ms (cells := [(2047, 0x060A0)]) (by decide), atPc_running _ _, by decide, rfl, rfl, by decide, by decide⟩
theorem witness_StepRunsDecoded_refused : (atPc 2047 0x16000).ms.Inv ∧ (atPc 2047 0x16000).Running ∧
    refusal ((atPc 2047 0x16000).ms.view (atPc 2047 0x16000).pc.toNat) = some .illegalOpcode :=
  ⟨start_ms (cells := [(2047, 0x16000)]) (by decide), atPc_running _ _, by decide⟩
theorem witness_FetchFaults : (atPc 2048 1).ms.Inv ∧ (atPc 2048 1).Running ∧ (atPc 2048 1).execMode ≠ .micro ∧
    (atPc 2048 1).phase = .run ∧ (atPc 2048 1).k = 0 ∧ Config.memWords ≤ (atPc 2048 1).pc.toNat :=
  ⟨start_ms (cells := [(2047, 1)]) (by decide), atPc_running _ _, by decide, rfl, rfl, by decide⟩
theorem witness_ExecuteEnds : (start []).Running ∧ (stepField (start []) State.k).isSome = true ∧
    (fetching 0 0).MicroNext ∧ (stepField (fetching 0 0) State.k).isSome = true :=
  ⟨start_running [], by decide, fetching_next 0 0, by decide⟩
theorem witness_StoppedEngineIdles_halted : ({ start [] with halted := true } : State).ms.Inv ∧
    ({ start [] with halted := true } : State).turns = [] ∧ ({ start [] with halted := true } : State).refused = false ∧
    ({ start [] with halted := true } : State).terminated = false := ⟨start_ms (cells := []) rfl, rfl, rfl, rfl⟩
theorem witness_StoppedEngineIdles_outside : State.reset.ms.Inv ∧ State.reset.turns = [] ∧ State.reset.executing = false ∧
    State.reset.refused = false ∧ State.reset.terminated = false := ⟨cells_inv (cells := []) rfl, rfl, rfl, rfl, rfl⟩
theorem witness_StoppedEngineIdles_shutdown : ({ start [] with terminated := true } : State).ms.Inv ∧
    (start []).ms.wb = [] ∧ (start []).ms.inflight = none ∧ (pendingSide 4).Inv ∧ (pendingSide 4).wb ≠ [] :=
  ⟨start_ms (cells := []) rfl, rfl, rfl, pendingSide_inv_full, by decide⟩
/-- 20_memory.md R77, 93 U28: a turn of the engine after shutdown refuses and marks the state. -/
theorem test_after_shutdown_marks_state : stepField { start [] with terminated := true }
    (fun t => (t.refused, t.refusal, t.executing)) = some (true, some .afterShutdown, false) := by decide
theorem witness_StoppedEngineIdles_refused : ({ start [] with refused := true } : State).ms.Inv ∧
    ({ start [] with refused := true } : State).turns = [] := ⟨start_ms (cells := []) rfl, rfl⟩

theorem witness_ControllerAlone_retire : (pendingSide 4).Inv ∧ (pendingSide 4).inflight ≠ none :=
  ⟨pendingSide_inv_full, by decide⟩

/-- A memory side with one element in the buffer and none in flight. -/
def waitingSide : MemSys :=
  { MemSys.reset with
    l1 := [{ tag := 0, words := [9, 0, 0, 0, 0, 0, 0, 0], writes := 1 }]
    wb := [{ address := 0, word := 9, lineTag := 0 }] }

theorem witness_ControllerAlone_take : waitingSide.Inv ∧ waitingSide.inflight = none ∧ waitingSide.wb ≠ [] :=
  ⟨⟨by decide, by decide, by decide, by decide, by decide, by decide, by decide, by decide⟩, rfl, by decide⟩
theorem witness_ControllerAlone_none : MemSys.reset.Inv ∧ MemSys.reset.inflight = none ∧ MemSys.reset.wb = [] :=
  ⟨cells_inv (cells := []) rfl, rfl, rfl⟩

/-! ### The host -/

theorem witness_HostActions : ({ start [] with halted := true, programKind := .user } : State).halted = true ∧
    ({ start [] with halted := true, programKind := .user } : State).programKind = .user ∧
    ({ start [] with halted := true } : State).programKind = .boot ∧ (start []).halted = false := by decide
theorem witness_LoadProtocol_boot : (start []).ms.Inv ∧ (start []).loadAllowed = true ∧ (start []).ms.view 24 = 0 ∧
    prefetchInRange none = true ∧ ∀ w ∈ (assemble 24 ["AIR 0,5", "HLT"]).words ++ prefetchWords none, w.1 < Config.memWords :=
  ⟨start_ms (cells := []) rfl, by decide, by decide, by decide, by decide⟩
theorem witness_LoadProtocol_user : (start [(24, 1)]).ms.Inv ∧ (start [(24, 1)]).loadAllowed = true ∧
    (start [(24, 1)]).ms.view 24 ≠ 0 ∧ prefetchInRange (some [65, 65535]) = true ∧
    ∀ w ∈ (assemble 100 ["JMP 0,A", "A: HLT"]).words ++ prefetchWords (some [65, 65535]), w.1 < Config.memWords :=
  ⟨start_ms (cells := [(24, 1)]) (by decide), by decide, by decide, by decide, by decide⟩
theorem witness_LoadRefused_instruction : (fetching 1 0).ms.Inv ∧ ¬ ((fetching 1 0).k = 0 ∧ (fetching 1 0).phase = .run) ∧
    (fetching 1 0).halted = false ∧ (fetching 1 0).waitForInterrupt = false :=
  ⟨start_ms (cells := []) rfl, by decide, rfl, rfl⟩
theorem witness_LoadRefused_text : (start []).k = 0 ∧ (start []).phase = .run ∧ (∃ c ∈ [65, 65536], 65536 ≤ c) := by
  decide
theorem witness_LoadRefused_past : prefetchInRange (some (List.replicate 1048 0)) = true ∧
    ∃ w ∈ (assemble 100 ["HLT"]).words ++ prefetchWords (some (List.replicate 1048 0)), Config.memWords ≤ w.1 :=
  ⟨List.all_eq_true.2 fun c hc => by rw [List.eq_of_mem_replicate hc]; decide,
    (Config.prefetchBase + (List.replicate 1048 0).length, 4), List.mem_append_right _ (eot_mem_prefetchWords _),
    by rw [List.length_replicate]⟩

/-! ### The whole machine -/

theorem witness_StepKeepsInv : (start [(100, 0x060A0)]).Inv ∧
    stepField (start [(100, 0x060A0)]) (fun t => t.r0) = some 5 := ⟨start_inv (by decide), by decide⟩
theorem witness_EngineNeverStuck : (start [(100, 0x060A0)]).Inv := start_inv (by decide)
theorem witness_MacroIsMicroSteps : (start [(100, 0x060A0)]).Inv ∧ (start [(100, 0x060A0)]).halted = false ∧
    (start [(100, 0x060A0)]).waitForInterrupt = false ∧ (start [(100, 0x060A0)]).refused = false :=
  ⟨start_inv (by decide), rfl, rfl, rfl⟩

/-- A state with a pending write, and one that main memory has received: the program sees the same words. -/
def undrained : State := { start [] with ms := pendingSide 3 }
def drained : State := { start [] with ms := (pendingSide 3).drain }

theorem witness_MemorySideInvisible : undrained.Inv ∧ drained.Inv ∧ undrained.SameToProgram drained ∧
    undrained.terminated = false ∧ (stepField undrained State.pc).isSome = true ∧ undrained.ms ≠ drained.ms :=
  ⟨withSide_inv pendingSide_inv_three, withSide_inv (MemSys.drain_shows pendingSide_inv_three).1,
    ⟨rfl, fun a => ((MemSys.drain_shows pendingSide_inv_three).2 a).symm⟩, rfl, by decide, by decide⟩
theorem witness_MsrMfrUntouched_exec :
    (match exec (.air 0 5) (start []) with | .next t => some t.r0 | _ => none) = some 5 := by decide
theorem witness_MsrMfrUntouched_step :
    (∀ source prefetch, ({ start [] with turns := [.act .shutdown] } : State).turns.head? ≠ some (.act (.loadRom source prefetch))) ∧
    stepField { start [] with turns := [.act .shutdown] } State.terminated = some true ∧
    (stepField (start []) State.k).isSome = true := ⟨by simp, by decide, by decide⟩

end Sys2Proof.Tests
end

section
/-! PROOFS. The statements on the state (10_state.md): what reset leaves, the invariant that every step keeps, and the two
parts of the state that a step does not see: the memory side behind its view, and MSR and MFR. Each statement on `step`
is proved for the turn that a step takes (`step_eq`), agent by agent. -/

namespace Sys2Proof.Machine

variable {s t : State}

/-! ### Reset (10_state.md R42, R43) -/

/-- Settles O6: each field is read off `State.reset`, the registers one by one. -/
theorem resetValues : Obligations.ResetValues := by
  unfold Obligations.ResetValues
  have hreg : ∀ n : RegName, n ≠ .pc → State.reset.reg n = 0 := by
    intro n hn
    cases n with
    | pc => exact absurd rfl hn
    | _ => rfl
  exact ⟨hreg, rfl, rfl, rfl, rfl, rfl, rfl, rfl, rfl, rfl, rfl, fun _ => rfl, fun _ => rfl, rfl, rfl, rfl, rfl, rfl, rfl,
    rfl, rfl⟩

/-- Where the registers, flags and control fields are those of construction, the engine is between instructions and
neither waits nor is halted, so a sound memory side is all that the invariant of the engine asks for. -/
theorem State.CoreInv.ofLoadReset (e : s = s.loadReset) (hm : s.ms.Inv) : s.CoreInv := by
  have hk : ¬ 4 ≤ s.loadReset.k := Nat.not_succ_le_zero 3
  rw [e]
  exact {
    ms := hm
    ccOne := rfl
    msrZero := rfl
    mfrZero := rfl
    noJump := rfl
    ptrInside := .inr ⟨rfl, rfl⟩
    waitsAtIn := fun hc => nomatch hc
    haltsBetween := fun hc => nomatch hc
    inTail := fun _ h4 => absurd h4 hk
    trampoline := fun _ h4 => absurd h4 hk }

/-- Settles O7: construction leaves the fields as a load resets them, a sound memory side, and no `execute`. -/
theorem resetMeetsInv : Obligations.ResetMeetsInv := by
  unfold Obligations.ResetMeetsInv
  exact ⟨.ofLoadReset rfl MemSys.reset_inv, fun hc => nomatch hc⟩

/-! ### What a step is -/

/-- What a turn does to the state it is taken in (20_memory.md R75; log entry 8). -/
def Turn.run : Turn → State → Out
  | .act a => hostAct a
  | .controller => controllerStep
  | .micro => engineTurn engineMicro
  | .engine => engineStep

/-- A step takes the first turn listed, the engine's where none is. -/
theorem step_eq (s : State) :
    step s = (s.turns.head?.getD .engine).run { s with turns := s.turns.tail } := by
  cases h : s.turns with
  | nil =>
    have hs : ({ s with turns := List.tail [] } : State) = s := by rw [List.tail_nil, ← h]
    rw [hs, step, h]
    rfl
  | cons a rest =>
    rw [step, h]
    cases a <;> rfl

/-- What a turn of the engine can answer: after shutdown the refusal, a move of the controller alone, or micro-steps
of an engine inside an `execute` (60_exceptions.md R316). -/
theorem engineTurn_next {run : State → Out} (h : engineTurn run s = .next t) :
    t = s.refuse .afterShutdown ∨ t = s.withMs s.ms.startTurn ∨
      (s.canRun = true ∧ ∃ u, run s = .next u ∧ t = u.settle) := by
  unfold engineTurn at h
  split at h
  · cases h
  · split at h
    · split at h <;> cases h
      · exact .inl rfl
      · exact .inr (.inl rfl)
    · split at h
      · next hc =>
        rw [Bool.and_eq_true] at hc
        cases hr : run s with
        | next u => rw [hr] at h; cases h; exact .inr (.inr ⟨hc.2, u, rfl, rfl⟩)
        | fault f => rw [hr] at h; cases h
        | refused r => rw [hr] at h; cases h
      · cases h
        exact .inr (.inl rfl)

/-- An engine that can run is neither halted nor waiting nor refused (41_execution_cycle.md R194, R195). -/
theorem State.canRun_flags (h : s.canRun = true) :
    s.halted = false ∧ s.waitForInterrupt = false ∧ s.refused = false := by
  simp only [State.canRun, Bool.and_eq_true, Bool.not_eq_true', and_assoc] at h
  obtain ⟨hh, hw, hr, -⟩ := h
  exact ⟨hh, hw, hr⟩

/-- Words of which a load finds none past 2047 are in range (70_reset_and_hazards.md R341). -/
theorem words_inRange {ws : List (Nat × Word)} (h : ¬ ws.any (fun w => decide (Config.memWords ≤ w.1)) = true) :
    ∀ w ∈ ws, w.1 < Config.memWords :=
  fun w hw => Nat.lt_of_not_le fun hc => h (List.any_eq_true.2 ⟨w, hw, decide_eq_true hc⟩)

/-- What a load can answer: a refusal, or the state of the load protocol with every word in range
(70_reset_and_hazards.md R341). -/
theorem hostLoadRom_next {source : List String} {prefetch : Option (List Nat)}
    (h : hostLoadRom source prefetch s = .next t) :
    (∃ r, t = s.refuse r) ∨ ∃ base a data, (∀ w ∈ a.words ++ data, w.1 < Config.memWords) ∧
      t = s.loadedWith base a data := by
  unfold hostLoadRom at h
  dsimp only at h
  split at h
  · cases h; exact .inl ⟨_, rfl⟩
  · split at h
    · cases h; exact .inl ⟨_, rfl⟩
    · split at h
      · cases h; exact .inl ⟨_, rfl⟩
      · next hw =>
        cases h
        exact .inr ⟨_, _, _, words_inRange hw, rfl⟩

/-! ### An instruction keeps the invariant, since its micro-steps do (60_exceptions.md R317) -/

/-- A turn in a mode that runs whole instructions is its micro-steps, wherever in the instruction it starts. -/
theorem engineMacro_microSteps (hs : s.ms.Inv) (hw : s.waitForInterrupt = false) (hr : s.refused = false) :
    engineMacro s = microSteps 32 s := by
  unfold engineMacro
  cases hp : s.phase with
  | faultEntry j => exact faultEntry_microSteps (2 - j.val) j s 32 (by omega) hs hw hr hp (by omega)
  | run =>
    dsimp only
    split
    · have hk : s.k = 0 ∨ s.k = 1 ∨ s.k = 2 ∨ s.k = 3 := by omega
      rcases hk with hk | hk | hk | hk <;> rw [hk]
      · exact fetch0_microSteps hs hp hw hr hk 32 (by omega)
      · exact fetch1_microSteps hs hp hw hr hk 32 (by omega)
      · exact fetch2_microSteps hs hp hw hr hk 32 (by omega)
      · exact decodeAndExec_microSteps hs hp hw hr hk 32 (by omega)
    · exact resumeTail_microSteps hs hp hw hr (by omega) 32 (by omega)

/-- Micro-steps keep the invariant: they go on only from a state inside an instruction, where the engine is not halted. -/
theorem State.CoreInv.microSteps : ∀ (n : Nat) {s t : State}, s.CoreInv → s.halted = false → s.waitForInterrupt = false →
    microSteps n s = .next t → t.CoreInv
  | 0, s, t, h, _, _, he => by cases he; exact h
  | n + 1, s, t, h, hh, hw, he => by
    rw [microSteps_succ] at he
    cases hm : engineMicro s with
    | next u =>
      have hu := h.microStep hh hw hm
      rw [hm] at he
      dsimp only [afterMicro] at he
      split at he
      · cases he; exact hu
      · next hgo =>
        simp only [Bool.or_eq_true, not_or, Bool.not_eq_true] at hgo
        obtain ⟨⟨hb, hw'⟩, -⟩ := hgo
        have hh' : u.halted = false := by
          by_contra hc
          obtain ⟨hp, hk⟩ := hu.haltsBetween (by simpa using hc)
          rw [State.betweenInstrs, hp, hk] at hb
          cases hb
        exact State.CoreInv.microSteps n hu hh' hw' he
    | fault f => rw [hm] at he; cases he
    | refused r => rw [hm] at he; cases he

theorem State.CoreInv.engineMacro (h : s.CoreInv) (hc : s.canRun = true) (he : engineMacro s = .next t) :
    t.CoreInv := by
  obtain ⟨hh, hw, hr⟩ := State.canRun_flags hc
  rw [engineMacro_microSteps h.ms hw hr] at he
  exact h.microSteps 32 hh hw he

theorem State.CoreInv.engineMicro (h : s.CoreInv) (hc : s.canRun = true) (he : engineMicro s = .next t) :
    t.CoreInv := by
  obtain ⟨hh, hw, -⟩ := State.canRun_flags hc
  exact h.microStep hh hw he

theorem State.CoreInv.runByMode (h : s.CoreInv) (hc : s.canRun = true) (he : runByMode s = .next t) : t.CoreInv := by
  unfold Machine.runByMode at he
  split at he
  · exact h.engineMicro hc he
  · exact h.engineMacro hc he
  · exact h.engineMacro hc he

/-! ### What the invariant does not speak of -/

/-- The invariant of the engine does not speak of the general and index registers, the modes, the turns to come, nor of
whether an `execute` or a shutdown is under way, and of the memory side only through its soundness and its view. -/
theorem State.CoreInv.frame (h : s.CoreInv) (hm : t.ms.Shows s.ms.view)
    (e : s = { t with
      r0 := s.r0, r1 := s.r1, r2 := s.r2, r3 := s.r3, x1 := s.x1, x2 := s.x2, x3 := s.x3, ms := s.ms
      execMode := s.execMode, programKind := s.programKind, terminated := s.terminated
      executing := s.executing, turns := s.turns }) : t.CoreInv := by
  rw [e] at h
  exact ⟨hm.1, h.ccOne, h.msrZero, h.mfrZero, h.noJump, h.ptrInside, h.waitsAtIn, h.haltsBetween, h.inTail,
    fun hp hk ha v hl => (hm.2 _).trans (h.trampoline hp hk ha v hl)⟩

/-- A move of the controller, or several, keep the invariant (20_memory.md R75, R78). -/
theorem State.Inv.withMs (h : s.Inv) {m : MemSys} (hm : m.Shows s.ms.view) : (s.withMs m).Inv :=
  ⟨h.toCoreInv.frame hm rfl, h.executes⟩

theorem State.Inv.withTurns (h : s.Inv) (ts : List Turn) : State.Inv { s with turns := ts } :=
  ⟨h.toCoreInv.frame h.ms.shows rfl, h.executes⟩

theorem State.Inv.refuse (h : s.Inv) (r : Refusal) : (s.refuse r).Inv :=
  ⟨h.toCoreInv.refuse r, fun hc => nomatch hc⟩

/-- Where the host lets the engine go on, it does so only if nothing stops it (60_exceptions.md R317). -/
theorem State.CoreInv.resume (h : s.CoreInv) : s.resume.Inv :=
  ⟨h.frame h.ms.shows rfl, fun hc => hc⟩

/-! ### The host's actions keep the invariant (60_exceptions.md R316) -/

/-- A load resets the engine over a sound memory side; what the program sees of it does not matter between instructions
(70_reset_and_hazards.md R341). -/
theorem State.Inv.loadedWith (h : s.Inv) {base : Nat} {a : AsmResult} {data : List (Nat × Word)}
    (hw : ∀ w ∈ a.words ++ data, w.1 < Config.memWords) : (s.loadedWith base a data).Inv :=
  ⟨.ofLoadReset rfl (MemSys.loaded_shows h.ms _ hw).1, fun _ => rfl⟩

theorem State.Inv.hostLoadRom (h : s.Inv) {source : List String} {prefetch : Option (List Nat)}
    (he : hostLoadRom source prefetch s = .next t) : t.Inv := by
  obtain ⟨r, rfl⟩ | ⟨base, a, data, hw, rfl⟩ := hostLoadRom_next he
  · exact h.refuse r
  · exact h.loadedWith hw

theorem State.Inv.hostExecute (h : s.Inv) {mode : ExecMode} (he : hostExecute mode s = .next t) : t.Inv := by
  unfold Machine.hostExecute at he
  split at he <;> cases he
  · exact h.refuse _
  · exact State.CoreInv.resume (h.toCoreInv.frame (t := { s with execMode := mode }) h.ms.shows rfl)

/-- An interrupt only ends a wait (60_exceptions.md R309). -/
theorem State.Inv.hostInterrupt (h : s.Inv) {kind : InterruptKind} (he : hostInterrupt kind s = .next t) : t.Inv := by
  cases kind with
  | io =>
    have hc : State.CoreInv { s with waitForInterrupt := false } :=
      ⟨h.ms, h.ccOne, h.msrZero, h.mfrZero, h.noJump, h.ptrInside, (fun hc => nomatch hc), h.haltsBetween, h.inTail,
        h.trampoline⟩
    unfold Machine.hostInterrupt at he
    dsimp only at he
    split at he <;> cases he
    · exact hc.resume
    · exact h
  | other n => cases he; exact h.refuse _

/-- Appended codes leave the pointer at its character, or at the first of them (60_exceptions.md R316). -/
theorem State.Inv.hostFeedInput (h : s.Inv) {str : List Nat} (he : hostFeedInput str s = .next t) : t.Inv := by
  unfold Machine.hostFeedInput at he
  split at he <;> cases he
  · have hptr : s.ptr < (s.inbuf ++ str.map (BitVec.ofNat 16)).length ∨
        (s.inbuf ++ str.map (BitVec.ofNat 16) = [] ∧ s.ptr = 0) := by
      rcases h.ptrInside with hlt | ⟨hnil, h0⟩
      · exact .inl (by rw [List.length_append]; omega)
      · rw [hnil, h0, List.nil_append]
        cases str with
        | nil => exact .inr ⟨rfl, rfl⟩
        | cons c cs => exact .inl (Nat.succ_pos _)
    exact ⟨⟨h.ms, h.ccOne, h.msrZero, h.mfrZero, h.noJump, hptr, h.waitsAtIn, h.haltsBetween, h.inTail, h.trampoline⟩,
      h.executes⟩
  · exact h.refuse _

/-- The HLT reaction clears registers and, after a user program, starts an instruction at 24 (60_exceptions.md R318). -/
theorem State.Inv.hostHltReaction (h : s.Inv) (he : hostHltReaction s = .next t) : t.Inv := by
  have hclear : s.clearGeneral.CoreInv := h.toCoreInv.frame h.ms.shows rfl
  unfold Machine.hostHltReaction at he
  split at he
  · next hh =>
    split at he <;> cases he
    · refine State.CoreInv.resume ⟨h.ms, h.ccOne, h.msrZero, h.mfrZero, rfl, h.ptrInside, ?_, (fun hc => nomatch hc),
        (fun _ hk => nomatch hk), fun _ hk => nomatch hk⟩
      intro hw
      have hk4 := (h.waitsAtIn hw).2
      rw [(h.haltsBetween hh).2] at hk4
      cases hk4
    · exact ⟨hclear, h.executes⟩
  · cases he
    exact h.refuse _

theorem State.Inv.hostAct (h : s.Inv) (a : HostAct) (he : hostAct a s = .next t) : t.Inv := by
  cases a with
  | loadRom source prefetch => exact h.hostLoadRom he
  | execute mode => exact h.hostExecute he
  | executeDirect => cases he; exact h.refuse _
  | interrupt kind => exact h.hostInterrupt he
  | feedInput str => exact h.hostFeedInput he
  | hltReaction => exact h.hostHltReaction he
  | shutdown => cases he; exact ⟨h.toCoreInv.frame h.ms.shows rfl, fun hc => nomatch hc⟩

/-! ### Every turn keeps the invariant -/

/-- A turn of the engine keeps the invariant where what it runs does. -/
theorem State.Inv.engineTurn (h : s.Inv) {run : State → Out}
    (hrun : ∀ u, s.canRun = true → run s = .next u → u.CoreInv) (he : engineTurn run s = .next t) : t.Inv := by
  obtain rfl | rfl | ⟨hc, u, hu, rfl⟩ := engineTurn_next he
  · exact h.refuse _
  · exact h.withMs (MemSys.startTurn_shows h.ms)
  · exact (hrun u hc hu).settled

theorem State.Inv.turn (h : s.Inv) (a : Turn) (he : a.run s = .next t) : t.Inv := by
  cases a with
  | act a => exact h.hostAct a he
  | controller => cases he; exact h.withMs (MemSys.ctrlMove_shows h.ms)
  | micro => exact h.engineTurn (fun _ hc hu => h.toCoreInv.engineMicro hc hu) he
  | engine => exact h.engineTurn (fun _ hc hu => h.toCoreInv.runByMode hc hu) he

/-- Settles O56: a step is one turn, of the host, the controller or the engine, and each keeps the invariant; the
engine's instruction is its micro-steps, each of which does. -/
theorem stepKeepsInv : Obligations.StepKeepsInv := by
  unfold Obligations.StepKeepsInv
  intro s t h he
  rw [step_eq] at he
  exact (h.withTurns _).turn _ he

/-! ### What the host's actions do not see -/

/-- A host action other than a load answers a next state, and neither reads nor writes the memory side, MSR or MFR. -/
theorem hostAct_unseen (a : HostAct) (ha : ∀ source prefetch, a ≠ .loadRom source prefetch) (s : State) :
    ∃ u : State, ∀ m msr mfr,
      hostAct a ((s.withMs m).withMsrMfr msr mfr) = .next ((u.withMs m).withMsrMfr msr mfr) := by
  cases a with
  | loadRom source prefetch => exact absurd rfl (ha source prefetch)
  | execute mode =>
    by_cases hc : (s.refused || s.terminated) = true
    · exact ⟨s.refuse .executeNotAllowed, fun _ _ _ => if_pos hc⟩
    · exact ⟨State.resume { s with execMode := mode }, fun _ _ _ => if_neg hc⟩
  | executeDirect => exact ⟨s.refuse .executeDirect, fun _ _ _ => rfl⟩
  | interrupt kind =>
    cases kind with
    | io =>
      by_cases hc : s.waitForInterrupt = true
      · exact ⟨State.resume { s with waitForInterrupt := false }, fun _ _ _ => congrArg _ (if_pos hc)⟩
      · exact ⟨s, fun _ _ _ => congrArg _ (if_neg hc)⟩
    | other n => exact ⟨s.refuse .interruptKind, fun _ _ _ => rfl⟩
  | feedInput str =>
    by_cases hc : str.all (fun c => decide (c < 65536)) = true
    · exact ⟨{ s with inbuf := s.inbuf ++ str.map (BitVec.ofNat 16) }, fun _ _ _ => if_pos hc⟩
    · exact ⟨s.refuse .charCodeTooLarge, fun _ _ _ => if_neg hc⟩
  | hltReaction =>
    by_cases hc : s.halted = true
    · cases hk : s.programKind with
      | user =>
        refine ⟨State.resume { s.clearGeneral with
          pc := BitVec.ofNat 12 Config.bootBase, jumpTaken := false, k := 0, halted := false, programKind := .boot },
          fun m msr mfr => (if_pos hc).trans ?_⟩
        rw [show ((s.withMs m).withMsrMfr msr mfr).programKind = .user from hk]
        rfl
      | boot =>
        refine ⟨s.clearGeneral, fun m msr mfr => (if_pos hc).trans ?_⟩
        rw [show ((s.withMs m).withMsrMfr msr mfr).programKind = .boot from hk]
        rfl
    · exact ⟨s.refuse .notHalted, fun _ _ _ => if_neg hc⟩
  | shutdown => exact ⟨{ s with terminated := true, executing := false }, fun _ _ _ => rfl⟩

/-! ### The memory side is seen only through its view (10_state.md R40; 20_memory.md R75, R78) -/

/-- An outcome related to a next state is a next state. -/
theorem OutSim.of_next {o : Out} (h : OutSim (.next s) o) : ∃ t, o = .next t ∧ Sim s t := by
  cases h with
  | next h => exact ⟨_, rfl, h⟩

/-- A load drains both memory sides to the same words, so it takes the same base and stores over the same memory
(70_reset_and_hazards.md R341, R342). -/
theorem hostLoadRom_sim (source : List String) (prefetch : Option (List Nat)) (h : Sim s t) :
    OutSim (hostLoadRom source prefetch s) (hostLoadRom source prefetch t) := by
  have hmem : t.ms.drain.mem = s.ms.drain.mem := MemSys.drain_mem_eq h.right h.left fun a => (h.view a).symm
  unfold hostLoadRom
  rw [h.congr (f := State.loadAllowed) (fun _ _ => rfl), hmem]
  dsimp only
  split
  · exact h.refuse _
  · split
    · exact h.refuse _
    · split
      · exact h.refuse _
      · next hw =>
        generalize loadBase s.ms.drain.mem = base at hw ⊢
        have hs := MemSys.loaded_shows h.left _ (words_inRange hw)
        have ht := MemSys.loaded_shows h.right _ (words_inRange hw)
        rw [hmem] at ht
        have e : t.loadedWith base (assemble base source) (prefetchWords prefetch) =
            (s.loadedWith base (assemble base source) (prefetchWords prefetch)).withMs
              (t.ms.loaded ((assemble base source).words ++ prefetchWords prefetch)) :=
          congrArg (State.loadedWith · base (assemble base source) (prefetchWords prefetch)) h.rest
        rw [e]
        exact .next (Sim.of (u := s.loadedWith base (assemble base source) (prefetchWords prefetch)) hs ht)

theorem hostAct_sim (a : HostAct) (h : Sim s t) : OutSim (hostAct a s) (hostAct a t) := by
  by_cases ha : ∃ source prefetch, a = .loadRom source prefetch
  · obtain ⟨source, prefetch, rfl⟩ := ha
    exact hostLoadRom_sim source prefetch h
  · obtain ⟨u, hu⟩ := hostAct_unseen a (fun source prefetch hc => ha ⟨source, prefetch, hc⟩) s
    have hput : ∀ m, hostAct a (s.withMs m) = .next ((u.withMsrMfr s.msr s.mfr).withMs m) := fun m => hu m s.msr s.mfr
    rw [h.rest, hput, show hostAct a s = _ from hput s.ms]
    exact .next (Sim.of h.left.shows h.shows)

theorem Turn.run_sim (a : Turn) (h : Sim s t) (hterm : s.terminated = false) : OutSim (a.run s) (a.run t) := by
  cases a with
  | act a => exact hostAct_sim a h
  | controller => exact controllerStep_sim h
  | micro => exact engineTurn_sim (fun _ _ h => engineMicro_sim h) h hterm
  | engine => exact engineTurn_sim runByMode_sim h hterm

theorem Sim.withTurns (h : Sim s t) (ts : List Turn) : Sim { s with turns := ts } { t with turns := ts } :=
  ⟨h.left, h.right, congrArg (fun u : State => { u with turns := ts }) h.rest, h.view⟩

theorem step_sim (h : Sim s t) (hterm : s.terminated = false) : OutSim (step s) (step t) := by
  rw [step_eq, step_eq, h.congr (f := State.turns) (fun _ _ => rfl)]
  exact Turn.run_sim _ (h.withTurns _) hterm

/-- Settles O59: two such states are related by `Sim`, and every turn keeps them so. -/
theorem memorySideInvisible : Obligations.MemorySideInvisible := by
  unfold Obligations.MemorySideInvisible
  intro s t s' hs ht hst hterm he
  obtain ⟨hrest, hview⟩ := hst
  have hsim : OutSim (step s) (step t) := step_sim ⟨hs.ms, ht.ms, hrest, hview⟩ hterm
  rw [he] at hsim
  obtain ⟨t', ht', h⟩ := hsim.of_next
  exact ⟨t', ht', h.rest, h.view⟩

/-! ### MSR and MFR are neither read nor written (10_state.md R29, R30; decision D25) -/

/-- What takes states that differ only in MSR and MFR to outcomes that differ only there leaves MSR and MFR: with their
own values put in, it answers the same state with these values put in. -/
theorem untouched_of_unread {run : State → Out}
    (h : ∀ msr mfr, run (s.withMsrMfr msr mfr) = outMap (State.withMsrMfr msr mfr) (run s)) (he : run s = .next t) :
    t.msr = s.msr ∧ t.mfr = s.mfr ∧ ∀ msr mfr, run (s.withMsrMfr msr mfr) = .next (t.withMsrMfr msr mfr) := by
  have hput : ∀ msr mfr, run (s.withMsrMfr msr mfr) = .next (t.withMsrMfr msr mfr) := fun msr mfr => by
    rw [h, he]; rfl
  have hself : run s = .next (t.withMsrMfr s.msr s.mfr) := hput s.msr s.mfr
  rw [he] at hself
  have e : t = t.withMsrMfr s.msr s.mfr := Host.Outcome.next.inj hself
  have hmsr : t.msr = (t.withMsrMfr s.msr s.mfr).msr := congrArg State.msr e
  have hmfr : t.mfr = (t.withMsrMfr s.msr s.mfr).mfr := congrArg State.mfr e
  exact ⟨hmsr, hmfr, hput⟩

/-- A run that takes states that differ only in MSR and MFR to outcomes that differ only there. -/
def RunUnread (run : State → Out) : Prop :=
  ∀ msr mfr s, run (s.withMsrMfr msr mfr) = outMap (State.withMsrMfr msr mfr) (run s)

theorem RunUnread.seq {fin onFault : State → Out} (hf : RunUnread fin) (ho : RunUnread onFault) {ops : List Micro}
    (h : ∀ op ∈ ops, Unread op) : RunUnread (runSeq fin onFault ops) :=
  fun msr mfr s => runSeq_unread (hf msr mfr) (ho msr mfr) ops h s

theorem RunUnread.done : RunUnread .next := fun _ _ _ => rfl

theorem runFaultEntry_unread (j : Nat) : RunUnread (runFaultEntry j) :=
  .seq .done .done fun op hop => faultEntryOps_unread op (List.mem_of_mem_drop hop)

/-- The micro-steps to come are the last ones of some tail (41_execution_cycle.md R187). -/
theorem tailAt_eq_drop {ops : List Micro} (h : tailAt s = .ok ops) : ∃ i n, ops = (stepsOf (tailOf i)).drop n := by
  unfold tailAt at h
  split at h
  · cases h
  · next i _ =>
    split at h
    · cases h
    · next hd => cases h; exact ⟨i, _, hd.symm⟩

theorem tailAt_unread {ops : List Micro} (h : tailAt s = .ok ops) : ∀ op ∈ ops, Unread op := by
  obtain ⟨i, n, rfl⟩ := tailAt_eq_drop h
  exact fun op hop => Unread.stepsOf (tailOf_unread i) op (List.mem_of_mem_drop hop)

/-- The next micro-op, be it of fault entry, of fetch, decode or of a tail. -/
theorem microOpAt_unread {op : Micro} (h : microOpAt s = .ok op) : Unread op := by
  unfold microOpAt at h
  split at h
  · split at h
    · cases h
    · next ho => cases h; exact faultEntryOps_unread _ (List.mem_of_getElem? ho)
  · split at h
    · next ho => cases h; exact fetchOps_unread _ (List.mem_of_getElem? ho)
    · split at h
      · split at h
        · cases h
        · cases h; exact unread_decodeStep _
      · split at h
        · cases h
        · next ops ho =>
          cases h
          cases ops with
          | nil => exact absurd rfl (tailAt_ne ho)
          | cons a b => exact tailAt_unread ho a (List.mem_cons_self ..)

theorem engineMicro_unread : RunUnread engineMicro := fun msr mfr s => by
  have hop : microOpAt (s.withMsrMfr msr mfr) = microOpAt s := rfl
  unfold engineMicro
  rw [hop]
  split
  · rfl
  · next op ho =>
    exact RunUnread.seq .done .done (fun o hin => by rw [List.mem_singleton.1 hin]; exact microOpAt_unread ho) msr mfr s

theorem decodeAndExec_unread : RunUnread decodeAndExec := fun msr mfr s => by
  have hir : (s.withMsrMfr msr mfr).ir = s.ir := rfl
  unfold decodeAndExec
  rw [hir]
  split
  · rfl
  · exact exec_unread _ s

theorem resumeTail_unread : RunUnread resumeTail := fun msr mfr s => by
  have ht : tailAt (s.withMsrMfr msr mfr) = tailAt s := rfl
  unfold resumeTail
  rw [ht]
  split
  · rfl
  · next ops ho => exact RunUnread.seq .done (runFaultEntry_unread 0) (tailAt_unread ho) msr mfr s

theorem engineMacro_unread : RunUnread engineMacro := fun msr mfr s => by
  have hp : (s.withMsrMfr msr mfr).phase = s.phase := rfl
  have hk : (s.withMsrMfr msr mfr).k = s.k := rfl
  unfold engineMacro
  rw [hp, hk]
  split
  · exact runFaultEntry_unread _ msr mfr s
  · split
    · exact RunUnread.seq decodeAndExec_unread (runFaultEntry_unread 0)
        (fun op hop => fetchOps_unread op (List.mem_of_mem_drop hop)) msr mfr s
    · exact resumeTail_unread msr mfr s

theorem runByMode_unread : RunUnread runByMode := fun msr mfr s => by
  have hm : (s.withMsrMfr msr mfr).execMode = s.execMode := rfl
  unfold runByMode
  rw [hm]
  split
  · exact engineMicro_unread msr mfr s
  · exact engineMacro_unread msr mfr s
  · exact engineMacro_unread msr mfr s

theorem engineTurn_unread {run : State → Out} (h : RunUnread run) : RunUnread (engineTurn run) := fun msr mfr s => by
  have hr : (s.withMsrMfr msr mfr).refused = s.refused := rfl
  have ht : (s.withMsrMfr msr mfr).terminated = s.terminated := rfl
  have hd : (s.withMsrMfr msr mfr).ms = s.ms := rfl
  have hx : ((s.withMsrMfr msr mfr).executing && (s.withMsrMfr msr mfr).canRun) = (s.executing && s.canRun) := rfl
  unfold engineTurn
  rw [hr, ht, hd, hx, h]
  split
  · rfl
  · split
    · split <;> rfl
    · split
      · cases run s <;> rfl
      · rfl

theorem hostAct_unread (a : HostAct) (ha : ∀ source prefetch, a ≠ .loadRom source prefetch) : RunUnread (hostAct a) :=
  fun msr mfr s => by
    obtain ⟨u, hu⟩ := hostAct_unseen a ha s
    have hput : ∀ msr mfr, hostAct a (s.withMsrMfr msr mfr) = .next ((u.withMs s.ms).withMsrMfr msr mfr) := hu s.ms
    rw [hput, show hostAct a s = _ from hput s.msr s.mfr]
    rfl

theorem Turn.run_unread (a : Turn) (ha : ∀ source prefetch, a ≠ .act (.loadRom source prefetch)) : RunUnread a.run := by
  cases a with
  | act a => exact hostAct_unread a fun source prefetch hc => ha source prefetch (congrArg Turn.act hc)
  | controller => exact fun _ _ _ => rfl
  | micro => exact engineTurn_unread engineMicro_unread
  | engine => exact engineTurn_unread runByMode_unread

/-- A step whose turn is not a load, from states that differ only in MSR and MFR. -/
theorem step_unread (hs : ∀ source prefetch, s.turns.head? ≠ some (.act (.loadRom source prefetch))) (msr : Word)
    (mfr : BitVec 4) : step (s.withMsrMfr msr mfr) = outMap (State.withMsrMfr msr mfr) (step s) := by
  have ha : ∀ source prefetch, s.turns.head?.getD .engine ≠ .act (.loadRom source prefetch) := by
    intro source prefetch hc
    cases ht : s.turns.head? with
    | none => rw [ht] at hc; cases hc
    | some a => rw [ht] at hc; exact hs source prefetch (by rw [ht, ← hc]; rfl)
  rw [step_eq, step_eq]
  exact Turn.run_unread _ ha msr mfr { s with turns := s.turns.tail }

/-- Settles O60: an instruction and every turn of the engine are made of micro-ops, none of which reads or writes MSR or
MFR, and a move of the controller and a host action other than a load do not look at them. -/
theorem msrMfrUntouched : Obligations.MsrMfrUntouched := by
  unfold Obligations.MsrMfrUntouched
  refine ⟨fun i s t msr mfr he => ?_, fun s t msr mfr hs he => ?_⟩
  · obtain ⟨hmsr, hmfr, hput⟩ := untouched_of_unread (run := exec i) (fun _ _ => exec_unread i s) he
    exact ⟨hmsr, hmfr, hput msr mfr⟩
  · obtain ⟨hmsr, hmfr, hput⟩ := untouched_of_unread (run := step) (step_unread hs) he
    exact ⟨hmsr, hmfr, hput msr mfr⟩

end Sys2Proof.Machine
end

section
/-! PROOFS. The statements on the memory side (20_memory.md): main memory, the cache, the write buffer, the controller and
the engine's accesses, and that the engine is never held for ever. Each operation of the memory side has an equation, or
the list of its cases, here or in Laws/MemSys.lean; the proofs cite those. -/

namespace Sys2Proof.Machine

variable {m m' : MemSys} {L : Line} {a : Nat}

/-! ### The engine is never stuck (20_memory.md R76; 41_execution_cycle.md R192) -/

/-- No turn of any agent faults over a sound memory side: the host's actions and the controller's moves have no fault to
raise, and a held micro-step of the engine is taken once the controller has made room. -/
theorem Turn.run_ne_fault (turn : Turn) {s : State} (h : s.ms.Inv) (f : Fault) : turn.run s ≠ .fault f := by
  cases turn with
  | act a => exact (hostAct_sim a (Sim.refl h)).refl_not_fault f
  | controller => exact (controllerStep_sim (Sim.refl h)).refl_not_fault f
  | micro => exact engineTurn_ne_fault (fun _ _ => engineMicro_sim) h f
  | engine => exact engineTurn_ne_fault runByMode_sim h f

/-- Settles O57: a step is one turn, and no turn of any agent faults over a sound memory side. -/
theorem engineNeverStuck : Obligations.EngineNeverStuck := by
  unfold Obligations.EngineNeverStuck
  intro s f h
  rw [step_eq]
  exact Turn.run_ne_fault _ (h.withTurns s.turns.tail).ms f

/-! ### Cache hits and misses (R64 to R66) -/

theorem MemSys.cacheRead_hit (h : lookup m.l1 a = some L) : m.cacheRead a = some (L.words.getD (a - L.tag) 0) := by
  rw [MemSys.cacheRead, h]

theorem MemSys.cacheRead_miss (h : lookup m.l1 a = none) : m.cacheRead a = none := by
  rw [MemSys.cacheRead, h]

theorem MemSys.cacheWrite_hit (h : lookup m.l1 a = some L) (w : Word) :
    m.cacheWrite w a = some { m with
      l1 := updateFirst (fun K => K.covers a) (fun K => K.store a w) m.l1
      wb := m.wb ++ [{ address := a, word := w, lineTag := L.tag }] } := by
  rw [MemSys.cacheWrite, h]

theorem MemSys.cacheWrite_miss (h : lookup m.l1 a = none) (w : Word) : m.cacheWrite w a = none := by
  rw [MemSys.cacheWrite, h]

/-- Changing the first line that meets a test, where it stands in the scan. -/
theorem updateFirst_append {p : Line → Bool} {f : Line → Line} {bs : List Line} (hL : p L = true) :
    ∀ {as : List Line}, (∀ K ∈ as, (!p K) = true) → updateFirst p f (as ++ L :: bs) = as ++ f L :: bs
  | [], _ => if_pos hL
  | K :: as, h => by
    have hK : ¬ p K = true := by simpa using h K (List.mem_cons_self ..)
    have ih := updateFirst_append (f := f) (bs := bs) hL fun K' hK' => h K' (List.mem_cons_of_mem K hK')
    rw [List.cons_append, updateFirst, if_neg hK, ih, List.cons_append]

/-- A hit picks out one place of the scan, and storing a word there changes that place alone (20_memory.md R64, R66). -/
theorem lookup_store {ls : List Line} (h : lookup ls a = some L) (w : Word) :
    ∃ as bs, ls = as ++ L :: bs ∧
      updateFirst (fun K => K.covers a) (fun K => K.store a w) ls = as ++ L.store a w :: bs ∧
      lookup (as ++ L.store a w :: bs) a = some (L.store a w) := by
  obtain ⟨hL, as, bs, rfl, has⟩ := List.find?_eq_some_iff_append.1 h
  exact ⟨as, bs, rfl, updateFirst_append hL has, List.find?_eq_some_iff_append.2 ⟨hL, as, bs, rfl, has⟩⟩

/-- Settles O13: a hit is one place of the scan, and the write changes that place and appends one element. -/
theorem cacheReadWrite : Obligations.CacheReadWrite := by
  unfold Obligations.CacheReadWrite
  refine ⟨fun m a => ⟨fun L h => MemSys.cacheRead_hit h, MemSys.cacheRead_miss⟩,
    fun m a w _ => ⟨fun L h => ⟨_, MemSys.cacheWrite_hit h w, rfl, ?_⟩, fun h => MemSys.cacheWrite_miss h w⟩⟩
  obtain ⟨as, bs, hls, hup, hlook⟩ := lookup_store h w
  rw [hup, hls]
  refine ⟨hlook, fun K hK hne => ?_, by simp, rfl, rfl⟩
  have hKL : K ≠ L := fun hc => hne (congrArg Line.tag hc)
  simp only [List.mem_append, List.mem_cons, hKL, false_or] at hK ⊢
  exact hK.imp_right .inr

/-! ### Adding a line (R67) -/

/-- What `Cache.add` can do: take the next slot, or, once the cache is full, that of a clean line. -/
theorem MemSys.cacheAdd_cases (h : m.cacheAdd L = some m') :
    (m.l1.length < Config.cacheLines ∧ m' = { m with l1 := m.l1 ++ [L] }) ∨
    (¬ m.l1.length < Config.cacheLines ∧ ∃ i, ∃ hi : i < m.l1.length, (m.l1[i]).writes = 0 ∧
      m' = { m with l1 := m.l1.set i L, draws := m.draws + 1 }) := by
  unfold MemSys.cacheAdd at h
  split at h
  next hroom => cases h; exact .inl ⟨hroom, rfl⟩
  next hfull =>
    split at h
    next => cases h
    next c cs hcs =>
      have hpick : pickSlot (Config.evictDraw m.draws) c (c :: cs) ∈ cleanSlots m.l1 := by
        rw [hcs]; exact pickSlot_mem _ c _ (List.cons_ne_nil c cs)
      obtain ⟨hi, hw⟩ := mem_cleanSlots hpick
      cases h
      exact .inr ⟨hfull, _, hi, hw, rfl⟩

/-- A line that is not the one in a slot stays when the slot is given another line. -/
theorem mem_set_of_ne {ls : List Line} {K : Line} (hK : K ∈ ls) {i : Nat} (hi : i < ls.length) (hne : ls[i] ≠ K) :
    K ∈ ls.set i L := by
  obtain ⟨j, hj, rfl⟩ := List.mem_iff_getElem.1 hK
  have hij : i ≠ j := by rintro rfl; exact hne rfl
  exact List.mem_iff_getElem.2 ⟨j, by simpa using hj, List.getElem_set_ne hij _⟩

/-- Settles O14: the next slot holds no line yet, and the line replaced in a full cache is clean. -/
theorem evictionKeepsDirty : Obligations.EvictionKeepsDirty := by
  unfold Obligations.EvictionKeepsDirty
  intro m m' L h
  obtain ⟨hroom, rfl⟩ | ⟨hfull, i, hi, hclean, rfl⟩ := MemSys.cacheAdd_cases h
  · rw [if_pos hroom]
    exact ⟨List.mem_append_right _ (List.mem_singleton_self L), fun K hK _ => List.mem_append_left _ hK, rfl, rfl, rfl,
      by simp⟩
  · rw [if_neg hfull]
    refine ⟨List.mem_set hi L, fun K hK hdirty => mem_set_of_ne hK hi ?_, rfl, rfl, rfl, List.length_set⟩
    rintro rfl
    omega

/-! ### The controller (R71 to R73) -/

/-- RETIRE counts down the write of every line with the tag of the block, of which a sound cache has one
(20_memory.md R71). -/
theorem MemSys.Inv.updateWrites_eq_map (h : m.Inv) (a : Nat) :
    updateWrites m.l1 a = m.l1.map fun L => if L.tag = blockBase a then { L with writes := L.writes - 1 } else L :=
  updateFirst_eq_map h.tagsDistinct fun _ _ => decide_eq_true_iff

theorem MemSys.retire_of_inflight {e : Elem} (h : m.inflight = some e) :
    m.retire = some { m with
      mem := m.mem.write e.address e.word, l1 := updateWrites m.l1 e.address, inflight := none } := by
  rw [MemSys.retire, h]

theorem MemSys.retire_idle (h : m.inflight = none) : m.retire = none := by
  rw [MemSys.retire, h]

theorem MemSys.take_of_wb {e : Elem} {rest : List Elem} (hi : m.inflight = none) (hw : m.wb = e :: rest) :
    m.take = some { m with inflight := some e, wb := rest } := by
  rw [MemSys.take, hi, hw]

theorem MemSys.take_busy {e : Elem} (h : m.inflight = some e) : m.take = none := by
  rw [MemSys.take, h]

theorem MemSys.take_idle (hi : m.inflight = none) (hw : m.wb = []) : m.take = none := by
  rw [MemSys.take, hi, hw]

/-- Settles O16: RETIRE by its equation, and the tags of a sound cache are distinct. -/
theorem retireStep : Obligations.RetireStep := by
  unfold Obligations.RetireStep
  intro m hm
  cases hi : m.inflight with
  | none => exact ⟨by simp [MemSys.retire_idle hi], fun e m' he => nomatch he⟩
  | some e =>
    rw [MemSys.retire_of_inflight hi]
    refine ⟨by simp, fun e' m' he h => ?_⟩
    cases he
    cases h
    exact ⟨rfl, rfl, rfl, hm.updateWrites_eq_map e.address⟩

/-- Settles O15: TAKE by its equation in each of its cases. -/
theorem takeStep : Obligations.TakeStep := by
  unfold Obligations.TakeStep
  intro m
  cases hi : m.inflight with
  | some e => simp [MemSys.take_busy hi]
  | none =>
    cases hw : m.wb with
    | nil => simp [MemSys.take_idle hi hw]
    | cons e rest =>
      rw [MemSys.take_of_wb hi hw]
      refine ⟨by simp, fun m' h => ?_⟩
      cases h
      exact ⟨rfl, Nat.lt_of_succ_le⟩

theorem MemSys.ctrlMove_of_retire (h : m.retire = some m') : m.ctrlMove = m' := by
  rw [MemSys.ctrlMove, h]

theorem MemSys.ctrlMove_of_take (hi : m.inflight = none) (h : m.take = some m') : m.ctrlMove = m' := by
  rw [MemSys.ctrlMove, MemSys.retire_idle hi, h]

theorem MemSys.ctrlMove_drained (hi : m.inflight = none) (hw : m.wb = []) : m.ctrlMove = m := by
  rw [MemSys.ctrlMove, MemSys.retire_idle hi, MemSys.take_idle hi hw]

/-- Settles O52: the turn is one move of the controller, which keeps the program's view, and the move is RETIRE, TAKE or
nothing as the slot and the buffer say. -/
theorem controllerAlone : Obligations.ControllerAlone := by
  unfold Obligations.ControllerAlone
  intro s rest hm ht
  have hstep : step s = .next { s with ms := s.ms.ctrlMove, turns := rest } := by rw [step, ht]; rfl
  refine ⟨s.ms.ctrlMove, MemSys.ctrlMove_shows hm, hstep, fun hi => ?_, fun hi hw => ?_, MemSys.ctrlMove_drained⟩
  · obtain ⟨e, he⟩ := Option.ne_none_iff_exists'.1 hi
    have hr := MemSys.retire_of_inflight he
    rw [MemSys.ctrlMove_of_retire hr, hr]
  · obtain ⟨e, es, he⟩ := List.exists_cons_of_ne_nil hw
    have h := MemSys.take_of_wb hi he
    rw [MemSys.ctrlMove_of_take hi h, h]

/-- Settles O17: the drain empties the slot and the buffer and keeps the view, and in a sound memory side with nothing
pending the counts are 0 and the view is main memory. -/
theorem drainSynchronises : Obligations.DrainSynchronises := by
  unfold Obligations.DrainSynchronises
  intro m hm
  obtain ⟨hw, hi⟩ := MemSys.drain_empty m
  obtain ⟨hinv, hview⟩ := MemSys.drain_shows hm
  have hp : m.drain.pending = [] := by simp [MemSys.pending, hw, hi]
  refine ⟨hw, hi, fun L hL => ?_, fun a => ?_, fun a v hv => ?_⟩
  · rw [hinv.writesCount L hL, hp, List.countP_nil]
  · exact (MemSys.view_of_drained hw hi a).symm.trans (hview a)
  · exact (hinv.cacheRead_some hv).trans (MemSys.view_of_drained hw hi a)

/-! ### The engine's accesses and main memory (R61, R62, R69, R70) -/

/-- Settles O18: the laws of `MemRead` and `MemWrite`, in range and out of range, with room in the buffer and without. -/
theorem engineAccesses : Obligations.EngineAccesses := by
  unfold Obligations.EngineAccesses
  intro m a w hm
  refine ⟨fun ha => ⟨?_, fun hroom => ?_, fun hfull => MemSys.memWrite_full m ha hfull.ge w⟩, fun ha => ?_⟩
  · obtain ⟨m', hr, hs, -⟩ := hm.memRead_spec ha
    exact ⟨m', hr, hs⟩
  · obtain ⟨m', hw, hs, -⟩ := hm.memWrite_spec ha hroom w
    exact ⟨m', hw, hs⟩
  · exact ⟨MemSys.memRead_raise m ha.not_gt, MemSys.memWrite_raise m ha.not_gt w⟩

/-- Settles O12: read after write, the form a write keeps, and that the form is one form. -/
theorem memoryCanonical : Obligations.MemoryCanonical := by
  unfold Obligations.MemoryCanonical
  exact ⟨fun m a w hm ha => ⟨Memory.wf_write hm ha w, Memory.read_write hm a w⟩,
    fun m n hm hn h => Memory.ext_of_wf hm hn h⟩

end Sys2Proof.Machine
end

section
/-! PROOFS. The statements on the encoding (30_encoding.md): decode and encode agree, what decode reads of a word, and which
words and instructions are refused. Decode turns on two facts, proved first: the opcode table is one-to-one, and the
fields of a format are read back from the word they are put in. -/

namespace Sys2Proof

open Machine

/-! ### The opcode table (R124) -/

/-- No two mnemonics share an opcode, so the table finds each by its own. -/
theorem opOfOpcode_opcodeOf (o : Op) : opOfOpcode (opcodeOf o) = some o := by cases o <;> rfl

theorem opOfOpcode_eq_some {c : BitVec 6} {o : Op} : opOfOpcode c = some o ↔ opcodeOf o = c := by
  constructor
  · intro h
    simpa using List.find?_some h
  · rintro rfl
    exact opOfOpcode_opcodeOf o

theorem opOfOpcode_eq_none {c : BitVec 6} : opOfOpcode c = none ↔ ∀ o : Op, opcodeOf o ≠ c := by
  simp only [Option.eq_none_iff_forall_ne_some, ne_eq, opOfOpcode_eq_some]

theorem opcodeOf_inj {o o' : Op} : opcodeOf o = opcodeOf o' ↔ o = o' := by
  rw [← opOfOpcode_eq_some, opOfOpcode_opcodeOf, Option.some.injEq, eq_comm]

/-! ### The fields of a format (R113 to R120) -/

/-- The field registers with only those of one format kept, the absent ones 0 (30_encoding.md R122). -/
def DecodeFields.only (fmt : Format) (f : DecodeFields) : DecodeFields :=
  match fmt with
  | .ls => { DecodeFields.zero with opcode := f.opcode, r := f.r, ix := f.ix, i := f.i, addr := f.addr }
  | .lx => { DecodeFields.zero with opcode := f.opcode, ix := f.ix, i := f.i, addr := f.addr }
  | .imm => { DecodeFields.zero with opcode := f.opcode, r := f.r, addr := f.addr }
  | .trap => { DecodeFields.zero with opcode := f.opcode, trapcode := f.trapcode }
  | .xy => { DecodeFields.zero with opcode := f.opcode, rx := f.rx, ry := f.ry }
  | .monoX => { DecodeFields.zero with opcode := f.opcode, rx := f.rx }
  | .shift => { DecodeFields.zero with opcode := f.opcode, r := f.r, al := f.al, lr := f.lr, count := f.count }
  | .io => { DecodeFields.zero with opcode := f.opcode, r := f.r, devid := f.devid }

theorem only_extractFields (fmt : Format) (w : Word) : (extractFields fmt w).only fmt = extractFields fmt w := by
  cases fmt <;> rfl

theorem only_fieldsOf (i : Instr) : (fieldsOf i).only (formatOf i.op) = fieldsOf i := by cases i <;> rfl

@[simp] theorem extractFields_opcode (fmt : Format) (w : Word) : (extractFields fmt w).opcode = opcodeField w := by
  cases fmt <;> rfl

@[simp] theorem fieldsOf_opcode (i : Instr) : (fieldsOf i).opcode = opcodeOf i.op := by cases i <;> rfl

/-- Each field of a format is read where it was put: the extraction passes the fields below it, then those above it. -/
theorem extractFields_encodeFields (fmt : Format) (f : DecodeFields) :
    extractFields fmt (encodeFields fmt f) = f.only fmt := by
  cases fmt <;>
    simp (disch := decide) only [extractFields, encodeFields, opcodeField, DecodeFields.only, Nat.reduceSub,
      BitVec.extractLsb'_append_eq_of_le, BitVec.extractLsb'_append_eq_of_add_le, BitVec.extractLsb'_eq_self]

/-- A field above the low `n` bits is the same in two words that agree above them. -/
theorem extractLsb'_eq_of_ushiftRight_eq {w w' : Word} {n : Nat} (h : w >>> n = w' >>> n) {start : Nat} (hn : n ≤ start)
    (len : Nat) : w.extractLsb' start len = w'.extractLsb' start len := by
  have shifted : ∀ v : Word, v.extractLsb' start len = (v >>> n).extractLsb' (start - n) len := by
    intro v
    ext i
    simp [show n + (start - n + i) = start + i by omega]
  rw [shifted w, shifted w', h]

/-- The fields of a format stand above its unused bits (30_encoding.md R121). -/
theorem extractFields_eq_of_ushiftRight_eq {fmt : Format} {w w' : Word}
    (h : w >>> unusedBits fmt = w' >>> unusedBits fmt) : extractFields fmt w = extractFields fmt w' := by
  have field {start : Nat} (hn : unusedBits fmt ≤ start) (len : Nat) :
      w.extractLsb' start len = w'.extractLsb' start len := extractLsb'_eq_of_ushiftRight_eq h hn len
  cases fmt <;> simp (disch := decide) only [extractFields, opcodeField, field]

/-! ### The instruction that fields make (R122, R123) -/

@[simp] theorem instrOf_op (o : Op) (f : DecodeFields) : (instrOf o f).op = o := by cases o <;> rfl

@[simp] theorem ofBool_beq_one_eq_self (b : BitVec 1) : BitVec.ofBool (b == 1) = b := by
  obtain rfl | rfl := BitVec.eq_zero_or_eq_one b <;> rfl

/-- An instruction holds every field of its format, so it gives them back. -/
theorem fieldsOf_instrOf {o : Op} {f : DecodeFields} (h : opcodeOf o = f.opcode) :
    fieldsOf (instrOf o f) = f.only (formatOf o) := by
  cases o <;> simp only [fieldsOf, instrOf, fieldsLS, fieldsLX, fieldsImm, fieldsTrap, fieldsXY, fieldsMonoX, fieldsShift,
    fieldsIO, ofBool_beq_one_eq_self, h, formatOf, DecodeFields.only]

/-! ### Reserved operand values (R127) -/

theorem reservedError_ne_illegalOpcode (i : Instr) : reservedError i ≠ some .illegalOpcode := by
  cases i <;> simp [reservedError]

theorem reservedError_instrOf_eq_mulDivOddRx (o : Op) (f : DecodeFields) :
    reservedError (instrOf o f) = some .mulDivOddRx ↔ (o = .mlt ∨ o = .dvd) ∧ evenPair f.rx = false := by
  cases o <;> simp [instrOf, reservedError]

theorem reservedError_instrOf_eq_indexZeroLX (o : Op) (f : DecodeFields) :
    reservedError (instrOf o f) = some .indexZeroLX ↔ (o = .ldx ∨ o = .stx) ∧ f.ix = 0 := by
  cases o <;> simp [instrOf, reservedError, namesIndex]

/-- A register pair is odd by its low bit. -/
theorem evenPair_eq_not_getLsbD (rx : BitVec 2) : evenPair rx = !rx.getLsbD 0 := by
  revert rx
  decide

theorem checkReserved_eq_ok {i j : Instr} : checkReserved i = .ok j ↔ reservedError i = none ∧ i = j := by
  unfold checkReserved
  cases reservedError i <;> simp

theorem checkReserved_eq_error {i : Instr} {e : DecodeError} :
    checkReserved i = .error e ↔ reservedError i = some e := by
  unfold checkReserved
  cases reservedError i <;> simp

/-! ### What decode answers (R122) -/

/-- Decode of a word whose opcode is that of a mnemonic: the reserved values of the instruction its fields make are
checked. -/
theorem decode_of_opcode {w : Word} {o : Op} (h : opcodeOf o = opcodeField w) :
    decode w = checkReserved (instrOf o (extractFields (formatOf o) w)) := by
  rw [decode, opOfOpcode_eq_some.2 h]

theorem decode_of_no_opcode {w : Word} (h : ∀ o : Op, opcodeOf o ≠ opcodeField w) : decode w = .error .illegalOpcode := by
  rw [decode, opOfOpcode_eq_none.2 h]

/-- Decode reads an instruction from its fields alone. -/
theorem decode_eq_instrOfFields {w : Word} {o : Op} (h : opcodeOf o = opcodeField w) :
    decode w = instrOfFields (extractFields (formatOf o) w) := by
  rw [decode_of_opcode h, instrOfFields, extractFields_opcode, opOfOpcode_eq_some.2 h]

/-- Every word has the opcode of a mnemonic, or decode refuses it as illegalOpcode. -/
theorem opcode_cases (w : Word) : (∃ o : Op, opcodeOf o = opcodeField w) ∨ ∀ o : Op, opcodeOf o ≠ opcodeField w :=
  (Classical.em _).imp_right not_exists.1

theorem decode_ne_illegalOpcode {w : Word} {o : Op} (h : opcodeOf o = opcodeField w) :
    decode w ≠ .error .illegalOpcode := by
  rw [decode_of_opcode h, ne_eq, checkReserved_eq_error]
  exact reservedError_ne_illegalOpcode _

/-- In the format of MLT and DVD bit 10 is the low bit of RX. -/
theorem decode_eq_mulDivOddRx {w : Word} {o : Op} (h : opcodeOf o = opcodeField w) :
    decode w = .error .mulDivOddRx ↔ (o = .mlt ∨ o = .dvd) ∧ w.getLsbD 10 = true := by
  rw [decode_of_opcode h, checkReserved_eq_error, reservedError_instrOf_eq_mulDivOddRx]
  refine and_congr_right fun ho => ?_
  have hrx : (extractFields (formatOf o) w).rx = w.extractLsb' 10 2 := by obtain rfl | rfl := ho <;> rfl
  simp [hrx, evenPair_eq_not_getLsbD]

/-- In the format of LDX and STX bits 11 and 10 are IX. -/
theorem decode_eq_indexZeroLX {w : Word} {o : Op} (h : opcodeOf o = opcodeField w) :
    decode w = .error .indexZeroLX ↔ (o = .ldx ∨ o = .stx) ∧ w.extractLsb' 10 2 = 0 := by
  rw [decode_of_opcode h, checkReserved_eq_error, reservedError_instrOf_eq_indexZeroLX]
  refine and_congr_right fun ho => ?_
  have hix : (extractFields (formatOf o) w).ix = w.extractLsb' 10 2 := by obtain rfl | rfl := ho <;> rfl
  rw [hix]

theorem extractFields_encode (i : Instr) : extractFields (formatOf i.op) (encode i) = fieldsOf i := by
  rw [encode, extractFields_encodeFields, only_fieldsOf]

theorem opcodeField_encode (i : Instr) : opcodeField (encode i) = opcodeOf i.op := by
  rw [← extractFields_opcode (formatOf i.op), extractFields_encode, fieldsOf_opcode]

/-! ### The statements -/

/-- Settles O2: decode extracts from the word the fields that were put into it, and they give the instruction back. -/
theorem decodeOfEncode : Obligations.DecodeOfEncode := by
  unfold Obligations.DecodeOfEncode
  intro i hi
  rw [decode_eq_instrOfFields (opcodeField_encode i).symm, extractFields_encode, instrOfFields_fieldsOf hi]

/-- Settles O3: a word that decodes has the opcode of a mnemonic, and the instruction is made of the fields that the
mnemonic's format extracts. -/
theorem opcodeIsTopSixBits : Obligations.OpcodeIsTopSixBits := by
  unfold Obligations.OpcodeIsTopSixBits
  intro w i h
  obtain ⟨o, ho⟩ | hnone := opcode_cases w
  · rw [decode_of_opcode ho, checkReserved_eq_ok] at h
    obtain ⟨-, rfl⟩ := h
    rw [instrOf_op, fieldsOf_instrOf (ho.trans (extractFields_opcode _ w).symm), only_extractFields]
    exact ⟨ho, rfl⟩
  · rw [decode_of_no_opcode hnone] at h
    cases h

/-- Settles O4: the two words have the same fields, the opcode among them. -/
theorem unusedBitsIgnored : Obligations.UnusedBitsIgnored := by
  unfold Obligations.UnusedBitsIgnored
  intro w w' o ho h
  have hf := extractFields_eq_of_ushiftRight_eq h
  have hw : opcodeOf o = opcodeField w := opOfOpcode_eq_some.1 ho
  have hw' : opcodeOf o = opcodeField w' := by rw [hw, ← extractFields_opcode (formatOf o) w, hf, extractFields_opcode]
  rw [decode_eq_instrOfFields hw, decode_eq_instrOfFields hw', hf]

/-- Settles O5: the reserved values are those of the instruction that the word's opcode names, and a word without one
has no other refusal. -/
theorem reservedWordsRefused : Obligations.ReservedWordsRefused := by
  unfold Obligations.ReservedWordsRefused
  intro w
  rw [show w.extractLsb' 12 6 = opcodeField w from rfl]
  obtain ⟨o, ho⟩ | hnone := opcode_cases w
  · rw [decode_eq_mulDivOddRx ho, decode_eq_indexZeroLX ho, ← ho]
    refine ⟨iff_of_false (decode_ne_illegalOpcode ho) fun hnone => hnone o rfl, ?_, ?_⟩
    · rw [opcodeOf_inj, opcodeOf_inj]
    · rw [opcodeOf_inj, opcodeOf_inj]
  · have hne (o : Op) : opcodeField w ≠ opcodeOf o := (hnone o).symm
    simp [decode_of_no_opcode hnone, hnone, hne]

/-- Settles O1: decode run on each word. -/
theorem sampleWordsDecode : Obligations.SampleWordsDecode := by
  unfold Obligations.SampleWordsDecode
  exact ⟨rfl, rfl, rfl, rfl, rfl, rfl, rfl, rfl, rfl, rfl, rfl⟩

/-- An instruction with a reserved operand value is refused before any effect (30_encoding.md R127). -/
theorem exec_of_reservedError {i : Instr} {e : DecodeError} (h : reservedError i = some e) (s : State) :
    exec i s = .refused (decodeRefusal e) := by
  rw [exec_eq, runInstr, h]

/-- Settles O43: each of the four instructions has a reserved operand value. -/
theorem reservedOperandsRefused : Obligations.ReservedOperandsRefused := by
  unfold Obligations.ReservedOperandsRefused
  intro rx ry i addr s
  have hldx : reservedError (.ldx 0 i addr) = some .indexZeroLX := rfl
  have hstx : reservedError (.stx 0 i addr) = some .indexZeroLX := rfl
  refine ⟨fun hodd => ?_, exec_of_reservedError hldx s, exec_of_reservedError hstx s⟩
  have hpair : evenPair rx = false := by obtain rfl | rfl := hodd <;> rfl
  have hmlt : reservedError (.mlt rx ry) = some .mulDivOddRx := by rw [reservedError, hpair]; rfl
  have hdvd : reservedError (.dvd rx ry) = some .mulDivOddRx := by rw [reservedError, hpair]; rfl
  exact ⟨exec_of_reservedError hmlt s, exec_of_reservedError hdvd s⟩

end Sys2Proof
end

section
/-! PROOFS. The statements on the ALU (40_alu.md): each operation as one equation on the state, in the arithmetic of
`BitVec 18`, and from these equations the statements. -/

namespace Sys2Proof.Machine

/-! ### Results and flags -/

theorem gteResult_eq (a b : Word) : gteResult a b = if b.sle a then 1 else 0 := by
  simp only [gteResult, BitVec.sle_iff_toInt_le]

theorem dvdFlags_zero : dvdFlags 0 = 0b0010#4 := rfl

theorem dvdFlags_of_ne_zero {b : Word} (h : b ≠ 0) : dvdFlags b = 0b0000#4 := by
  have hb : b.toNat ≠ 0 := BitVec.toNat_ne.1 h
  rw [dvdFlags, decide_eq_false hb]
  rfl

/-- A mode latch of SRC and RRC is set iff it holds 1 (R160, R161). -/
theorem decide_toNat_eq_one (w : Word) : decide (w.toNat = 1) = decide (w = 1) :=
  decide_eq_decide.2 (BitVec.toNat_inj (y := 1))

/-! ### One equation per operation: what it writes, and so what it leaves unchanged -/

theorem aluAdd_eq (s : State) :
    aluAdd s = { s with result := s.op1 + s.op2
                        cc := if 2 ^ 18 ≤ s.op1.toNat + s.op2.toNat then 0b1000#4 else 0b0000#4 } := by
  rw [aluAdd, addResult_eq, addFlags_eq]

theorem aluSub_eq (s : State) :
    aluSub s = { s with result := s.op1 - s.op2
                        cc := if s.op1.toNat < s.op2.toNat then 0b0100#4 else 0b0000#4 } := by
  rw [aluSub, subResult_eq, subFlags_eq]

theorem aluGte_eq (s : State) : aluGte s = { s with result := if s.op2.sle s.op1 then 1 else 0 } := by
  rw [aluGte, gteResult_eq]

theorem aluMlt_eq (s : State) :
    aluMlt s = { s with result := mltHigh s.op1 s.op2, result2 := mltLow s.op1 s.op2, cc := 0b0000#4 } := by
  rw [aluMlt, mltFlags_eq]

theorem aluDvd_of_ne_zero {s : State} (h : s.op2 ≠ 0) :
    aluDvd s = { s with result := s.op1 / s.op2, result2 := s.op1 % s.op2, cc := 0b0000#4 } := by
  have h0 : s.op2.toNat ≠ 0 := BitVec.toNat_ne.1 h
  rw [aluDvd, if_neg h0, if_neg h0, dvdQuotient_eq, dvdRemainder_eq, dvdFlags_of_ne_zero h]

theorem aluDvd_of_eq_zero {s : State} (h : s.op2 = 0) : aluDvd s = { s with cc := 0b0010#4 } := by
  have h0 : s.op2.toNat = 0 := congrArg BitVec.toNat h
  rw [aluDvd, if_pos h0, if_pos h0, h, dvdFlags_zero]

theorem aluTrr_eq (s : State) :
    aluTrr s = { s with cc := if s.op1 = s.op2 then 0b0001#4 else 0b0000#4 } := by
  rw [aluTrr, trrFlags_eq]

theorem aluNot_eq (s : State) : aluNot s = { s with result := ~~~ s.op1 } := by
  rw [aluNot, notResult_eq]

theorem aluSrc_eq (s : State) :
    aluSrc s = { s with result :=
      if s.op3 = 1 then s.op1 <<< s.op2.toNat
      else if s.op4 = 1 then s.op1 >>> s.op2.toNat
      else s.op1.sshiftRight s.op2.toNat } := by
  simp only [aluSrc, srcResult_eq, decide_toNat_eq_one, decide_eq_true_eq]

/-- The count is below 16, as the COUNT field gives it: `BitVec` rotates by the count modulo 18 and the model by the
count itself. -/
theorem aluRrc_eq {s : State} (h : s.op2.toNat < 16) :
    aluRrc s = { s with result :=
      if s.op3 = 1 then s.op1.rotateLeft s.op2.toNat else s.op1.rotateRight s.op2.toNat } := by
  simp only [aluRrc, rrcResult_eq _ _ _ h, decide_toNat_eq_one, decide_eq_true_eq]

/-! ### The statements -/

/-- Settles O8: each operation is the one of `BitVec 18`, whose bits the library gives. -/
theorem aluCompareAndBitwise : Obligations.AluCompareAndBitwise := by
  unfold Obligations.AluCompareAndBitwise
  intro s
  refine ⟨aluTrr_eq s, ⟨rfl, ?and⟩, ⟨rfl, ?or⟩, rfl, ?complement, ?not⟩
  case and => exact fun j _ => BitVec.getLsbD_and
  case or => exact fun j _ => BitVec.getLsbD_or
  case complement => rw [aluNot_eq, BitVec.toNat_not]
  case not =>
    intro j hj
    simp [aluNot_eq, hj]

/-- Settles O9. -/
theorem aluAddSubGte : Obligations.AluAddSubGte := by
  unfold Obligations.AluAddSubGte
  exact fun s => ⟨aluAdd_eq s, aluSub_eq s, aluGte_eq s⟩

/-- Settles O10: the halves of the product are put together, and the quotient and the remainder meet the division
identity. -/
theorem aluMulDiv : Obligations.AluMulDiv := by
  unfold Obligations.AluMulDiv
  intro s
  refine ⟨?mlt, fun h => ?dvd, aluDvd_of_eq_zero⟩
  case mlt =>
    rw [aluMlt_eq]
    exact ⟨mltHigh_mltLow s.op1 s.op2, rfl⟩
  case dvd =>
    have hpos : 0 < s.op2.toNat := Nat.pos_of_ne_zero (BitVec.toNat_ne.1 h)
    rw [aluDvd_of_ne_zero h]
    refine ⟨?_, ?_, rfl⟩
    · rw [BitVec.toNat_udiv, BitVec.toNat_umod]
      exact (Nat.div_add_mod' s.op1.toNat s.op2.toNat).symm
    · rw [BitVec.toNat_umod]
      exact Nat.mod_lt _ hpos

/-- Settles O11. -/
theorem aluShiftRotate : Obligations.AluShiftRotate := by
  unfold Obligations.AluShiftRotate
  exact fun s h => ⟨aluSrc_eq s, aluRrc_eq h⟩

end Sys2Proof.Machine
end

section
/-! PROOFS. The statements on the execution cycle (41_execution_cycle.md): a turn of the engine is run as its next micro-op,
or as the fetch and what follows it, and then the `execute` is over or not (`State.settle`); a stopped engine takes
none. -/

namespace Sys2Proof.Machine

variable {s t : State}

/-! ### Whether the `execute` goes on (60_exceptions.md R317, R319) -/

/-- A micro-step that leaves the engine inside an instruction. -/
theorem settled_inside (hc : t.canRun = true) (hp : t.phase = .run) (hk : t.k ≠ 0) :
    settled (.next t) = .next { t with executing := decide (t.execMode ≠ .micro) } :=
  congrArg _ (State.settle_inside hc hp hk)

theorem State.set_executing_of_executing (he : t.executing = true) : { t with executing := true } = t := by rw [← he]

/-- A machine fault is raised: the `execute` goes on in every mode. -/
theorem settled_faultEntry (he : t.executing = true) (hc : t.canRun = true) (hp : t.phase ≠ .run) :
    settled (.next t) = .next t :=
  congrArg _ ((State.settle_faultEntry hc hp).trans (State.set_executing_of_executing he))

/-- A machine fault has been taken: the `execute` goes on in mode continue. -/
theorem settled_continue (he : t.executing = true) (hc : t.canRun = true) (hm : t.execMode = .continue) :
    settled (.next t) = .next t :=
  congrArg _ ((State.settle_continue hc hm).trans (State.set_executing_of_executing he))

/-- A refusal has ended the `execute` already (41_execution_cycle.md R194). -/
theorem settled_refuse (s : State) (r : Refusal) : settled (.next (s.refuse r)) = .next (s.refuse r) := by
  have hc : (s.refuse r).canRun = false := by simp [State.canRun, State.refuse]
  exact congrArg _ (State.settle_stopped hc)

/-! ### One micro-step (41_execution_cycle.md R180) -/

/-- The step is one micro-op of fetch. -/
theorem step_fetchOp {op : Micro} {j : Nat} (h : s.MicroNext) (hp : s.phase = .run) (hk : s.k = j)
    (hop : fetchOps[j]? = some op) :
    step s = settled (runSeq .next .next [op] { s with turns := s.turns.tail }) :=
  (step_micro h).trans (congrArg settled (engineMicro_of (microOp_fetch hp hk hop)))

/-- Settles O44: each of the two steps is one register transfer inside the instruction. -/
theorem fetchTransferSteps : Obligations.FetchTransferSteps := by
  unfold Obligations.FetchTransferSteps
  intro s hm h hp
  have hshows : s.ms.startTurn.Shows s.ms.view := MemSys.startTurn_shows hm
  refine ⟨fun hk => ⟨_, hshows, ?_⟩, fun hk => ⟨_, hshows, ?_⟩⟩
  · rw [step_fetchOp h hp hk rfl, runSeq_regOp]
    exact settled_inside h.active.canRun hp (Nat.succ_ne_zero 0)
  · rw [step_fetchOp h hp hk rfl, runSeq_regOp]
    exact settled_inside h.active.canRun hp (Nat.succ_ne_zero 2)

/-- Settles O45: the read is taken in range, and raises the machine fault out of range. -/
theorem fetchReadStep : Obligations.FetchReadStep := by
  unfold Obligations.FetchReadStep
  intro s hm h hp hk
  by_cases hlt : s.mar.toNat < Config.memWords
  · obtain ⟨m, hshows, hrun⟩ := runSeq_readOp (fin := .next) (onFault := .next) (ops := [])
      (s := { s with turns := s.turns.tail }) (addr := fun s => s.mar) (put := fun v s => { s with mdr := v, k := 2 })
      hm (fun _ => rfl) hlt
    refine ⟨m, hshows, ?_⟩
    rw [step_fetchOp h hp hk rfl, hrun, if_pos hlt]
    exact settled_inside h.active.canRun hp (Nat.succ_ne_zero 1)
  · refine ⟨s.ms.startTurn, MemSys.startTurn_shows hm, ?_⟩
    rw [step_fetchOp h hp hk rfl, runSeq_readOp_raise (s := { s with turns := s.turns.tail }) (fun _ => rfl) hlt,
      if_neg hlt]
    exact settled_faultEntry h.active.executing h.active.canRun (fun hc => nomatch hc)

/-! ### Decode (41_execution_cycle.md R185, R194) -/

theorem engineMicro_decode {i : Instr} (hm : s.ms.Inv) (hp : s.phase = .run) (hk : s.k = 3) (hd : decode s.ir = .ok i) :
    ∃ m, m.Shows (s.seen (fieldsOf i).addr) ∧
      engineMicro s = .next { s with dec := fieldsOf i, k := 4, cycleCount := s.cycleCount + 1, ms := m } := by
  have hop : microOpAt s = .ok (decodeStep (fieldsOf i)) := by rw [microOpAt_decode hp hk, hd]
  rw [engineMicro_of hop]
  exact runSeq_decodeStep (ops := []) hm (fieldsOf i)

theorem settled_engineMicro_decode_error {e : DecodeError} (hp : s.phase = .run) (hk : s.k = 3)
    (hd : decode s.ir = .error e) : settled (engineMicro s) = .next (s.refuse (decodeRefusal e)) := by
  rw [engineMicro, microOpAt_decode hp hk, hd]
  exact settled_refuse s _

/-- Settles O46: a word that decodes is one decode step inside the instruction, and another is a refusal. (The name
`decodeStep` is the micro-op's own.) -/
theorem decodeStep_decodesOrRefuses : Obligations.DecodeStep := by
  unfold Obligations.DecodeStep
  intro s hm h hp hk
  refine ⟨fun i hd => ?_, fun e hd => ?_⟩
  · obtain ⟨m, hshows, hrun⟩ := engineMicro_decode (s := { s with turns := s.turns.tail }) hm hp hk hd
    refine ⟨m, hshows, ?_⟩
    rw [step_micro h, hrun]
    exact settled_inside h.active.canRun hp (Nat.succ_ne_zero 3)
  · exact (step_micro h).trans (settled_engineMicro_decode_error hp hk hd)

/-! ### A whole instruction (60_exceptions.md R317) -/

theorem decodeAndExec_ok {i : Instr} (hd : decode s.ir = .ok i) : decodeAndExec s = exec i s := by
  rw [decodeAndExec, hd]

/-- A word that does not decode marks the state and does nothing else (41_execution_cycle.md R194). -/
theorem settled_decodeAndExec_error {e : DecodeError} (hd : decode s.ir = .error e) :
    settled (decodeAndExec s) = .next (s.refuse (decodeRefusal e)) := by
  rw [decodeAndExec, hd]
  exact settled_refuse s _

/-- A step at the first micro-step of an instruction, in a mode that runs whole instructions, begins with the fetch. -/
theorem step_fetch (h : s.Running) (hmode : s.execMode ≠ .micro) (hp : s.phase = .run) (hk : s.k = 0) :
    step s = settled (runSeq decodeAndExec (runFaultEntry 0) fetchOps { s with turns := s.turns.tail }) :=
  (step_macro h hmode).trans (congrArg settled (engineMacro_fetch hp hk))

/-- Settles O48: after the fetch the word in IR is decoded and executed, or refused. -/
theorem stepRunsDecoded : Obligations.StepRunsDecoded := by
  unfold Obligations.StepRunsDecoded
  intro s hm h hmode hp hk hlt
  obtain ⟨m, hshows, hrun⟩ := runSeq_fetch (s := { s with turns := s.turns.tail }) (fin := decodeAndExec)
    (onFault := runFaultEntry 0) hm hlt
  have hstep := (step_fetch h hmode hp hk).trans (congrArg settled hrun)
  refine ⟨m, hshows, _, rfl, ?ok, ?error⟩
  case ok => exact fun i hd => hstep.trans (congrArg settled (decodeAndExec_ok hd))
  case error => exact fun e hd => hstep.trans (settled_decodeAndExec_error hd)

/-- A fetch at a PC out of range: MAR takes PC, and the read raises the machine fault (41_execution_cycle.md R183,
60_exceptions.md R301). -/
theorem runSeq_fetch_raise {fin : State → Out} (h : s.ms.Inv) (hge : ¬ s.pc.toNat < Config.memWords) :
    ∃ m, m.Shows (savedAt s.pc s.ms.view) ∧ runSeq fin (runFaultEntry 0) fetchOps s =
      .next (({ s with mar := pcToWord s.pc, cycleCount := s.cycleCount + 1 } : State).faultTaken .addressFault
        (s.ms.view Config.faultVectorPtr) m) := by
  have hmar : ¬ (pcToWord s.pc).toNat < Config.memWords := by rwa [pcToWord_toNat]
  show Reaches _ _ (fun m => .next _)
  unfold fetchOps
  refine Reaches.regOp h.shows fun m₁ h₁ => ?_
  refine Reaches.readOp_raise h₁ (fun _ => rfl) hmar fun m₂ h₂ => ?_
  exact Reaches.faultEntry h₂ fun _ => rfl

/-- Settles O49: the fetch raises and the fault is taken, and the `execute` goes on in mode continue. -/
theorem fetchFaults : Obligations.FetchFaults := by
  unfold Obligations.FetchFaults
  intro s hm h hmode hp hk hge
  obtain ⟨m, hshows, hrun⟩ := runSeq_fetch_raise (s := { s with turns := s.turns.tail }) (fin := decodeAndExec) hm
    (Nat.not_lt.2 hge)
  refine ⟨m, hshows, ?_⟩
  rw [step_fetch h hmode hp hk, hrun]
  exact settled_continue h.active.executing h.active.canRun rfl

/-! ### A stopped engine (41_execution_cycle.md R194, R195; 20_memory.md R77) -/

/-- Where the turn is the engine's, for a micro-step or as its mode says, the step is a turn of the engine. -/
theorem step_engineTurn (h : s.turns = [] ∨ s.turns.head? = some .engine ∨ s.turns.head? = some .micro) :
    ∃ run, step s = engineTurn run { s with turns := s.turns.tail } := by
  rw [step_eq]
  obtain h | h | h := h
  · exact ⟨runByMode, by rw [h]; rfl⟩
  · exact ⟨runByMode, by rw [h]; rfl⟩
  · exact ⟨engineMicro, by rw [h]; rfl⟩

variable {run : State → Out}

theorem engineTurn_refused (hr : s.refused = true) : engineTurn run s = .refused (s.refusal.getD .alreadyRefused) := by
  rw [engineTurn, if_pos hr]

theorem MemSys.drained_iff {m : MemSys} : m.drained = true ↔ m.wb = [] ∧ m.inflight = none := by
  rw [MemSys.drained, Bool.and_eq_true, List.isEmpty_iff, Option.isNone_iff_eq_none]

theorem engineTurn_afterShutdown (hr : s.refused = false) (ht : s.terminated = true)
    (hd : s.ms.wb = [] ∧ s.ms.inflight = none) : engineTurn run s = .next (s.refuse .afterShutdown) := by
  rw [engineTurn, hr, ht, MemSys.drained_iff.2 hd]
  rfl

theorem engineTurn_draining (hr : s.refused = false) (ht : s.terminated = true)
    (hd : ¬ (s.ms.wb = [] ∧ s.ms.inflight = none)) : engineTurn run s = idleStep s := by
  rw [engineTurn, hr, ht, if_neg (mt MemSys.drained_iff.1 hd)]
  rfl

/-- Outside an `execute`, halted or waiting, the engine has no step (60_exceptions.md R316). -/
theorem engineTurn_idle (hr : s.refused = false) (ht : s.terminated = false)
    (hidle : s.executing = false ∨ s.halted = true ∨ s.waitForInterrupt = true) : engineTurn run s = idleStep s := by
  have hstop : ¬ (s.executing && s.canRun) = true := by
    obtain h | h | h := hidle <;> simp [State.canRun, h]
  rw [engineTurn, hr, ht, if_neg hstop]
  rfl

/-- Settles O51: the step is a turn of the engine, which is refused, refuses, or makes the controller's moves alone. -/
theorem stoppedEngineIdles : Obligations.StoppedEngineIdles := by
  unfold Obligations.StoppedEngineIdles
  intro s hm hturn
  obtain ⟨run, hstep⟩ := step_engineTurn hturn
  have hshows : s.ms.startTurn.Shows s.ms.view := MemSys.startTurn_shows hm
  rw [hstep]
  refine ⟨fun hr ht hidle => ?idle, fun hr ht => ⟨fun hd => ?shutdown, fun hd => ?draining⟩, fun hr => ?refused⟩
  case idle => exact ⟨_, hshows, engineTurn_idle hr ht hidle⟩
  case shutdown => exact engineTurn_afterShutdown hr ht hd
  case draining => exact ⟨_, hshows, engineTurn_draining hr ht hd⟩
  case refused => exact engineTurn_refused hr

end Sys2Proof.Machine
end

section
/-! PROOFS. The statements on loads and stores (42_load_store.md). Each instruction is run in the same three parts, with one
lemma for each part: decode and the effective address, the word at the effective address, and the completion. -/

namespace Sys2Proof.Machine

variable {s t t' : State} {f g : Nat → Word} {X : MemSys → Out} {onFault : State → Out} {rest : List Micro}
  {ins : Instr} {lx i : Bool} {ix : BitVec 2} {addr : BitVec 5} {n : Nat} {m : MemSys} {ea v : Word} {pc : PcWord}

/-! ### A state inside a tail -/

/-- A state inside the tail of an instruction, `n` micro-steps after decode; `State.done` is the same after the last
micro-step (41_execution_cycle.md R185, R187). -/
def State.atTail (t : State) (ins : Instr) (n : Nat) (m : MemSys) : State :=
  { t with dec := fieldsOf ins, k := 4 + n, cycleCount := t.cycleCount + (n + 1), ms := m }

/-- Completion where no jump was taken (41_execution_cycle.md R190). -/
theorem State.atTail_completed (hj : t.jumpTaken = false) (hpc : t.pc = pc) :
    (t.atTail ins n m).completed.tick = t.done ins (pcNext pc) (n + 2) m := by
  obtain rfl := hpc
  dsimp only [State.completed, State.atTail]
  rw [hj]; rfl

/-- A register transfer inside a tail. -/
theorem Reaches.stepReg {u : State → State} (h : m.Shows g) (hu : ∀ m, u (t.atTail ins n m) = t'.atTail ins n m)
    (hrest : rest ≠ [])
    (next : ∀ m, m.Shows g → Reaches (runSeq .next onFault (stepsOf rest) (t'.atTail ins (n + 1) m)) f X) :
    Reaches (runSeq .next onFault (stepsOf (Machine.regOp u :: rest)) (t.atTail ins n m)) f X := by
  refine Reaches.tailReg hrest h fun m₁ h₁ => ?_
  have e : u ((t.atTail ins n m).withMs m₁) = t'.atTail ins n m₁ := hu m₁
  rw [e]
  exact next m₁ h₁

/-- A read in range inside a tail. -/
theorem Reaches.stepRead {addr : State → Word} {put : Word → State → State} (h : m.Shows g)
    (haddr : ∀ m, addr (t.atTail ins n m) = ea) (hlt : ea.toNat < Config.memWords)
    (hput : ∀ m, put (g ea.toNat) (t.atTail ins n m) = t'.atTail ins n m) (hrest : rest ≠ [])
    (next : ∀ m, m.Shows g → Reaches (runSeq .next onFault (stepsOf rest) (t'.atTail ins (n + 1) m)) f X) :
    Reaches (runSeq .next onFault (stepsOf (Machine.readOp addr put :: rest)) (t.atTail ins n m)) f X := by
  refine Reaches.tailRead hrest h (fun m' => (haddr m').trans (haddr m).symm) (by rwa [haddr]) fun m₁ h₁ => ?_
  have e : put (g ea.toNat) ((t.atTail ins n m).withMs m₁) = t'.atTail ins n m₁ := hput m₁
  rw [haddr, e]
  exact next m₁ h₁

/-- The last register transfer of an instruction that does not jump. -/
theorem Reaches.lastReg_done {u : State → State} (h : m.Shows g)
    (hu : ∀ m, u (t.atTail ins n m) = t'.atTail ins n m) (hj : t'.jumpTaken = false) (hpc : t'.pc = pc) :
    Reaches (runSeq .next onFault (stepsOf [Machine.regOp u]) (t.atTail ins n m)) g
      (fun m => .next (t'.done ins (pcNext pc) (n + 2) m)) := by
  refine Reaches.lastReg h fun m₁ h₁ => ⟨m₁, h₁, ?_⟩
  have e : u ((t.atTail ins n m).withMs m₁) = t'.atTail ins n m₁ := hu m₁
  rw [e, State.atTail_completed hj hpc]

/-- The last write of an instruction, in range: one word of the program's view changes. -/
theorem Reaches.lastWrite_done {addr value : State → Word} (h : m.Shows g) (haddr : ∀ m, addr (t.atTail ins n m) = ea)
    (hlt : ea.toNat < Config.memWords) (hvalue : ∀ m, value (t.atTail ins n m) = v) (hj : t.jumpTaken = false)
    (hpc : t.pc = pc) :
    Reaches (runSeq .next onFault (stepsOf [Machine.writeOp addr value fun s => s]) (t.atTail ins n m))
      (fun a => if a = ea.toNat then v else g a) (fun m => .next (t.done ins (pcNext pc) (n + 2) m)) := by
  refine Reaches.lastWrite h (fun m' => (haddr m').trans (haddr m).symm) (fun m' => (hvalue m').trans (hvalue m).symm)
    (by rwa [haddr]) fun m₁ h₁ => ⟨m₁, ?_, ?_⟩
  · rwa [haddr, hvalue] at h₁
  · exact congrArg _ (State.atTail_completed hj hpc)

/-! ### Decode and the effective address (41_execution_cycle.md R185, R188) -/

@[simp] theorem State.withEa_ea : (s.withEa lx ix i addr).ea = s.effAddr lx ix i addr := by cases i <;> rfl
@[simp] theorem State.withEa_pc : (s.withEa lx ix i addr).pc = s.pc := by cases i <;> rfl
@[simp] theorem State.withEa_jumpTaken : (s.withEa lx ix i addr).jumpTaken = s.jumpTaken := by cases i <;> rfl
@[simp] theorem State.withEa_getR (n : BitVec 2) : (s.withEa lx ix i addr).getR n = s.getR n := by cases i <;> rfl
@[simp] theorem State.withEa_getX (n : BitVec 2) : (s.withEa lx ix i addr).getX n = s.getX n := by cases i <;> rfl

/-- The operands of the effective address are what decode leaves in the field registers. -/
theorem fieldsOf_of_eaOperands (h : eaOperands ins = some (lx, ix, i, addr)) :
    opcodeIsLX (fieldsOf ins).opcode = lx ∧ (fieldsOf ins).ix = ix ∧ (fieldsOf ins).addr = addr := by
  cases ins <;> cases h <;> exact ⟨rfl, rfl, rfl⟩

/-- An instruction with a readable effective address, up to the micro-step after the address: the program sees the
decoded memory, and EA holds the effective address. -/
theorem Reaches.exec_ea (hops : eaOperands ins = some (lx, ix, i, addr)) (hwf : ins.wellFormed = true)
    (htail : tailOf ins = Machine.eaOps i ++ rest) (hrest : rest ≠ []) (hm : s.ms.Inv)
    (hread : s.eaReadable lx ix i addr)
    (next : ∀ m, m.Shows (s.seen addr) → Reaches
      (runSeq .next (runFaultEntry 0) (stepsOf rest) ((s.withEa lx ix i addr).atTail ins (eaSteps i) m)) f X) :
    Reaches (exec ins s) f X := by
  obtain ⟨rfl, rfl, rfl⟩ := fieldsOf_of_eaOperands hops
  rw [exec_runSeq ins hwf, htail]
  refine Reaches.decodeStep hm fun m₁ h₁ => Reaches.eaOps hrest h₁ i hread fun m₂ h₂ => ?_
  cases i <;> exact next m₂ h₂

/-! ### The word at the effective address (20_memory.md R69, R70) -/

/-- `MAR <- EA`, then the read of the word there. -/
theorem Reaches.operandRead (h : m.Shows g) (hea : t.ea = ea) (hlt : ea.toNat < Config.memWords)
    (hv : v = g ea.toNat) (hrest : rest ≠ [])
    (next : ∀ m, m.Shows g → Reaches
      (runSeq .next onFault (stepsOf rest) (State.atTail { t with mar := ea, mdr := v } ins (n + 2) m)) f X) :
    Reaches (runSeq .next onFault (stepsOf (marFromEa :: mdrFromMem :: rest)) (t.atTail ins n m)) f X := by
  obtain rfl := hv
  obtain rfl := hea
  refine Reaches.stepReg (t' := { t with mar := t.ea }) h (fun _ => rfl) (List.cons_ne_nil _ _) fun m₁ h₁ => ?_
  exact Reaches.stepRead h₁ (fun _ => rfl) hlt (fun _ => rfl) hrest next

/-- `MAR <- EA`, a register into MDR, and the write that completes a store: one word of the program's view changes. -/
theorem Reaches.operandWrite {u : State → Word} (h : m.Shows g) (hea : t.ea = ea) (hlt : ea.toNat < Config.memWords)
    (hu : ∀ m, u (State.atTail { t with mar := ea } ins (n + 1) m) = v) (hj : t.jumpTaken = false) (hpc : t.pc = pc) :
    Reaches (runSeq .next onFault
        (stepsOf [marFromEa, Machine.regOp fun s => { s with mdr := u s }, memFromMdr]) (t.atTail ins n m))
      (fun a => if a = ea.toNat then v else g a)
      (fun m => .next (State.done { t with mar := ea, mdr := v } ins (pcNext pc) (n + 4) m)) := by
  obtain rfl := hea
  refine Reaches.stepReg (t' := { t with mar := t.ea }) h (fun _ => rfl) (List.cons_ne_nil _ _) fun m₁ h₁ => ?_
  refine Reaches.stepReg (t' := { t with mar := t.ea, mdr := v }) h₁ (fun m => ?_) (List.cons_ne_nil _ _) fun m₂ h₂ => ?_
  · rw [hu]; rfl
  · exact Reaches.lastWrite_done (n := n + 2) h₂ (fun _ => rfl) hlt (fun _ => rfl) hj hpc

/-! ### The statements -/

/-- What LDX and STX ask of IX (30_encoding.md R127). -/
theorem namesIndex_of_ne_zero (h : ix ≠ 0) : namesIndex ix = true := bne_iff_ne.2 h

/-- There is no X0 (10_state.md R23). -/
theorem State.ne_zero_of_getX (h : s.getX ix = some v) : ix ≠ 0 := by
  rintro rfl
  exact nomatch (show none = some v from h)

/-- Settles O19: the word at EA is read into MDR, and the last micro-step copies it to R[r]. -/
theorem ldrLoads : Obligations.LdrLoads := by
  unfold Obligations.LdrLoads
  intro r ix i addr s ea w hm hj hread hea hlt hw
  refine Reaches.exec_ea rfl rfl rfl (List.cons_ne_nil _ _) hm hread fun m₁ h₁ => ?_
  refine Reaches.operandRead h₁ (State.withEa_ea.trans hea.symm) hlt hw (List.cons_ne_nil _ _) fun m₂ h₂ => ?_
  exact Reaches.lastReg_done h₂ (fun _ => rfl) (State.withEa_jumpTaken.trans hj) State.withEa_pc

/-- Settles O20: as LDR, with the address that no index register enters, and X[ix] as the register loaded. -/
theorem ldxLoads : Obligations.LdxLoads := by
  unfold Obligations.LdxLoads
  intro ix i addr s ea w hm hj hix hread hea hlt hw
  refine Reaches.exec_ea rfl (namesIndex_of_ne_zero hix) rfl (List.cons_ne_nil _ _) hm hread fun m₁ h₁ => ?_
  refine Reaches.operandRead h₁ (State.withEa_ea.trans hea.symm) hlt hw (List.cons_ne_nil _ _) fun m₂ h₂ => ?_
  exact Reaches.lastReg_done h₂ (fun _ => rfl) (State.withEa_jumpTaken.trans hj) State.withEa_pc

/-- Settles O21: R[r], which no step of the address writes, goes through MDR to the word at EA. -/
theorem strStores : Obligations.StrStores := by
  unfold Obligations.StrStores
  intro r ix i addr s ea hm hj hread hea hlt
  refine Reaches.exec_ea rfl rfl rfl (List.cons_ne_nil _ _) hm hread fun m₁ h₁ => ?_
  exact Reaches.operandWrite h₁ (State.withEa_ea.trans hea.symm) hlt (fun _ => State.withEa_getR r)
    (State.withEa_jumpTaken.trans hj) State.withEa_pc

/-- Settles O22: as STR, with X[ix] as the register stored. -/
theorem stxStores : Obligations.StxStores := by
  unfold Obligations.StxStores
  intro ix i addr s ea x hm hj hx hread hea hlt
  refine Reaches.exec_ea rfl (namesIndex_of_ne_zero (State.ne_zero_of_getX hx)) rfl (List.cons_ne_nil _ _) hm hread
    fun m₁ h₁ => ?_
  exact Reaches.operandWrite h₁ (State.withEa_ea.trans hea.symm) hlt
    (fun _ => congrArg (Option.getD · 0) ((State.withEa_getX ix).trans hx))
    (State.withEa_jumpTaken.trans hj) State.withEa_pc

/-- Settles O23: the last micro-step copies EA to R[r], and no micro-step reads the word there. -/
theorem ldaLoadsAddress : Obligations.LdaLoadsAddress := by
  unfold Obligations.LdaLoadsAddress
  intro r ix i addr s hm hj hread
  refine Reaches.exec_ea rfl rfl rfl (List.cons_ne_nil _ _) hm hread fun m₁ h₁ => ?_
  refine Reaches.lastReg_done h₁ (fun m => ?_) (State.withEa_jumpTaken.trans hj) State.withEa_pc
  rw [← State.withEa_ea]
  rfl

end Sys2Proof.Machine
end

section
/-! PROOFS. The statements on transfer of control (43_transfer.md). Each instruction is run to its last micro-step, the
jump, and completed with the PC that the jump leaves. -/

namespace Sys2Proof.Machine

variable {s t : State} {f g : Nat → Word} {X : MemSys → Out} {onFault : State → Out} {rest : List Micro}
  {ins : Instr} {lx i b : Bool} {r ix : BitVec 2} {addr : BitVec 5} {n : Nat} {m : MemSys} {ea v : Word} {pc : PcWord}

/-! ### The tests and the decrement in the arithmetic of `BitVec` -/

/-- The sign test is the complement of the top bit (43_transfer.md R236, R237). -/
theorem signedNonneg_eq_not_msb (v : Word) : signedNonneg v = !v.msb := by
  rw [signedNonneg, BitVec.msb_eq_toInt, ← decide_not, decide_eq_decide]
  exact Int.not_lt.symm

/-- A jump on the sign test, written as a case split on the top bit. -/
theorem ite_signedNonneg {α : Type} (v : Word) (a b : α) :
    (if signedNonneg v then a else b) = if v.msb then b else a := by
  rw [signedNonneg_eq_not_msb]
  cases v.msb <;> rfl

theorem decrement_eq (v : Word) : decrement v = v - 1 := by
  have h : (1 : Word).toNat = 1 := rfl
  rw [decrement, BitVec.sub_def, h]
  congr 1
  omega

/-- EQUALORNOT after TRR is the comparison of the operands (40_alu.md R156; 10_state.md R28). -/
theorem ccFlag_trrFlags (a b : Word) : ccFlag (trrFlags a b) flagEqualornot = decide (a = b) := by
  rw [trrFlags_eq]
  by_cases h : a = b
  · rw [if_pos h, decide_eq_true h]; rfl
  · rw [if_neg h, decide_eq_false h]; rfl

/-! ### The jump completes the instruction (41_execution_cycle.md R190, R191) -/

/-- Completion after a conditional jump: the target if it is taken, else the next address. -/
theorem State.atTail_jumpIf_completed (hj : t.jumpTaken = false) :
    ((t.atTail ins n m).jumpIf b v).completed.tick =
      t.done ins (if b then wordToPc v else pcNext t.pc) (n + 2) m := by
  cases b with
  | true => rfl
  | false => exact State.atTail_completed hj rfl

/-- Completion after an unconditional jump, which sets jump_taken whatever it was before. -/
theorem State.atTail_jump_completed :
    ((t.atTail ins n m).jump v).completed.tick = t.done ins (wordToPc v) (n + 2) m := rfl

/-- The conditional jump to EA as the last micro-step, with `pc` the address that its outcome gives. -/
theorem Reaches.lastJumpToEaIf_done {c : State → Bool} (h : m.Shows g) (hc : ∀ m, c (t.atTail ins n m) = b)
    (hj : t.jumpTaken = false) (hpc : (if b then wordToPc t.ea else pcNext t.pc) = pc) :
    Reaches (runSeq .next onFault (stepsOf [jumpToEaIf c]) (t.atTail ins n m)) g
      (fun m => .next (t.done ins pc (n + 2) m)) := by
  refine Reaches.lastReg h fun m₁ h₁ => ⟨m₁, h₁, ?_⟩
  have e : (t.atTail ins n m).withMs m₁ = t.atTail ins n m₁ := rfl
  have hea : (t.atTail ins n m₁).ea = t.ea := rfl
  rw [e, hc, hea, State.atTail_jumpIf_completed hj, hpc]

/-- The unconditional jump as the last micro-step. -/
theorem Reaches.lastJump_done {target : State → Word} (h : m.Shows g) (hv : ∀ m, target (t.atTail ins n m) = v) :
    Reaches (runSeq .next onFault (stepsOf [Machine.regOp fun s => s.jump (target s)]) (t.atTail ins n m)) g
      (fun m => .next (t.done ins (wordToPc v) (n + 2) m)) := by
  refine Reaches.lastReg h fun m₁ h₁ => ⟨m₁, h₁, ?_⟩
  have e : (t.atTail ins n m).withMs m₁ = t.atTail ins n m₁ := rfl
  rw [e, hv, State.atTail_jump_completed]

/-! ### The micro-steps before the jump -/

@[simp] theorem State.withEa_cc : (s.withEa lx ix i addr).cc = s.cc := by cases i <;> rfl

/-- A well-formed instruction up to the micro-step after decode. -/
theorem Reaches.exec_decoded (hwf : ins.wellFormed = true) (hm : s.ms.Inv)
    (next : ∀ m, m.Shows (s.seen (fieldsOf ins).addr) → Reaches
      (runSeq .next (runFaultEntry 0) (stepsOf (tailOf ins)) (s.atTail ins 0 m)) f X) :
    Reaches (exec ins s) f X := by
  rw [exec_runSeq ins hwf]
  exact Reaches.decodeStep hm next

/-- A state after JZ or JNE has compared a register's value with 0 (43_transfer.md R230, R231). -/
def State.comparedWithZero (t : State) (v : Word) : State :=
  { t with op1 := v, op2 := 0, cc := if v = 0 then 0b0001#4 else 0b0000#4 }

/-- JZ and JNE from the effective address on: the comparison with 0, then the jump on a condition that EQUALORNOT
decides. -/
theorem Reaches.compareJump_done {c : Bool → Bool} (h : m.Shows g) (hv : t.getR (fieldsOf ins).r = v)
    (hj : t.jumpTaken = false)
    (hpc : (if c (decide (v = 0)) then wordToPc t.ea else pcNext t.pc) = pc) :
    Reaches (runSeq .next onFault
        (stepsOf [op1FromR, op2Zero, Machine.regOp aluTrr, jumpToEaIf fun s => c (ccFlag s.cc flagEqualornot)])
        (t.atTail ins n m)) g
      (fun m => .next ((t.comparedWithZero v).done ins pc (n + 5) m)) := by
  obtain rfl := hv
  refine Reaches.stepReg (t' := { t with op1 := t.getR (fieldsOf ins).r }) h (fun _ => rfl) (List.cons_ne_nil _ _)
    fun m₁ h₁ => ?_
  refine Reaches.stepReg (t' := { t with op1 := t.getR (fieldsOf ins).r, op2 := 0 }) h₁ (fun _ => rfl)
    (List.cons_ne_nil _ _) fun m₂ h₂ => ?_
  refine Reaches.stepReg (t' := t.comparedWithZero (t.getR (fieldsOf ins).r)) h₂ (fun _ => aluTrr_eq _)
    (List.cons_ne_nil _ _) fun m₃ h₃ => ?_
  refine Reaches.lastJumpToEaIf_done h₃ (fun _ => ?_) hj hpc
  rw [← ccFlag_trrFlags, trrFlags_eq]
  rfl

/-! ### The statements -/

/-- Settles O24: both instructions compare R[r] with 0 and differ in the outcome that jumps. -/
theorem jzJneJump : Obligations.JzJneJump := by
  unfold Obligations.JzJneJump
  intro r ix i addr s hm hj hread
  have hjEa : (s.withEa false ix i addr).jumpTaken = false := State.withEa_jumpTaken.trans hj
  refine ⟨?jz, ?jne⟩
  case jz =>
    refine Reaches.exec_ea rfl rfl rfl (List.cons_ne_nil _ _) hm hread fun m₁ h₁ => ?_
    refine Reaches.compareJump_done (c := id) h₁ (State.withEa_getR r) hjEa ?_
    simp
  case jne =>
    refine Reaches.exec_ea rfl rfl rfl (List.cons_ne_nil _ _) hm hread fun m₁ h₁ => ?_
    refine Reaches.compareJump_done (c := not) h₁ (State.withEa_getR r) hjEa ?_
    simp

/-- Settles O25: no step of the address writes CC, so the flag tested is the one that was there. -/
theorem jccJumps : Obligations.JccJumps := by
  unfold Obligations.JccJumps
  intro cc ix i addr s hm hj hread
  refine Reaches.exec_ea rfl rfl rfl (List.cons_ne_nil _ _) hm hread fun m₁ h₁ => ?_
  refine Reaches.lastJumpToEaIf_done h₁ (fun _ => congrArg (ccFlag · cc) State.withEa_cc)
    (State.withEa_jumpTaken.trans hj) ?_
  rw [State.withEa_ea, State.withEa_pc]
  rfl

/-- Settles O26: the jump is the last micro-step, and JSR writes R3 before it, while PC is still that of JSR. -/
theorem jmpJsrJump : Obligations.JmpJsrJump := by
  unfold Obligations.JmpJsrJump
  intro r ix i addr s hm hread
  refine ⟨?jmp, ?jsr⟩
  case jmp =>
    refine Reaches.exec_ea rfl rfl rfl (List.cons_ne_nil _ _) hm hread fun m₁ h₁ => ?_
    exact Reaches.lastJump_done h₁ fun _ => State.withEa_ea
  case jsr =>
    have hpc : (s.withEa false ix i addr).pc = s.pc := State.withEa_pc
    refine Reaches.exec_ea rfl rfl rfl (List.cons_ne_nil _ _) hm hread fun m₁ h₁ => ?_
    refine Reaches.stepReg (t' := { s.withEa false ix i addr with r3 := (s.pc + 1).setWidth 18 }) h₁ (fun _ => ?_)
      (List.cons_ne_nil _ _) fun m₂ h₂ => ?_
    · rw [← hpc]
      rfl
    · exact Reaches.lastJump_done h₂ fun _ => State.withEa_ea

/-- Settles O27: the write of R0 comes first and leaves R3, the jump's target. -/
theorem rfsReturns : Obligations.RfsReturns := by
  unfold Obligations.RfsReturns
  intro r ix i addr s hm
  refine Reaches.exec_decoded rfl hm fun m₁ h₁ => ?_
  refine Reaches.stepReg (t' := { s with r0 := addr.setWidth 18 }) h₁ (fun _ => rfl) (List.cons_ne_nil _ _)
    fun m₂ h₂ => ?_
  exact Reaches.lastJump_done h₂ fun _ => rfl

/-- Settles O28: both instructions test the sign of R[r] as it is at the jump, which for SOB is the decremented value. -/
theorem sobJgeJump : Obligations.SobJgeJump := by
  unfold Obligations.SobJgeJump
  intro r ix i addr s hm hj hread
  have hjEa : (s.withEa false ix i addr).jumpTaken = false := State.withEa_jumpTaken.trans hj
  have hr : (s.withEa false ix i addr).getR r = s.getR r := State.withEa_getR r
  refine ⟨?sob, ?jge⟩
  case sob =>
    refine Reaches.exec_ea rfl rfl rfl (List.cons_ne_nil _ _) hm hread fun m₁ h₁ => ?_
    refine Reaches.stepReg (t' := (s.withEa false ix i addr).setR r (s.getR r - 1)) h₁ (fun m => ?_)
      (List.cons_ne_nil _ _) fun m₂ h₂ => ?_
    · rw [← decrement_eq, ← hr]
      rfl
    · refine Reaches.lastJumpToEaIf_done h₂ (fun _ => congrArg signedNonneg (State.getR_setR_same _ r _)) hjEa ?_
      rw [ite_signedNonneg, State.setR_ea, State.setR_pc, State.withEa_ea, State.withEa_pc]
  case jge =>
    refine Reaches.exec_ea rfl rfl rfl (List.cons_ne_nil _ _) hm hread fun m₁ h₁ => ?_
    refine Reaches.lastJumpToEaIf_done h₁ (fun _ => congrArg signedNonneg hr) hjEa ?_
    rw [ite_signedNonneg, State.withEa_ea, State.withEa_pc]

end Sys2Proof.Machine
end

section
/-! PROOFS. The statements on arithmetic and logic (44_arith_logic.md). Each instruction is run in two parts, with one
lemma for each form of a part: decode and the operands into the ALU's latches; the ALU's operation and its results into
R[r], R[rx] or the register pair. -/

namespace Sys2Proof.Machine

variable {s t t' : State} {f g : Nat → Word} {X : MemSys → Out} {onFault : State → Out} {rest : List Micro}
  {ins : Instr} {lx i : Bool} {r rx ix : BitVec 2} {addr : BitVec 5} {n : Nat} {m : MemSys} {ea w : Word} {pc : PcWord}

/-! ### Results in the arithmetic of `BitVec` -/

/-- The two halves of a product are determined by it (40_alu.md R154). -/
theorem mltHalves_unique {a b hi lo : Word} (h : hi.toNat * 2 ^ 18 + lo.toNat = a.toNat * b.toNat) :
    mltHigh a b = hi ∧ mltLow a b = lo := by
  have hprod := (mltHigh_mltLow a b).trans h.symm
  have := lo.isLt
  have := (mltLow a b).isLt
  exact ⟨BitVec.eq_of_toNat_eq (by omega), BitVec.eq_of_toNat_eq (by omega)⟩

/-- A latch that holds a bit is 1 iff the bit is set (44_arith_logic.md R260, R261). -/
theorem setWidth_ofBool_eq_one (b : Bool) : (BitVec.ofBool b).setWidth 18 = (1 : Word) ↔ b = true := by
  cases b <;> decide

/-- OP2 holds the count itself (44_arith_logic.md R260, R261). -/
theorem toNat_setWidth_count (count : BitVec 4) : (count.setWidth 18).toNat = count.toNat :=
  BitVec.toNat_setWidth_of_le (by decide)

/-- What MLT and DVD ask of RX (30_encoding.md R127). -/
theorem evenPair_of_eq (h : rx = 0 ∨ rx = 2) : evenPair rx = true := by
  obtain rfl | rfl := h <;> rfl

/-! ### Decode (41_execution_cycle.md R185, R186) -/

/-- A well-formed instruction with no ADDR field up to the micro-step after decode: no word that the program sees
changes. -/
theorem Reaches.exec_decoded_noAddr (hwf : ins.wellFormed = true) (haddr : (fieldsOf ins).addr = 0) (hm : s.ms.Inv)
    (next : ∀ m, m.Shows s.ms.view →
      Reaches (runSeq .next (runFaultEntry 0) (stepsOf (tailOf ins)) (s.atTail ins 0 m)) f X) :
    Reaches (exec ins s) f X := by
  refine Reaches.exec_decoded hwf hm fun m₁ h₁ => next m₁ ?_
  rwa [haddr, State.seen_zero] at h₁

/-! ### The operands into the latches (40_alu.md R150) -/

/-- AMR and SMR up to the ALU's micro-step: the word at EA, through MAR and MDR, is in OP2, and R[r], which no step of
the address writes, in OP1. -/
theorem Reaches.exec_memoryOperand (hops : eaOperands ins = some (lx, ix, i, addr)) (hwf : ins.wellFormed = true)
    (htail : tailOf ins = Machine.eaOps i ++ marFromEa :: mdrFromMem :: op2FromMdr :: op1FromR :: rest)
    (hrest : rest ≠ []) (hm : s.ms.Inv) (hread : s.eaReadable lx ix i addr) (hea : ea = s.effAddr lx ix i addr)
    (hlt : ea.toNat < Config.memWords) (hw : w = s.seen addr ea.toNat)
    (next : ∀ m, m.Shows (s.seen addr) → Reaches (runSeq .next (runFaultEntry 0) (stepsOf rest) (State.atTail
      { s.withEa lx ix i addr with mar := ea, mdr := w, op1 := s.getR (fieldsOf ins).r, op2 := w }
      ins (eaSteps i + 4) m)) f X) :
    Reaches (exec ins s) f X := by
  have hr : (s.withEa lx ix i addr).getR (fieldsOf ins).r = s.getR (fieldsOf ins).r := State.withEa_getR _
  refine Reaches.exec_ea hops hwf htail (List.cons_ne_nil _ _) hm hread fun m₁ h₁ => ?_
  refine Reaches.operandRead h₁ (State.withEa_ea.trans hea.symm) hlt hw (List.cons_ne_nil _ _) fun m₂ h₂ => ?_
  refine Reaches.stepReg (t' := { s.withEa lx ix i addr with mar := ea, mdr := w, op2 := w }) h₂ (fun _ => rfl)
    (List.cons_ne_nil _ _) fun m₃ h₃ => ?_
  refine Reaches.stepReg h₃ (fun _ => ?_) hrest next
  rw [← hr]
  rfl

/-- AIR and SIR up to the ALU's micro-step: R[r] is in OP1 and the immediate in OP2. -/
theorem Reaches.exec_immediate (hwf : ins.wellFormed = true) (htail : tailOf ins = op1FromR :: op2FromAddr :: rest)
    (hrest : rest ≠ []) (hm : s.ms.Inv)
    (next : ∀ m, m.Shows (s.seen (fieldsOf ins).addr) → Reaches (runSeq .next (runFaultEntry 0) (stepsOf rest)
      (State.atTail { s with op1 := s.getR (fieldsOf ins).r, op2 := (fieldsOf ins).addr.setWidth 18 } ins 2 m)) f X) :
    Reaches (exec ins s) f X := by
  refine Reaches.exec_decoded hwf hm fun m₁ h₁ => ?_
  rw [htail]
  refine Reaches.stepReg (t' := { s with op1 := s.getR (fieldsOf ins).r }) h₁ (fun _ => rfl) (List.cons_ne_nil _ _)
    fun m₂ h₂ => ?_
  exact Reaches.stepReg h₂ (fun _ => rfl) hrest next

/-- The instructions on two registers up to the ALU's micro-step: R[rx] is in OP1 and R[ry] in OP2. -/
theorem Reaches.exec_twoRegisters (hwf : ins.wellFormed = true) (haddr : (fieldsOf ins).addr = 0)
    (htail : tailOf ins = op1FromRx :: op2FromRy :: rest) (hrest : rest ≠ []) (hm : s.ms.Inv)
    (next : ∀ m, m.Shows s.ms.view → Reaches (runSeq .next (runFaultEntry 0) (stepsOf rest) (State.atTail
      { s with op1 := s.getR (fieldsOf ins).rx, op2 := s.getR (fieldsOf ins).ry } ins 2 m)) f X) :
    Reaches (exec ins s) f X := by
  refine Reaches.exec_decoded_noAddr hwf haddr hm fun m₁ h₁ => ?_
  rw [htail]
  refine Reaches.stepReg (t' := { s with op1 := s.getR (fieldsOf ins).rx }) h₁ (fun _ => rfl) (List.cons_ne_nil _ _)
    fun m₂ h₂ => ?_
  exact Reaches.stepReg h₂ (fun _ => rfl) hrest next

/-- The state with the operands of a shift or a rotate in the latches (44_arith_logic.md R260, R261). -/
def State.shiftLatched (t : State) (d : DecodeFields) : State :=
  { t with op1 := t.getR d.r, op2 := d.count.setWidth 18, op3 := d.lr.setWidth 18, op4 := d.al.setWidth 18 }

/-- SRC and RRC up to the ALU's micro-step: R[r], the count and the two modes are in the four latches. -/
theorem Reaches.exec_shiftOperands (hwf : ins.wellFormed = true) (haddr : (fieldsOf ins).addr = 0)
    (htail : tailOf ins = shiftLatches ++ rest) (hrest : rest ≠ []) (hm : s.ms.Inv)
    (next : ∀ m, m.Shows s.ms.view → Reaches (runSeq .next (runFaultEntry 0) (stepsOf rest)
      ((s.shiftLatched (fieldsOf ins)).atTail ins 4 m)) f X) :
    Reaches (exec ins s) f X := by
  refine Reaches.exec_decoded_noAddr hwf haddr hm fun m₁ h₁ => ?_
  rw [htail]
  refine Reaches.stepReg (t' := { s with op1 := s.getR (fieldsOf ins).r }) h₁ (fun _ => rfl) (List.cons_ne_nil _ _)
    fun m₂ h₂ => ?_
  refine Reaches.stepReg (t' := { s with op1 := s.getR (fieldsOf ins).r, op2 := (fieldsOf ins).count.setWidth 18 }) h₂
    (fun _ => rfl) (List.cons_ne_nil _ _) fun m₃ h₃ => ?_
  refine Reaches.stepReg (t' := { s with
    op1 := s.getR (fieldsOf ins).r, op2 := (fieldsOf ins).count.setWidth 18, op3 := (fieldsOf ins).lr.setWidth 18 }) h₃
    (fun _ => rfl) (List.cons_ne_nil _ _) fun m₄ h₄ => ?_
  exact Reaches.stepReg h₄ (fun _ => rfl) hrest next

/-! ### The operation, and its results into the registers -/

theorem retryHeld_of_complete {op : Micro} (h : op s = .complete t) : ∀ n, retryHeld n op s = .complete t
  | 0 => h
  | n + 1 => by simp only [retryHeld, h]

/-- The ALU's operation, then RESULT into the register that a field names: the last two micro-steps of an instruction
with one result. -/
theorem Reaches.aluToRegister_done {u : State → State} (dst : DecodeFields → BitVec 2) (h : m.Shows g)
    (hu : ∀ m, u (t.atTail ins n m) = t'.atTail ins n m) (hj : t'.jumpTaken = false) (hpc : t'.pc = pc) :
    Reaches (runSeq .next onFault
        (stepsOf [Machine.regOp u, Machine.regOp fun s => s.setR (dst s.dec) s.result]) (t.atTail ins n m)) g
      (fun m => .next ((t'.setR (dst (fieldsOf ins)) t'.result).done ins (pcNext pc) (n + 3) m)) := by
  refine Reaches.stepReg h hu (List.cons_ne_nil _ _) fun m₁ h₁ => ?_
  exact Reaches.lastReg_done h₁ (fun _ => rfl) hj hpc

/-- A micro-op that is taken at every memory side, and is not the last of its tail. -/
theorem Reaches.stepOk {op : Micro} (h : m.Shows g) (hop : ∀ m, op (t.atTail ins n m) = .ok (t'.atTail ins n m))
    (hrest : rest ≠ [])
    (next : ∀ m, m.Shows g → Reaches (runSeq .next onFault (stepsOf rest) (t'.atTail ins (n + 1) m)) f X) :
    Reaches (runSeq .next onFault (stepsOf (op :: rest)) (t.atTail ins n m)) f X := by
  have hadv : thenAdvance op (t.atTail ins n m.startTurn) = .ok (t'.atTail ins n m.startTurn).nextK := by
    rw [thenAdvance, hop]
  have hturn : microTurn (thenAdvance op) (t.atTail ins n m) = .ok (t'.atTail ins (n + 1) m.startTurn) :=
    congrArg account (retryHeld_of_ok hadv _)
  rw [stepsOf_cons _ hrest, runSeq, hturn]
  exact next _ h.startTurn

/-- A micro-op that completes the instruction at every memory side, whatever micro-steps stand after it. -/
theorem Reaches.stepComplete_done {op : Micro} (h : m.Shows g)
    (hop : ∀ m, op (t.atTail ins n m) = .complete (t'.atTail ins n m)) (hrest : rest ≠ [])
    (hj : t'.jumpTaken = false) (hpc : t'.pc = pc) :
    Reaches (runSeq .next onFault (stepsOf (op :: rest)) (t.atTail ins n m)) g
      (fun m => .next (t'.done ins (pcNext pc) (n + 2) m)) := by
  have hadv : thenAdvance op (t.atTail ins n m.startTurn) = .complete (t'.atTail ins n m.startTurn).completed := by
    rw [thenAdvance, hop]
  have hturn : microTurn (thenAdvance op) (t.atTail ins n m) =
      .complete (t'.atTail ins n m.startTurn).completed.tick :=
    congrArg account (retryHeld_of_complete hadv _)
  rw [stepsOf_cons _ hrest, runSeq, hturn]
  exact ⟨_, h.startTurn, congrArg _ (State.atTail_completed hj hpc)⟩

/-- The operation, then RESULT and RESULT2 into the register pair: the last three micro-steps of MLT and DVD. -/
theorem Reaches.opToPair_done {op : Micro} (h : m.Shows g)
    (hop : ∀ m, op (t.atTail ins n m) = .ok (t'.atTail ins n m)) (hj : t'.jumpTaken = false) (hpc : t'.pc = pc) :
    Reaches (runSeq .next onFault (stepsOf [op, rxFromResult, rxNextFromResult2]) (t.atTail ins n m)) g
      (fun m => .next (((t'.setR (fieldsOf ins).rx t'.result).setR ((fieldsOf ins).rx + 1) t'.result2).done ins
        (pcNext pc) (n + 4) m)) := by
  refine Reaches.stepOk h hop (List.cons_ne_nil _ _) fun m₁ h₁ => ?_
  refine Reaches.stepReg (t' := t'.setR (fieldsOf ins).rx t'.result) h₁ (fun _ => rfl) (List.cons_ne_nil _ _)
    fun m₂ h₂ => ?_
  exact Reaches.lastReg_done h₂ (fun _ => rfl) hj hpc

/-! ### The statements -/

/-- Settles O29: R[r] and the word at EA are the operands of ADD or SUB, whose result goes back to R[r]. -/
theorem amrSmrCompute : Obligations.AmrSmrCompute := by
  unfold Obligations.AmrSmrCompute
  intro r ix i addr s ea w hm hj hread hea hlt hw
  have hjEa : (s.withEa false ix i addr).jumpTaken = false := State.withEa_jumpTaken.trans hj
  refine ⟨?amr, ?smr⟩
  case amr =>
    refine Reaches.exec_memoryOperand rfl rfl rfl (List.cons_ne_nil _ _) hm hread hea hlt hw fun m₁ h₁ => ?_
    exact Reaches.aluToRegister_done DecodeFields.r h₁ (fun _ => aluAdd_eq _) hjEa State.withEa_pc
  case smr =>
    refine Reaches.exec_memoryOperand rfl rfl rfl (List.cons_ne_nil _ _) hm hread hea hlt hw fun m₁ h₁ => ?_
    exact Reaches.aluToRegister_done DecodeFields.r h₁ (fun _ => aluSub_eq _) hjEa State.withEa_pc

/-- Settles O30: as AMR and SMR, with the immediate as the second operand. -/
theorem airSirCompute : Obligations.AirSirCompute := by
  unfold Obligations.AirSirCompute
  intro r addr s w hm hj hw
  obtain rfl := hw
  refine ⟨?air, ?sir⟩
  case air =>
    refine Reaches.exec_immediate rfl rfl (List.cons_ne_nil _ _) hm fun m₁ h₁ => ?_
    exact Reaches.aluToRegister_done DecodeFields.r h₁ (fun _ => aluAdd_eq _) hj rfl
  case sir =>
    refine Reaches.exec_immediate rfl rfl (List.cons_ne_nil _ _) hm fun m₁ h₁ => ?_
    exact Reaches.aluToRegister_done DecodeFields.r h₁ (fun _ => aluSub_eq _) hj rfl

/-- Settles O31: both operands are latched before either register of the pair is written, so the product is that of the
old values, and its halves are the given ones. -/
theorem mltMultiplies : Obligations.MltMultiplies := by
  unfold Obligations.MltMultiplies
  intro rx ry s hi lo hm hj hrx hprod
  obtain ⟨rfl, rfl⟩ := mltHalves_unique hprod
  refine Reaches.exec_twoRegisters (evenPair_of_eq hrx) rfl rfl (List.cons_ne_nil _ _) hm fun m₁ h₁ => ?_
  exact Reaches.opToPair_done h₁ (fun _ => congrArg MicroResult.ok (aluMlt_eq _)) hj rfl

/-- Settles O32: the ALU step of DVD goes on to the register pair or completes the instruction, by the divisor. -/
theorem dvdDivides : Obligations.DvdDivides := by
  unfold Obligations.DvdDivides
  intro rx ry s hm hj hrx
  refine ⟨fun hne => ?nonzero, fun hzero => ?zero⟩
  case nonzero =>
    refine Reaches.exec_twoRegisters (evenPair_of_eq hrx) rfl rfl (List.cons_ne_nil _ _) hm fun m₁ h₁ => ?_
    exact Reaches.opToPair_done h₁ (fun _ => (dvdOp_nonzero hne).trans (congrArg _ (aluDvd_of_ne_zero hne))) hj rfl
  case zero =>
    refine Reaches.exec_twoRegisters (evenPair_of_eq hrx) rfl rfl (List.cons_ne_nil _ _) hm fun m₁ h₁ => ?_
    exact Reaches.stepComplete_done h₁ (fun _ => (dvdOp_zero hzero).trans (congrArg _ (aluDvd_of_eq_zero hzero)))
      (List.cons_ne_nil _ _) hj rfl

/-- Settles O33: TRR ends with its ALU step, which writes CC; the others copy RESULT to R[rx]. -/
theorem logicComputes : Obligations.LogicComputes := by
  unfold Obligations.LogicComputes
  intro rx ry s hm hj
  refine ⟨?trr, ?and, ?orr, ?not⟩
  case trr =>
    refine Reaches.exec_twoRegisters rfl rfl rfl (List.cons_ne_nil _ _) hm fun m₁ h₁ => ?_
    exact Reaches.lastReg_done h₁ (fun _ => aluTrr_eq _) hj rfl
  case and =>
    refine Reaches.exec_twoRegisters rfl rfl rfl (List.cons_ne_nil _ _) hm fun m₁ h₁ => ?_
    exact Reaches.aluToRegister_done DecodeFields.rx h₁ (fun _ => rfl) hj rfl
  case orr =>
    refine Reaches.exec_twoRegisters rfl rfl rfl (List.cons_ne_nil _ _) hm fun m₁ h₁ => ?_
    exact Reaches.aluToRegister_done DecodeFields.rx h₁ (fun _ => rfl) hj rfl
  case not =>
    refine Reaches.exec_decoded_noAddr rfl rfl hm fun m₁ h₁ => ?_
    refine Reaches.stepReg (t' := { s with op1 := s.getR rx }) h₁ (fun _ => rfl) (List.cons_ne_nil _ _) fun m₂ h₂ => ?_
    exact Reaches.aluToRegister_done DecodeFields.rx h₂ (fun _ => aluNot_eq _) hj rfl

/-- Settles O34: the latches hold the operands as numbers and modes, so the ALU shifts and rotates by the count. -/
theorem srcRrcCompute : Obligations.SrcRrcCompute := by
  unfold Obligations.SrcRrcCompute
  intro r al lr count s v hm hj hv
  obtain rfl := hv
  refine ⟨?src, ?rrc⟩
  case src =>
    refine Reaches.exec_shiftOperands rfl rfl rfl (List.cons_ne_nil _ _) hm fun m₁ h₁ => ?_
    refine Reaches.aluToRegister_done DecodeFields.r h₁ (fun _ => ?_) hj rfl
    rw [aluSrc_eq]
    simp only [State.shiftLatched, State.atTail, fieldsOf, fieldsShift, setWidth_ofBool_eq_one, toNat_setWidth_count]
  case rrc =>
    have hcount : (count.setWidth 18).toNat < 16 := (toNat_setWidth_count count).trans_lt count.isLt
    refine Reaches.exec_shiftOperands rfl rfl rfl (List.cons_ne_nil _ _) hm fun m₁ h₁ => ?_
    refine Reaches.aluToRegister_done DecodeFields.r h₁ (fun _ => ?_) hj rfl
    rw [aluRrc_eq hcount]
    simp only [State.shiftLatched, State.atTail, fieldsOf, fieldsShift, setWidth_ofBool_eq_one, toNat_setWidth_count]

end Sys2Proof.Machine
end

section
/-! PROOFS. The statements on input, output, traps and halting (45_io_trap_halt.md). IN, OUT and HLT have one micro-step
after decode; TRAP is run to the read of its table entry, which its three outcomes share. -/

namespace Sys2Proof.Machine

variable {s t t' : State} {f g : Nat → Word} {X : MemSys → Out} {onFault : State → Out} {rest : List Micro}
  {ins : Instr} {r : BitVec 2} {n : Nat} {m : MemSys} {ea v : Word} {pc : PcWord} {op : Micro} {kind : FaultKind}
  {d : BitVec 5} {code : BitVec 4}

/-! ### Micro-steps of a tail (41_execution_cycle.md R187, R190) -/

/-- A last micro-op that is taken at every memory side, of an instruction that does not jump. -/
theorem Reaches.lastOk_done (h : m.Shows g) (hop : ∀ m, op (t.atTail ins n m) = .ok (t'.atTail ins n m))
    (hj : t'.jumpTaken = false) (hpc : t'.pc = pc) :
    Reaches (runSeq .next onFault (stepsOf [op]) (t.atTail ins n m)) g
      (fun m => .next (t'.done ins (pcNext pc) (n + 2) m)) :=
  Reaches.lastOk (u := fun s => t'.atTail ins n s.ms) h hop
    fun m₁ h₁ => ⟨m₁, h₁, congrArg _ (State.atTail_completed hj hpc)⟩

/-- A last micro-op that completes the instruction by itself at every memory side. -/
theorem Reaches.lastComplete_done (h : m.Shows g) (hop : ∀ m, op (t.atTail ins n m) = .complete (t'.atTail ins n m))
    (hj : t'.jumpTaken = false) (hpc : t'.pc = pc) :
    Reaches (runSeq .next onFault (stepsOf [op]) (t.atTail ins n m)) g
      (fun m => .next (t'.done ins (pcNext pc) (n + 2) m)) :=
  Reaches.lastComplete (u := fun s => t'.atTail ins n s.ms) h hop
    fun m₁ h₁ => ⟨m₁, h₁, congrArg _ (State.atTail_completed hj hpc)⟩

/-- A last micro-op that jumps at every memory side. -/
theorem Reaches.lastOk_jump_done (h : m.Shows g) (hop : ∀ m, op (t.atTail ins n m) = .ok ((t.atTail ins n m).jump v)) :
    Reaches (runSeq .next onFault (stepsOf [op]) (t.atTail ins n m)) g
      (fun m => .next (t.done ins (wordToPc v) (n + 2) m)) :=
  Reaches.lastOk (u := fun s => (t.atTail ins n s.ms).jump v) h hop
    fun m₁ h₁ => ⟨m₁, h₁, congrArg _ State.atTail_jump_completed⟩

/-- A write in range inside a tail: one word of the program's view changes. -/
theorem Reaches.stepWrite {addr value : State → Word} (h : m.Shows g) (haddr : ∀ m, addr (t.atTail ins n m) = ea)
    (hlt : ea.toNat < Config.memWords) (hvalue : ∀ m, value (t.atTail ins n m) = v) (hrest : rest ≠ [])
    (next : ∀ m, m.Shows (fun a => if a = ea.toNat then v else g a) →
      Reaches (runSeq .next onFault (stepsOf rest) (t.atTail ins (n + 1) m)) f X) :
    Reaches (runSeq .next onFault (stepsOf (Machine.writeOp addr value (fun s => s) :: rest)) (t.atTail ins n m)) f X := by
  refine Reaches.tailWrite hrest h (fun m' => (haddr m').trans (haddr m).symm)
    (fun m' => (hvalue m').trans (hvalue m).symm) (by rwa [haddr]) fun m₁ h₁ => next m₁ ?_
  rwa [haddr, hvalue] at h₁

/-! ### Machine faults of a tail (60_exceptions.md R301) -/

/-- A state inside a tail whose machine fault has been taken; `n` micro-steps after decode came before the one that
raised it. -/
def State.faultedAtTail (t : State) (ins : Instr) (n : Nat) (kind : FaultKind) (vector : Word) (m : MemSys) : State :=
  State.faultTaken { t with dec := fieldsOf ins, cycleCount := t.cycleCount + (n + 1) } kind vector m

/-- A machine fault raised inside a tail, after the controller's moves, is taken. -/
theorem Reaches.atTail_faultEntry {m₀ : MemSys} (h : m.Shows g) :
    Reaches (runFaultEntry 0 (((t.atTail ins n m₀).withMs m).raiseFault kind).tick) (savedAt t.pc g)
      (fun m => .next (t.faultedAtTail ins n kind (g Config.faultVectorPtr) m)) :=
  Reaches.faultEntry h fun _ => rfl

/-- A read out of range inside a tail takes the address fault. -/
theorem Reaches.stepRead_fault {addr : State → Word} {put : Word → State → State} (h : m.Shows g)
    (haddr : ∀ m, addr (t.atTail ins n m) = ea) (hge : Config.memWords ≤ ea.toNat) (hrest : rest ≠ []) :
    Reaches (runSeq .next (runFaultEntry 0) (stepsOf (Machine.readOp addr put :: rest)) (t.atTail ins n m))
      (savedAt t.pc g) (fun m => .next (t.faultedAtTail ins n .addressFault (g Config.faultVectorPtr) m)) :=
  Reaches.tailRead_raise hrest h (fun m' => (haddr m').trans (haddr m).symm) (by rw [haddr]; exact Nat.not_lt.2 hge)
    fun _ h₁ => Reaches.atTail_faultEntry h₁

/-- A last micro-op that raises a machine fault, which is taken. -/
theorem Reaches.lastRaise_fault (h : m.Shows g) (hop : ∀ m, op (t.atTail ins n m) = .raise kind (t.atTail ins n m)) :
    Reaches (runSeq .next (runFaultEntry 0) (stepsOf [op]) (t.atTail ins n m)) (savedAt t.pc g)
      (fun m => .next (t.faultedAtTail ins n kind (g Config.faultVectorPtr) m)) :=
  Reaches.lastRaise h hop fun _ h₁ => Reaches.atTail_faultEntry h₁

/-! ### HLT (R283) -/

/-- Settles O39: the one micro-step after decode sets `halted` and completes. -/
theorem hltHalts : Obligations.HltHalts := by
  unfold Obligations.HltHalts
  intro r ix i addr s hm hj
  refine Reaches.exec_decoded rfl hm fun m₁ h₁ => ?_
  exact Reaches.lastReg_done h₁ (fun _ => rfl) hj rfl

/-! ### OUT (R281) -/

/-- The console is device 1 (45_io_trap_halt.md R281). -/
theorem toNat_eq_devConsole : d.toNat = Config.devConsole ↔ d = 1 := BitVec.toNat_inj (y := 1)

theorem outEmit_eq (s : State) : outEmit s = .ok { s with
    terminal := if s.dec.devid = 1 then s.terminal ++ [(s.getR s.dec.r).extractLsb' 0 8] else s.terminal } := by
  rw [outEmit, regOp]
  simp only [toNat_eq_devConsole]
  split <;> rfl

/-- Settles O37: the one micro-step after decode appends to the terminal or does nothing, by the device. -/
theorem outEmits : Obligations.OutEmits := by
  unfold Obligations.OutEmits
  intro r devid s hm hj
  refine Reaches.exec_decoded_noAddr rfl rfl hm fun m₁ h₁ => ?_
  exact Reaches.lastOk_done h₁ (fun _ => outEmit_eq _) hj rfl

/-! ### IN (R280) -/

/-- A state after the character `c` has been read into R[r]. -/
def State.readChar (s : State) (r : BitVec 2) (c : CharCode) : State := s.consumeChar.setR r (c.setWidth 18)

theorem inRead_eq_readChar {c : CharCode} (hd : s.dec.devid = 0) (hc : s.inbuf[s.ptr]? = some c) :
    inRead s = .ok (s.readChar s.dec.r c) := inRead_char hd hc

/-- Settles O35: the one micro-step after decode is taken, completes by itself or waits, by the device and the buffer. -/
theorem inReadsOrWaits : Obligations.InReadsOrWaits := by
  unfold Obligations.InReadsOrWaits
  intro r devid s hm
  refine ⟨fun c hj hdev hc => ?char, fun hj hdev => ?other, fun hdev hptr => ?empty⟩
  case char =>
    refine Reaches.exec_decoded_noAddr rfl rfl hm fun m₁ h₁ => ?_
    exact Reaches.lastOk_done (t' := s.readChar r c) h₁ (fun _ => inRead_eq_readChar hdev hc) hj rfl
  case other =>
    refine Reaches.exec_decoded_noAddr rfl rfl hm fun m₁ h₁ => ?_
    exact Reaches.lastComplete_done h₁ (fun _ => inRead_other hdev) hj rfl
  case empty =>
    have hc : s.inbuf[s.ptr]? = none := List.getElem?_eq_none hptr.ge
    refine Reaches.exec_decoded_noAddr rfl rfl hm fun m₁ h₁ => ?_
    exact Reaches.lastWait (u := fun t => { t with waitForInterrupt := true }) h₁ (fun _ => inRead_empty hdev hc)
      fun m₂ h₂ => ⟨m₂, h₂, rfl⟩

/-! ### A waiting IN goes on (60_exceptions.md R309, R317) -/

/-- Between instructions the `execute` goes on in mode continue and in no other. -/
theorem State.settle_between (hc : s.canRun = true) (hp : s.phase = .run) (hk : s.k = 0) (hm : s.execMode ≠ .micro) :
    s.settle = { s with executing := decide (s.execMode = .continue) } := by
  rw [State.settle, State.goesOn, hc, hp, hk]
  cases hmode : s.execMode with
  | micro => exact absurd hmode hm
  | _ => rfl

/-- A completed instruction, the `execute` over or not. -/
theorem settled_done (hc : t.canRun = true) (hp : t.phase = .run) (hm : t.execMode ≠ .micro) :
    settled (.next (t.done ins pc n m)) =
      .next (State.done { t with executing := decide (t.execMode = .continue) } ins pc n m) :=
  congrArg Host.Outcome.next (State.settle_between (s := t.done ins pc n m) hc hp rfl hm)

/-- Completion of an instruction that an earlier step has decoded. -/
theorem State.completed_of_decoded (hd : t.dec = fieldsOf ins) (hj : t.jumpTaken = false) :
    (t.withMs m).completed.tick = t.done ins (pcNext t.pc) 1 m := by
  rw [State.done, ← hd]
  dsimp only [State.completed, State.withMs]
  rw [hj]
  rfl

/-- The last micro-op of an instruction that an earlier step has decoded. -/
theorem Reaches.lastOk_of_decoded (h : s.ms.Shows g) (hop : ∀ m, op (s.withMs m) = .ok (t.withMs m))
    (hd : t.dec = fieldsOf ins) (hj : t.jumpTaken = false) :
    Reaches (runSeq .next onFault (stepsOf [op]) s) g (fun m => .next (t.done ins (pcNext t.pc) 1 m)) :=
  Reaches.lastOk (u := fun s => t.withMs s.ms) h hop
    fun m₁ h₁ => ⟨m₁, h₁, congrArg _ (State.completed_of_decoded hd hj)⟩

/-- A step at k = 4 of a decoded instruction, in a mode that runs whole instructions, runs its tail. -/
theorem step_tail (h : s.Running) (hmode : s.execMode ≠ .micro) (hp : s.phase = .run) (hk : s.k = 4)
    (hd : s.dec = fieldsOf ins) (hwf : ins.wellFormed = true) (hne : 0 < (tailOf ins).length) :
    step s = settled (runSeq .next (runFaultEntry 0) (stepsOf (tailOf ins)) { s with turns := s.turns.tail }) := by
  have hins : instrOfFields s.dec = .ok ins := by rw [hd, instrOfFields_fieldsOf hwf]
  obtain ⟨op, ops, hdrop, htail, -⟩ := tailAt_of (s := { s with turns := s.turns.tail }) (j := 0) hins hk hne
  rw [List.drop_zero] at hdrop
  rw [hdrop]
  exact (step_macro h hmode).trans (congrArg settled (engineMacro_resume hp (by show ¬ s.k ≤ 3; omega) htail))

/-- Settles O36: the micro-step that waited is taken, which completes the instruction. -/
theorem inResumes : Obligations.InResumes := by
  unfold Obligations.InResumes
  intro r s c hm hj h hmode hp hk hd hc
  rw [step_tail h hmode hp hk hd rfl Nat.one_pos]
  have hdev : s.dec.devid = 0 := by rw [hd]; rfl
  have hr : s.dec.r = r := by rw [hd]; rfl
  have hop : ∀ m, inRead (State.withMs { s with turns := s.turns.tail } m) =
      .ok ((State.readChar { s with turns := s.turns.tail } r c).withMs m) := fun m => by
    rw [← hr]
    exact inRead_eq_readChar (s := State.withMs { s with turns := s.turns.tail } m) hdev hc
  obtain ⟨m, hshows, hrun⟩ := (Reaches.lastOk_of_decoded (onFault := runFaultEntry 0)
    (s := { s with turns := s.turns.tail }) hm.shows hop hd hj).settled
  exact ⟨m, hshows, hrun.trans (settled_done h.active.canRun hp hmode)⟩

/-! ### TRAP (R282) -/

/-- TRAP up to the read of its table entry: PC is in mem[2], the entry's address in MAR and the table base in MDR. -/
theorem Reaches.exec_trapEntryAddr (hm : s.ms.Inv)
    (next : ∀ m, m.Shows s.trapSaved → Reaches (runSeq .next (runFaultEntry 0) (stepsOf [mdrFromMem, trapEnter])
      (State.atTail { s with mar := s.trapEntryAddr code, mdr := s.trapSaved Config.trapTablePtr } (.trap code) 6 m)) f X) :
    Reaches (exec (.trap code) s) f X := by
  refine Reaches.exec_decoded_noAddr rfl rfl hm fun m₁ h₁ => ?_
  refine Reaches.stepReg (t' := { s with mar := 2 }) h₁ (fun _ => rfl) (List.cons_ne_nil _ _) fun m₂ h₂ => ?_
  refine Reaches.stepReg (t' := { s with mar := 2, mdr := pcToWord s.pc }) h₂ (fun _ => rfl) (List.cons_ne_nil _ _)
    fun m₃ h₃ => ?_
  refine Reaches.stepWrite h₃ (fun _ => rfl) (by decide) (fun _ => rfl) (List.cons_ne_nil _ _)
    fun m₄ (h₄ : m₄.Shows s.trapSaved) => ?_
  refine Reaches.stepReg (t' := { s with mar := 0, mdr := pcToWord s.pc }) h₄ (fun _ => rfl) (List.cons_ne_nil _ _)
    fun m₅ h₅ => ?_
  refine Reaches.stepRead (t' := { s with mar := 0, mdr := s.trapSaved Config.trapTablePtr }) h₅ (fun _ => rfl)
    (by decide) (fun _ => rfl) (List.cons_ne_nil _ _) fun m₆ h₆ => ?_
  exact Reaches.stepReg h₆ (fun _ => rfl) (List.cons_ne_nil _ _) next

/-- TRAP up to its last micro-step, with the entry's address in range: the entry is in MDR. -/
theorem Reaches.exec_trapEntry (hm : s.ms.Inv) (hlt : (s.trapEntryAddr code).toNat < Config.memWords)
    (hv : v = s.trapSaved (s.trapEntryAddr code).toNat)
    (next : ∀ m, m.Shows s.trapSaved → Reaches (runSeq .next (runFaultEntry 0) (stepsOf [trapEnter])
      (State.atTail { s with mar := s.trapEntryAddr code, mdr := v } (.trap code) 7 m)) f X) :
    Reaches (exec (.trap code) s) f X := by
  obtain rfl := hv
  refine Reaches.exec_trapEntryAddr hm fun m₁ h₁ => ?_
  exact Reaches.stepRead h₁ (fun _ => rfl) hlt (fun _ => rfl) (List.cons_ne_nil _ _) next

/-- Settles O38: the entry's address decides the read, and the entry the last micro-step. -/
theorem trapTransfersOrFaults : Obligations.TrapTransfersOrFaults := by
  unfold Obligations.TrapTransfersOrFaults
  intro code s a hm ha
  obtain rfl := ha
  refine ⟨fun entry hlt hentry hne => ?transfer, fun hlt hzero => ?empty, fun hge => ?range⟩
  case transfer =>
    refine Reaches.exec_trapEntry hm hlt hentry fun m₁ h₁ => ?_
    exact Reaches.lastOk_jump_done h₁ fun _ => trapEnter_jump hne
  case empty =>
    refine Reaches.exec_trapEntry hm hlt hzero.symm fun m₁ h₁ => ?_
    exact Reaches.lastRaise_fault h₁ fun _ => trapEnter_empty rfl
  case range =>
    refine Reaches.exec_trapEntryAddr hm fun m₁ h₁ => ?_
    exact Reaches.stepRead_fault h₁ (fun _ => rfl) hge (List.cons_ne_nil _ _)

end Sys2Proof.Machine
end

section
/-! PROOFS. The statements on exceptions, the host and the modes of an `execute` (60_exceptions.md): an instruction
and its micro-steps, the machine faults of the effective address and of the word there, fault entry, when an `execute` is
over, the host's actions, and the loads that are refused. -/

namespace Sys2Proof.Machine

variable {s t : State} {g : Nat → Word} {rest : List Micro} {ins : Instr} {lx i : Bool} {ix : BitVec 2}
  {addr : BitVec 5} {n : Nat} {m : MemSys} {ea v : Word} {op : Micro}

/-! ### An instruction and its micro-steps (R317) -/

/-- Settles O58: from each step of fetch, a tail or fault entry on, the run of an instruction is its micro-steps.
Neither side looks at `halted`, so that hypothesis is not used. -/
theorem macroIsMicroSteps : Obligations.MacroIsMicroSteps := by
  unfold Obligations.MacroIsMicroSteps
  intro s h _ hw hr
  exact engineMacro_microSteps h.ms hw hr

/-! ### The indirect read (41_execution_cycle.md R188) -/

/-- An instruction that computes an effective address begins its tail with the address. -/
theorem tailOf_of_eaOperands (h : eaOperands ins = some (lx, ix, i, addr)) :
    ∃ rest, tailOf ins = Machine.eaOps i ++ rest := by
  cases ins <;> cases h <;> exact ⟨_, rfl⟩

/-- Settles O40: decode, EA and MAR take the base, and the read at MAR raises the fault, which is taken. -/
theorem indirectReadFaults : Obligations.IndirectReadFaults := by
  unfold Obligations.IndirectReadFaults
  intro ins lx ix addr s base hm hwf hops hbase hge
  obtain ⟨rest, htail⟩ := tailOf_of_eaOperands hops
  obtain ⟨rfl, rfl, rfl⟩ := fieldsOf_of_eaOperands hops
  obtain rfl := hbase
  show Reaches _ _ (fun m => .next _)
  rw [exec_runSeq ins hwf, htail]
  refine Reaches.decodeStep hm fun m₁ h₁ => ?_
  refine Reaches.eaOps_raise h₁ (Nat.not_lt.2 hge) fun m₂ h₂ => ?_
  exact Reaches.faultEntry h₂ fun _ => rfl

/-! ### The word at the effective address (R303, R304) -/

@[simp] theorem State.withEa_cycleCount : (s.withEa lx ix i addr).cycleCount = s.cycleCount := by cases i <;> rfl

/-- The last write of a tail, out of range, takes the address fault. -/
theorem Reaches.lastWrite_fault {addr value : State → Word} {after : State → State} (h : m.Shows g)
    (haddr : ∀ m, addr (t.atTail ins n m) = ea) (hge : Config.memWords ≤ ea.toNat) :
    Reaches (runSeq .next (runFaultEntry 0) (stepsOf [Machine.writeOp addr value after]) (t.atTail ins n m))
      (savedAt t.pc g) (fun m => .next (t.faultedAtTail ins n .addressFault (g Config.faultVectorPtr) m)) :=
  Reaches.lastWrite_raise h (fun m' => (haddr m').trans (haddr m).symm) (by rw [haddr]; exact Nat.not_lt.2 hge)
    fun _ h₁ => Reaches.atTail_faultEntry h₁

/-- `MAR <- EA`, then the read of the word there, out of range. -/
theorem Reaches.operandRead_fault (h : m.Shows g) (hea : t.ea = ea) (hge : Config.memWords ≤ ea.toNat)
    (hrest : rest ≠ []) :
    Reaches (runSeq .next (runFaultEntry 0) (stepsOf (marFromEa :: mdrFromMem :: rest)) (t.atTail ins n m))
      (savedAt t.pc g) (fun m => .next
        (State.faultedAtTail { t with mar := ea } ins (n + 1) .addressFault (g Config.faultVectorPtr) m)) := by
  obtain rfl := hea
  refine Reaches.stepReg (t' := { t with mar := t.ea }) h (fun _ => rfl) (List.cons_ne_nil _ _) fun m₁ h₁ => ?_
  exact Reaches.stepRead_fault h₁ (fun _ => rfl) hge hrest

/-- `MAR <- EA`, a register into MDR, and the write of a store, out of range. -/
theorem Reaches.operandWrite_fault {u : State → Word} (h : m.Shows g) (hea : t.ea = ea)
    (hge : Config.memWords ≤ ea.toNat) (hu : ∀ m, u (State.atTail { t with mar := ea } ins (n + 1) m) = v) :
    Reaches (runSeq .next (runFaultEntry 0)
        (stepsOf [marFromEa, Machine.regOp fun s => { s with mdr := u s }, memFromMdr]) (t.atTail ins n m))
      (savedAt t.pc g) (fun m => .next
        (State.faultedAtTail { t with mar := ea, mdr := v } ins (n + 2) .addressFault (g Config.faultVectorPtr) m)) := by
  obtain rfl := hea
  refine Reaches.stepReg (t' := { t with mar := t.ea }) h (fun _ => rfl) (List.cons_ne_nil _ _) fun m₁ h₁ => ?_
  refine Reaches.stepReg (t' := { t with mar := t.ea, mdr := v }) h₁ (fun m => ?_) (List.cons_ne_nil _ _)
    fun m₂ h₂ => ?_
  · rw [hu]; rfl
  · exact Reaches.lastWrite_fault h₂ (fun _ => rfl) hge

/-- An instruction whose tail reads the word at EA, with EA out of range. -/
theorem Reaches.exec_dataRead_fault (hops : eaOperands ins = some (lx, ix, i, addr)) (hwf : ins.wellFormed = true)
    (htail : tailOf ins = Machine.eaOps i ++ marFromEa :: mdrFromMem :: rest) (hrest : rest ≠ []) (hm : s.ms.Inv)
    (hread : s.eaReadable lx ix i addr) (hea : ea = s.effAddr lx ix i addr) (hge : Config.memWords ≤ ea.toNat) :
    Reaches (exec ins s) (savedAt s.pc (s.seen addr)) (fun m => .next
      (State.faultTaken { s.withEa lx ix i addr with
        dec := fieldsOf ins, mar := ea, cycleCount := s.cycleCount + (eaSteps i + 2) } .addressFault
        (s.seen addr Config.faultVectorPtr) m)) := by
  refine Reaches.exec_ea hops hwf htail (List.cons_ne_nil _ _) hm hread fun m₁ h₁ => ?_
  have h := Reaches.operandRead_fault (ins := ins) (n := eaSteps i) h₁ (State.withEa_ea.trans hea.symm) hge hrest
  simpa only [State.faultedAtTail, State.withEa_pc, State.withEa_cycleCount] using h

/-- A store, with EA out of range. -/
theorem Reaches.exec_dataWrite_fault {u : State → Word} (hops : eaOperands ins = some (lx, ix, i, addr))
    (hwf : ins.wellFormed = true)
    (htail : tailOf ins = Machine.eaOps i ++ [marFromEa, Machine.regOp fun s => { s with mdr := u s }, memFromMdr])
    (hm : s.ms.Inv) (hread : s.eaReadable lx ix i addr) (hea : ea = s.effAddr lx ix i addr)
    (hge : Config.memWords ≤ ea.toNat)
    (hu : ∀ m, u (State.atTail { s.withEa lx ix i addr with mar := ea } ins (eaSteps i + 1) m) = v) :
    Reaches (exec ins s) (savedAt s.pc (s.seen addr)) (fun m => .next
      (State.faultTaken { s.withEa lx ix i addr with
        dec := fieldsOf ins, mar := ea, mdr := v, cycleCount := s.cycleCount + (eaSteps i + 3) } .addressFault
        (s.seen addr Config.faultVectorPtr) m)) := by
  refine Reaches.exec_ea hops hwf htail (List.cons_ne_nil _ _) hm hread fun m₁ h₁ => ?_
  have h := Reaches.operandWrite_fault (ins := ins) (n := eaSteps i) h₁ (State.withEa_ea.trans hea.symm) hge hu
  simpa only [State.faultedAtTail, State.withEa_pc, State.withEa_cycleCount] using h

/-- Settles O41: in all four the read at MAR raises the fault before the destination or CC is written. -/
theorem dataReadFaults : Obligations.DataReadFaults := by
  unfold Obligations.DataReadFaults
  intro ins r ix lx i addr s ea hm hins hread hea hge
  obtain ⟨rfl, rfl⟩ | ⟨rfl, rfl⟩ | ⟨rfl, rfl⟩ | ⟨rfl, rfl, hix⟩ := hins
  · exact Reaches.exec_dataRead_fault rfl rfl rfl (List.cons_ne_nil _ _) hm hread hea hge
  · exact Reaches.exec_dataRead_fault rfl rfl rfl (List.cons_ne_nil _ _) hm hread hea hge
  · exact Reaches.exec_dataRead_fault rfl rfl rfl (List.cons_ne_nil _ _) hm hread hea hge
  · exact Reaches.exec_dataRead_fault rfl (namesIndex_of_ne_zero hix) rfl (List.cons_ne_nil _ _) hm hread hea hge

/-- Settles O42: in both the register goes to MDR, and the write at MAR raises the fault and stores nothing. -/
theorem dataWriteFaults : Obligations.DataWriteFaults := by
  unfold Obligations.DataWriteFaults
  intro ins r ix lx i addr s ea v hm hins hread hea hge
  obtain ⟨rfl, rfl, rfl⟩ | ⟨rfl, rfl, hx⟩ := hins
  · exact Reaches.exec_dataWrite_fault rfl rfl rfl hm hread hea hge fun _ => State.withEa_getR r
  · exact Reaches.exec_dataWrite_fault rfl (namesIndex_of_ne_zero (State.ne_zero_of_getX hx)) rfl hm hread hea hge
      fun _ => congrArg (Option.getD · 0) ((State.withEa_getX ix).trans hx)

/-! ### Fault entry (R301, R319) -/

/-- The step is one micro-op of fault entry. -/
theorem step_faultEntryOp {j : Fin 3} (h : s.MicroNext) (hp : s.phase = .faultEntry j)
    (hop : faultEntryOps[j.val]? = some op) :
    step s = settled (runSeq .next .next [op] { s with turns := s.turns.tail }) := by
  have hat : microOpAt { s with turns := s.turns.tail } = .ok op := by
    rw [microOpAt]
    simp only [hp, hop]
  exact (step_micro h).trans (congrArg settled (engineMicro_of hat))

/-- A step of fault entry that writes PC to memory leads to the next one, and the `execute` goes on. -/
theorem step_faultEntrySave {j next : Fin 3} {a : Word} {x : Nat} (hm : s.ms.Inv) (h : s.MicroNext)
    (hp : s.phase = .faultEntry j) (ha : a.toNat = x) (hx : x < Config.memWords)
    (hop : faultEntryOps[j.val]? = some (writeOp (fun _ => a) (fun s => pcToWord s.pc) (.atFaultEntry next))) :
    ∃ m, m.Shows (fun y => if y = x then pcToWord s.pc else s.ms.view y) ∧ step s = .next { s with
      phase := .faultEntry next, cycleCount := s.cycleCount + 1, ms := m, turns := s.turns.tail } := by
  obtain rfl := ha
  obtain ⟨m, hshows, hrun⟩ := runSeq_writeOp (fin := .next) (onFault := .next) (ops := [])
    (s := { s with turns := s.turns.tail }) (addr := fun _ => a) (value := fun s => pcToWord s.pc)
    (after := .atFaultEntry next) hm (fun _ => rfl) (fun _ => rfl) hx
  refine ⟨m, hshows, ?_⟩
  rw [step_faultEntryOp h hp hop, hrun]
  exact settled_faultEntry h.active.executing h.active.canRun (fun hc => nomatch hc)

/-- The last step of fault entry reads the vector and leads out of it, in mode continue. -/
theorem step_faultEntryVector (hm : s.ms.Inv) (h : s.MicroNext) (hp : s.phase = .faultEntry 2) :
    ∃ m, m.Shows s.ms.view ∧ step s = .next { s with
      pc := wordToPc (s.ms.view Config.faultVectorPtr), jumpTaken := false, k := 0, phase := .run
      execMode := .continue, cycleCount := s.cycleCount + 1, ms := m, turns := s.turns.tail } := by
  obtain ⟨m, hshows, hrun⟩ := runSeq_readOp (fin := .next) (onFault := .next) (ops := [])
    (s := { s with turns := s.turns.tail }) (addr := fun _ => BitVec.ofNat 18 Config.faultVectorPtr)
    (put := .vectored) hm (fun _ => rfl) (by decide)
  refine ⟨m, hshows, ?_⟩
  rw [step_faultEntryOp h hp rfl, hrun]
  exact settled_continue h.active.executing h.active.canRun rfl

/-- Settles O47: the two writes of PC, and the read that leads out. -/
theorem faultEntrySteps : Obligations.FaultEntrySteps := by
  unfold Obligations.FaultEntrySteps
  intro s hm h
  exact ⟨fun hp => step_faultEntrySave hm h hp (a := 4) rfl (by decide) rfl,
    fun hp => step_faultEntrySave hm h hp (a := 5) rfl (by decide) rfl,
    step_faultEntryVector hm h⟩

/-! ### When an `execute` is over (R317, R319) -/

/-- Nothing stops an engine that is neither halted nor waiting, refused or shut down. -/
theorem State.canRun_iff :
    s.canRun = true ↔ s.halted = false ∧ s.waitForInterrupt = false ∧ s.refused = false ∧ s.terminated = false := by
  simp only [State.canRun, Bool.and_eq_true, Bool.not_eq_true', and_assoc]

theorem State.goesOn_iff : s.goesOn = true ↔
    (s.halted = false ∧ s.waitForInterrupt = false ∧ s.refused = false ∧ s.terminated = false) ∧
    (s.execMode = .micro → s.phase ≠ .run) ∧ (s.execMode = .macroStep → ¬ (s.phase = .run ∧ s.k = 0)) := by
  rw [State.goesOn, Bool.and_eq_true, State.canRun_iff]
  cases s.execMode with
  | micro => simp
  | macroStep => simp [imp_iff_not_or]
  | _ => simp

/-- What micro-steps of the engine answer, the `execute` over or not. -/
theorem settled_eq_next {o : Out} (h : settled o = .next t) : ∃ u, o = .next u ∧ t = u.settle := by
  cases o with
  | next u => cases h; exact ⟨u, rfl, rfl⟩
  | fault r => cases h
  | refused r => cases h

/-- A step of an active engine, whatever it runs, ends with `State.settle`. -/
theorem step_settles (hact : s.Active)
    (hturn : s.turns = [] ∨ s.turns.head? = some .engine ∨ s.turns.head? = some .micro) (he : step s = .next t) :
    ∃ u : State, t = u.settle := by
  obtain ⟨run, hstep⟩ := step_engineTurn hturn
  rw [hstep, engineTurn_active run (hact.turns _)] at he
  obtain ⟨u, -, hu⟩ := settled_eq_next he
  exact ⟨u, hu⟩

/-- Settles O50: the step ends with `State.settle`, which looks at no field that it writes. -/
theorem executeEnds : Obligations.ExecuteEnds := by
  unfold Obligations.ExecuteEnds
  intro s t h he
  have hu : ∃ u : State, t = u.settle := by
    obtain h | h := h
    · exact step_settles h.active (h.turn.imp_right .inl) he
    · exact step_settles h.active (h.turn.imp And.left .inr) he
  obtain ⟨u, rfl⟩ := hu
  exact State.goesOn_iff (s := u)

/-! ### The host's actions (R308, R309, R316, R318) -/

/-- A turn of the host is its action. -/
theorem step_act (s : State) (a : HostAct) (rest : List Turn) :
    step { s with turns := .act a :: rest } = hostAct a { s with turns := rest } := rfl

theorem State.canRun_eq_decide : s.canRun =
    decide (s.halted = false ∧ s.waitForInterrupt = false ∧ s.refused = false ∧ s.terminated = false) := by
  rw [Bool.eq_iff_iff, decide_eq_true_iff, State.canRun_iff]

/-- An interrupt ends a wait, and the waiting IN goes on if nothing else stops the engine (R309). -/
theorem hostInterrupt_io (s : State) : hostInterrupt .io s = .next (if s.waitForInterrupt = true then
    { s with
      waitForInterrupt := false
      executing := decide (s.halted = false ∧ s.refused = false ∧ s.terminated = false) }
    else s) := by
  simp only [hostInterrupt, State.resume, State.canRun_eq_decide, true_and]

theorem all_charCode_iff {str : List Nat} : (str.all fun c => decide (c < 65536)) = true ↔ ∀ c ∈ str, c < 65536 := by
  simp only [List.all_eq_true, decide_eq_true_eq]

theorem hostFeedInput_eq (s : State) (str : List Nat) : hostFeedInput str s =
    if ∀ c ∈ str, c < 65536 then .next { s with inbuf := s.inbuf ++ str.map (BitVec.ofNat 16) }
    else .next (s.refuse .charCodeTooLarge) := by
  simp only [hostFeedInput, all_charCode_iff]

/-- An `execute` begins unless the model has refused or shut down; whether the engine has a step is then a matter of the
two states it stops in (R316, R317). -/
theorem hostExecute_eq (s : State) (mode : ExecMode) : hostExecute mode s =
    if s.refused = true ∨ s.terminated = true then .next (s.refuse .executeNotAllowed)
    else .next { s with
      execMode := mode, executing := decide (s.halted = false ∧ s.waitForInterrupt = false) } := by
  rw [hostExecute]
  simp only [Bool.or_eq_true]
  split
  · rfl
  · next h =>
    obtain ⟨hr, ht⟩ : s.refused = false ∧ s.terminated = false := by simpa using h
    simp only [State.resume, State.canRun_eq_decide, hr, ht, and_true]

/-- After a user program the HLT reaction resumes the engine as the boot program (R318). -/
theorem hostHltReaction_user (hh : s.halted = true) (hk : s.programKind = .user) : hostHltReaction s = .next { s with
    r0 := 0, r1 := 0, r2 := 0, r3 := 0, x1 := 0, x2 := 0, x3 := 0, pc := 24, jumpTaken := false, k := 0
    halted := false, programKind := .boot
    executing := decide (s.waitForInterrupt = false ∧ s.refused = false ∧ s.terminated = false) } := by
  simp only [hostHltReaction, hh, hk, if_true, State.resume, State.canRun_eq_decide, true_and]
  rfl

/-- After the boot program the engine stays halted (R318). -/
theorem hostHltReaction_boot (hh : s.halted = true) (hk : s.programKind = .boot) :
    hostHltReaction s = .next s.clearGeneral := by
  rw [hostHltReaction, if_pos hh, hk]

theorem hostHltReaction_notHalted (hh : s.halted = false) : hostHltReaction s = .next (s.refuse .notHalted) := by
  rw [hostHltReaction, hh]
  rfl

/-- Settles O53: each action has its equation. -/
theorem hostActions : Obligations.HostActions := by
  unfold Obligations.HostActions
  intro s rest
  simp only [step_act]
  refine ⟨?interrupt, fun _ => rfl, fun str => hostFeedInput_eq _ str, fun mode => hostExecute_eq _ mode, rfl, rfl,
    fun hh hk => hostHltReaction_user (s := { s with turns := rest }) hh hk,
    fun hh hk => hostHltReaction_boot (s := { s with turns := rest }) hh hk,
    fun hh => hostHltReaction_notHalted (s := { s with turns := rest }) hh⟩
  case interrupt => exact hostInterrupt_io { s with turns := rest }

/-! ### The loads that are refused (R316; 70_reset_and_hazards.md R341) -/

theorem State.loadAllowed_iff : s.loadAllowed = true ↔
    (s.k = 0 ∧ s.phase = .run) ∨ s.halted = true ∨ s.waitForInterrupt = true := by
  simp only [State.loadAllowed, Bool.or_eq_true, Bool.and_eq_true, decide_eq_true_eq, or_assoc]

variable {source : List String} {prefetch : Option (List Nat)} {codes : List Nat}

theorem prefetchInRange_eq_false (h : ∃ c ∈ codes, 65536 ≤ c) : prefetchInRange (some codes) = false := by
  obtain ⟨c, hc, hge⟩ := h
  rw [prefetchInRange, Bool.eq_false_iff, ne_eq, all_charCode_iff]
  exact fun hall => absurd (hall c hc) (Nat.not_lt.2 hge)

theorem hostLoadRom_midInstruction (h : s.loadAllowed = false) :
    hostLoadRom source prefetch s = .next (s.refuse .loadMidInstruction) := by
  rw [hostLoadRom, h]
  rfl

theorem hostLoadRom_charCode (h : s.loadAllowed = true) (hc : prefetchInRange prefetch = false) :
    hostLoadRom source prefetch s = .next (s.refuse .charCodeTooLarge) := by
  rw [hostLoadRom, h, hc]
  rfl

theorem hostLoadRom_pastMemory (hm : s.ms.Inv) (h : s.loadAllowed = true) (hc : prefetchInRange prefetch = true)
    (hw : ∃ w ∈ (assemble (if s.ms.view 24 = 0 then 24 else 100) source).words ++ prefetchWords prefetch,
      Config.memWords ≤ w.1) :
    hostLoadRom source prefetch s = .next (s.refuse .loadPastMemory) := by
  obtain ⟨w, hmem, hge⟩ := hw
  rw [← loadBase_drain hm] at hmem
  rw [hostLoadRom, h, hc]
  exact if_pos (List.any_eq_true.2 ⟨w, hmem, decide_eq_true hge⟩)

/-- Settles O55: the three refusals are asked for in this order, each before anything is loaded. -/
theorem loadRefused : Obligations.LoadRefused := by
  unfold Obligations.LoadRefused
  intro s source prefetch rest base hm hbase
  obtain rfl := hbase
  simp only [step_act]
  refine ⟨fun hmid hh hw => ?mid, fun hallowed => ⟨fun codes hp hc => ?charCode, fun hp hpast => ?past⟩⟩
  case mid =>
    have hnot : ¬ s.loadAllowed = true := by rw [State.loadAllowed_iff, hh, hw]; simpa using hmid
    exact hostLoadRom_midInstruction (s := { s with turns := rest }) (Bool.eq_false_iff.2 hnot)
  case charCode =>
    obtain rfl := hp
    exact hostLoadRom_charCode (s := { s with turns := rest }) (State.loadAllowed_iff.2 hallowed)
      (prefetchInRange_eq_false hc)
  case past =>
    exact hostLoadRom_pastMemory (s := { s with turns := rest }) hm (State.loadAllowed_iff.2 hallowed) hp hpast

end Sys2Proof.Machine
end

section
/-! PROOFS. The statement on loads (70_reset_and_hazards.md R340 to R342): a load that is allowed and fits. What it
leaves in memory is said by what the program sees, word by word. -/

namespace Sys2Proof.Machine

variable {s : State} {source : List String} {prefetch : Option (List Nat)} {codes : List Nat} {base : Nat} {m : MemSys}
  {ws : List (Nat × Word)}

/-! ### The base and the state loaded (R341, R342) -/

/-- A load that is allowed, of words in range, is not refused (R341). -/
theorem hostLoadRom_loaded (hm : s.ms.Inv) (h : s.loadAllowed = true) (hc : prefetchInRange prefetch = true)
    (hbase : base = if s.ms.view 24 = 0 then 24 else 100)
    (hw : ∀ w ∈ (assemble base source).words ++ prefetchWords prefetch, w.1 < Config.memWords) :
    hostLoadRom source prefetch s = .next (s.loadedWith base (assemble base source) (prefetchWords prefetch)) := by
  obtain rfl := hbase.trans (loadBase_drain hm).symm
  have hfit : ((assemble (loadBase s.ms.drain.mem) source).words ++ prefetchWords prefetch).any
      (fun w => decide (Config.memWords ≤ w.1)) = false :=
    List.any_eq_false.2 fun w hmem => by simpa using hw w hmem
  rw [hostLoadRom, h, hc, hfit]
  rfl

/-- Either base fits PC (R342). -/
theorem State.loadedWith_pc_toNat {a : AsmResult} {data : List (Nat × Word)}
    (hbase : base = if s.ms.view 24 = 0 then 24 else 100) : (s.loadedWith base a data).pc.toNat = base := by
  rw [hbase]
  split <;> rfl

/-- Every register but PC is cleared (R340; 10_state.md R42). -/
theorem State.loadedWith_reg {a : AsmResult} {data : List (Nat × Word)} (n : RegName) (hn : n ≠ .pc) :
    (s.loadedWith base a data).reg n = 0 := by
  cases n with
  | pc => exact absurd rfl hn
  | _ => rfl

/-! ### What the program sees after a load (R341) -/

/-- A word at no stored address keeps what the program saw. -/
theorem MemSys.loaded_view_other {a : Nat} (h : m.Inv) (hw : ∀ w ∈ ws, w.1 < Config.memWords)
    (ha : ∀ w ∈ ws, w.1 ≠ a) : (m.loaded ws).view a = m.view a := by
  rw [(MemSys.loaded_shows h ws hw).2, storeWords_read_other ws (MemSys.drain_shows h).1.memWf hw ha,
    MemSys.drain_mem_read h]

/-- The words of the text are there, whatever the assembly stored before them. -/
theorem MemSys.loaded_view_prefetch {d : Nat × Word} (h : m.Inv)
    (hw : ∀ w ∈ ws ++ prefetchWords prefetch, w.1 < Config.memWords) (hd : d ∈ prefetchWords prefetch) :
    (m.loaded (ws ++ prefetchWords prefetch)).view d.1 = d.2 := by
  rw [(MemSys.loaded_shows h _ hw).2]
  exact (storeWords_over ws _ (MemSys.drain_shows h).1.memWf hw (prefetchWords_distinct prefetch)).1 d hd

/-- A code of the text stands at 1000 and its place. -/
theorem MemSys.loaded_view_code {j c : Nat} (h : m.Inv)
    (hw : ∀ w ∈ ws ++ prefetchWords (some codes), w.1 < Config.memWords) (hj : codes[j]? = some c) :
    (m.loaded (ws ++ prefetchWords (some codes))).view (Config.prefetchBase + j) = BitVec.ofNat 18 c := by
  have hmem : (Config.prefetchBase + j, BitVec.ofNat 18 c) ∈ prefetchWords (some codes) :=
    mem_prefetchWords.2 ⟨j, c, (List.getElem?_append_left (List.getElem?_eq_some_iff.1 hj).1).trans hj, rfl⟩
  exact MemSys.loaded_view_prefetch h hw hmem

/-- A word of the assembly is there unless the text is stored over it. -/
theorem MemSys.loaded_view_assembled {w : Nat × Word} (h : m.Inv)
    (hw : ∀ x ∈ (assemble base source).words ++ prefetchWords prefetch, x.1 < Config.memWords)
    (hmem : w ∈ (assemble base source).words) (hd : ∀ d ∈ prefetchWords prefetch, d.1 ≠ w.1) :
    (m.loaded ((assemble base source).words ++ prefetchWords prefetch)).view w.1 = w.2 := by
  rw [(MemSys.loaded_shows h _ hw).2]
  exact (storeWords_over _ _ (MemSys.drain_shows h).1.memWf hw (prefetchWords_distinct prefetch)).2
    (assemble_addresses base source).1 w hmem hd

/-! ### The load protocol (R340 to R342) -/

/-- Settles O54: the control fields are read off the state loaded, PC and the registers have a lemma each, and so has
each kind of word in memory. -/
theorem loadProtocol : Obligations.LoadProtocol := by
  unfold Obligations.LoadProtocol
  intro s source prefetch rest base asm hm hallowed hbase hasm hc hw
  subst hasm
  have hloaded := hostLoadRom_loaded (s := { s with turns := rest }) hm hallowed hc hbase hw
  have hdrained := MemSys.drain_empty s.ms
  have hinv : (s.ms.loaded ((assemble base source).words ++ prefetchWords prefetch)).Inv :=
    (MemSys.loaded_shows hm _ hw).1
  refine ⟨_, (step_act s _ rest).trans hloaded, State.loadedWith_pc_toNat (s := { s with turns := rest }) hbase,
    State.loadedWith_reg, rfl, rfl, rfl, rfl, rfl, rfl, rfl, rfl, rfl, rfl, rfl, rfl, rfl, rfl, rfl, rfl, rfl,
    hdrained.1, hdrained.2, hinv, ?kept, ?text, ?assembled⟩
  case kept => exact fun a ha => MemSys.loaded_view_other hm hw ha
  case text =>
    intro codes hcodes
    subst hcodes
    exact ⟨fun j c hj => MemSys.loaded_view_code hm hw hj,
      MemSys.loaded_view_prefetch hm hw (eot_mem_prefetchWords codes)⟩
  case assembled => exact fun w hmem hd => MemSys.loaded_view_assembled hm hw hmem hd

end Sys2Proof.Machine
end
